-- ==== Sys2Proof/Word.lean ====
section
/-! DEFINITION. The byte: the width DH fixes for a symbol, a source byte and a buffer byte (R6, R49). -/

namespace Sys2Proof

/-- A byte value 0..255 (R6: `SYMW` = 8; R20: `cur` has 8 bits). -/
abbrev Byte := BitVec 8

end Sys2Proof
end

