-- ==== Sys2Proof/Config.lean ====
section
/-! DEFINITION. The implementation parameters (R6) and the free values: what an instance fixes, and what the
spec leaves without a value. Nothing here has a value that a proof can see. -/

namespace Sys2Proof

/-- The implementation parameters of R6 that are OPEN, as plain data. They are fixed for the life of an instance (R31):
the state carries them and no step changes them, so every claim about a state is a claim about every value of them.
`SYMW` is 8, `ROOT` is 0 and `NODES` is the length of the tree memory. `CNTW` is unbounded (R27, D17). -/
structure Params where
  /-- `MSB_FIRST` (R48, D1): `true` when bit 7 of a source byte is delivered first. -/
  msbFirst : Bool
  /-- `BIT_LIMIT` (R95, D2): how many leading bits of a session are code bits; `none` is the DH-exact instance. -/
  bitLimit : Option Nat
  /-- `IW` (D10): width of a tree node index. -/
  iw : Nat
  /-- `AW` (D7): width of an operand and of a buffer address. -/
  aw : Nat
  /-- `IOW` (D8): width of the failure code a source reports. -/
  iow : Nat
  /-- `BUF_SIZE` (D13): number of bytes of the caller's buffer. -/
  bufSize : Nat
deriving DecidableEq, Repr

/-- `DW = max(AW, IOW, 8)`, the width of the response's data field (R6, R71). -/
def Params.dw (p : Params) : Nat := max (max p.aw p.iow) 8

/-- `PW = max(8, IOW)`, the width of a source answer's payload (R74). -/
def Params.pw (p : Params) : Nat := max 8 p.iow

/-- DESIGN CHOICE (log 1): the instance's `MSB_FIRST`; R48 forbids a value. -/
opaque Config.msbFirst : Bool

/-- DESIGN CHOICE (log 1): the instance's `BIT_LIMIT`, OPEN in R6. -/
opaque Config.bitLimit : Option Nat

/-- DESIGN CHOICE (log 1): how far the instance's `IW` lies above its least value 4. -/
opaque Config.iwAboveLeast : Nat

/-- DESIGN CHOICE (log 1): how far the instance's `AW` lies above its least value 1. -/
opaque Config.awAboveLeast : Nat

/-- DESIGN CHOICE (log 1): how far the instance's `IOW` lies above its least value 1. -/
opaque Config.iowAboveLeast : Nat

/-- DESIGN CHOICE (log 1): the instance's `BUF_SIZE`, cut to `2^AW` in `Config.params`. -/
opaque Config.bufSize : Nat

/-- The parameters of the instance that `State.reset` describes: within the bounds of R6, otherwise unknown. -/
def Config.params : Params where
  msbFirst := Config.msbFirst
  bitLimit := Config.bitLimit
  iw := Config.iwAboveLeast + 4
  aw := Config.awAboveLeast + 1
  iow := Config.iowAboveLeast + 1
  bufSize := min Config.bufSize (2 ^ (Config.awAboveLeast + 1))

/-- DESIGN CHOICE (log 2): the free value of `cur` after a reset (R34: "unspecified"), one for each draw. -/
opaque Config.unspecifiedCur : Nat → Byte

/-- DESIGN CHOICE (log 2): the free value of `node` after a reset (R34: "unspecified"), one for each draw;
cut to `IW` bits where it is used. -/
opaque Config.unspecifiedNode : Nat → Nat

/-- DESIGN CHOICE (log 3): whether a fetch that was outstanding when a reset struck took the source's next answer
(R185: "may or may not have moved the source's cursor"; U18: any value), one for each draw. -/
opaque Config.abortedFetchTakes : Nat → Bool

end Sys2Proof
end

