-- ==== Sys2Proof/Syntax.lean ====
section
/-! DEFINITION. What the ports and memories carry, as data: commands (R67), source answers (R42), node words (R76),
responses (R71), the abstract tree (R104) and the transfers a run shows (R9, R82). -/

namespace Sys2Proof

/-- The host commands, one constructor for each row of spec/opcode_table.json (R67).
Each carries the two operand fields `a` and `b` of its word (R66). Only READ uses them, as `offset` and `count` (R68);
the N and X commands ignore theirs (R70), which the meanings say by not looking at them (log 13). -/
inductive Instr where
  /-- OPEN, op 0x00 (R131). -/
  | openStream (a b : Nat)
  /-- CLOSE, op 0x01 (R132). -/
  | closeStream (a b : Nat)
  /-- READ_BYTE, op 0x02 (R134). -/
  | readByte (a b : Nat)
  /-- READ, op 0x03 (R135). -/
  | read (offset count : Nat)
  /-- CAN_READ, op 0x04 (R136). -/
  | canRead (a b : Nat)
  /-- CAN_WRITE, op 0x05 (R137). -/
  | canWrite (a b : Nat)
  /-- CAN_SEEK, op 0x06 (R138). -/
  | canSeek (a b : Nat)
  /-- FLUSH, op 0x08 (R140). -/
  | flush (a b : Nat)
  /-- GET_LENGTH, op 0x09 (R141). -/
  | getLength (a b : Nat)
  /-- GET_POSITION, op 0x0A (R142). -/
  | getPosition (a b : Nat)
  /-- SET_POSITION, op 0x0B (R143). -/
  | setPosition (a b : Nat)
  /-- SEEK, op 0x0C (R144). -/
  | seek (a b : Nat)
  /-- SET_LENGTH, op 0x0D (R145). -/
  | setLength (a b : Nat)
  /-- WRITE, op 0x0E (R146). -/
  | write (a b : Nat)
deriving DecidableEq, Repr

/-- The source's answer to a fetch (R42). -/
inductive Answer where
  /-- `Byte(b)`: the next byte; the source's cursor has advanced by one. -/
  | byte (b : Byte)
  /-- `End`: no next byte now. -/
  | atEnd
  /-- `Fail(e)`: an I/O failure with a code of `IOW` bits. -/
  | fail (e : Nat)
deriving DecidableEq, Repr

/-- A node of the PrefixTree as its word says it (R76). -/
inductive Node where
  /-- A leaf with its symbol. -/
  | leaf (sym : Byte)
  /-- An internal node with the indices of its children for bit 0 and bit 1. -/
  | internal (c0 c1 : Nat)
deriving DecidableEq, Repr

/-- The abstract PrefixTree (R104). -/
inductive Tree where
  | leaf (sym : Byte)
  | node (zero one : Tree)
deriving DecidableEq, Repr

/-- The outcome kinds of a command (R72). -/
inductive Status where
  | ok
  | endOfStream
  | invalidArgument
  | unsupportedOperation
  | truncatedStream
  | ioFailure
  | decodeError
deriving DecidableEq, Repr

/-- What the core answers to a command (R71): `status` and `data`. -/
structure Response where
  status : Status
  data : Nat
deriving DecidableEq, Repr

/-- The error kinds a command can raise (R160, R162). -/
inductive ErrorKind where
  | invalidArgument
  | unsupportedOperation
  | truncatedStream
  | ioFailure (e : Nat)
  | decodeError
deriving DecidableEq, Repr

/-- One transfer on a port of the core (R82), as the model's `trace` records it (log 7). -/
inductive Event where
  /-- The core accepted a command word. -/
  | command (w : Nat)
  /-- The core asked the source for a byte. -/
  | fetchRequest
  /-- The source answered the outstanding request. -/
  | fetchAnswer (ans : Answer)
  /-- The core read the node word at an index. -/
  | treeRead (i : Nat)
  /-- The core stored a byte at an address of BUF. -/
  | store (addr : Nat) (v : Byte)
  /-- The core answered the command. -/
  | respond (r : Response)
  /-- A reset was taken; `abandoned` when a command was in progress. -/
  | reset (abandoned : Bool)
deriving DecidableEq, Repr

end Sys2Proof
end

