-- ==== Sys2Proof/WellFormed.lean ====
section
/-! DEFINITION. When the data of Syntax.lean and Config.lean fits the widths the spec gives it. -/

namespace Sys2Proof

/-- The bounds R6 puts on the parameters. -/
abbrev Params.wf (p : Params) : Prop :=
  4 ≤ p.iw ∧ 1 ≤ p.aw ∧ 1 ≤ p.iow ∧ p.bufSize ≤ 2 ^ p.aw

/-- The operand fields `a` and `b` of a command (R66). -/
def Instr.operands : Instr → Nat × Nat
  | .openStream a b => (a, b)
  | .closeStream a b => (a, b)
  | .readByte a b => (a, b)
  | .read offset count => (offset, count)
  | .canRead a b => (a, b)
  | .canWrite a b => (a, b)
  | .canSeek a b => (a, b)
  | .flush a b => (a, b)
  | .getLength a b => (a, b)
  | .getPosition a b => (a, b)
  | .setPosition a b => (a, b)
  | .seek a b => (a, b)
  | .setLength a b => (a, b)
  | .write a b => (a, b)

/-- A command fits its word when both operands have `AW` bits (R66, R68). -/
abbrev Instr.wf (aw : Nat) (i : Instr) : Prop :=
  i.operands.1 < 2 ^ aw ∧ i.operands.2 < 2 ^ aw

/-- A node fits its word when its child indices have `IW` bits (R76); a symbol always fits, since `IW ≥ 4`. -/
def Node.wf (iw : Nat) : Node → Bool
  | .leaf _ => true
  | .internal c0 c1 => decide (c0 < 2 ^ iw) && decide (c1 < 2 ^ iw)

/-- A source answer fits its word when a failure code has `IOW` bits (R42, R74). -/
def Answer.wf (iow : Nat) : Answer → Bool
  | .byte _ => true
  | .atEnd => true
  | .fail e => decide (e < 2 ^ iow)

/-- A response fits its word when its data has `DW` bits (R71). -/
abbrev Response.wf (p : Params) (r : Response) : Prop := r.data < 2 ^ p.dw

/-- An arena is legal when it has between 1 and `2^IW` node words (R6), each of `1 + 2*IW` bits (R76). -/
abbrev arenaWF (iw : Nat) (tree : List Nat) : Prop :=
  1 ≤ tree.length ∧ tree.length ≤ 2 ^ iw ∧ ∀ w ∈ tree, w < 2 ^ (1 + 2 * iw)

end Sys2Proof
end

