-- ==== Sys2Proof/Decode.lean ====
section
/-! DEFINITION. The five encodings (R65): command words, source answer words, node words and response words, each with
its decoder and its encoder, and the order of the bits inside a source byte. Words of a width that a parameter sets are
natural numbers (log 12); bit 0 is the least significant. -/

namespace Sys2Proof

/-! ### Command words (R66 to R70) -/

/-- Why a command word has no instruction: its operation code is reserved (R69). -/
inductive Reject where
  | reservedOp (op : Byte)
deriving DecidableEq, Repr

/-- `op = CMD[7:0]` (R66). -/
def opField (w : Nat) : Nat := w % 2 ^ 8

/-- `a = CMD[8+AW-1 : 8]` (R66). -/
def aField (aw w : Nat) : Nat := w / 2 ^ 8 % 2 ^ aw

/-- `b = CMD[8+2*AW-1 : 8+AW]` (R66). -/
def bField (aw w : Nat) : Nat := w / 2 ^ 8 / 2 ^ aw % 2 ^ aw

/-- The command an operation code stands for (R67); `none` on the reserved codes 0x07 and 0x0F to 0xFF (R69). -/
def instrOfOp (op a b : Nat) : Option Instr :=
  match op with
  | 0x00 => some (.openStream a b)
  | 0x01 => some (.closeStream a b)
  | 0x02 => some (.readByte a b)
  | 0x03 => some (.read a b)
  | 0x04 => some (.canRead a b)
  | 0x05 => some (.canWrite a b)
  | 0x06 => some (.canSeek a b)
  | 0x08 => some (.flush a b)
  | 0x09 => some (.getLength a b)
  | 0x0A => some (.getPosition a b)
  | 0x0B => some (.setPosition a b)
  | 0x0C => some (.seek a b)
  | 0x0D => some (.setLength a b)
  | 0x0E => some (.write a b)
  | _ => none

/-- Decoding of a command word (R66, R67): total, a reserved code rejected by name (R69). -/
def decode (aw w : Nat) : Except Reject Instr :=
  match instrOfOp (opField w) (aField aw w) (bField aw w) with
  | some i => .ok i
  | none => .error (.reservedOp (BitVec.ofNat 8 w))

/-- The operation code of a command (R67). -/
def Instr.opcode : Instr → Nat
  | .openStream _ _ => 0x00
  | .closeStream _ _ => 0x01
  | .readByte _ _ => 0x02
  | .read _ _ => 0x03
  | .canRead _ _ => 0x04
  | .canWrite _ _ => 0x05
  | .canSeek _ _ => 0x06
  | .flush _ _ => 0x08
  | .getLength _ _ => 0x09
  | .getPosition _ _ => 0x0A
  | .setPosition _ _ => 0x0B
  | .seek _ _ => 0x0C
  | .setLength _ _ => 0x0D
  | .write _ _ => 0x0E

/-- The command word whose fields are `op`, `a` and `b`: `{b, a, op}` (R66, R11). -/
def commandWord (aw op a b : Nat) : Nat := op + 2 ^ 8 * (a + 2 ^ aw * b)

/-- The word of a command. -/
def encode (aw : Nat) (i : Instr) : Nat := commandWord aw i.opcode i.operands.1 i.operands.2

/-- What the decoder reads from an instruction of the opcode table, for the instance `Config.params`: `nbits` bits of
`w`, every bit above them 0. -/
def decodeTableWord (nbits w : Nat) : Option Instr :=
  match decode Config.params.aw (w % 2 ^ nbits) with
  | .ok i => some i
  | .error _ => none

/-! ### Source answer words (R74, R75) -/

/-- The answer an answer word of `2 + PW` bits stands for (R74); `none` for the reserved kind 3 (R75).
A `Byte` takes `payload[7:0]`, a `Fail` takes `payload[IOW-1:0]`, an `End` nothing (U19). -/
def decodeAnswer (iow w : Nat) : Option Answer :=
  match w % 2 ^ 2 with
  | 0 => some (.byte (BitVec.ofNat 8 (w / 2 ^ 2)))
  | 1 => some .atEnd
  | 2 => some (.fail (w / 2 ^ 2 % 2 ^ iow))
  | _ => none

/-- The answer word of an answer, ignored bits 0 (R74). -/
def encodeAnswer : Answer → Nat
  | .byte b => 0 + 2 ^ 2 * b.toNat
  | .atEnd => 1
  | .fail e => 2 + 2 ^ 2 * e

/-! ### Node words (R76) -/

/-- The node a node word of `1 + 2*IW` bits stands for (R76): `leaf = W[2*IW]`, `sym = W[7:0]`, `c0 = W[IW-1:0]`,
`c1 = W[2*IW-1:IW]`. The bits a leaf does not use are ignored. -/
def decodeNode (iw w : Nat) : Node :=
  if w / 2 ^ (2 * iw) % 2 = 1 then .leaf (BitVec.ofNat 8 w)
  else .internal (w % 2 ^ iw) (w / 2 ^ iw % 2 ^ iw)

/-- The node word the builder writes (R76), unused bits of a leaf 0. -/
def encodeNode (iw : Nat) : Node → Nat
  | .leaf sym => 2 ^ (2 * iw) + sym.toNat
  | .internal c0 c1 => c0 + 2 ^ iw * c1

/-! ### Response words (R71, R72) -/

/-- The status code of R72. -/
def Status.code : Status → Nat
  | .ok => 0x0
  | .endOfStream => 0x1
  | .invalidArgument => 0x2
  | .unsupportedOperation => 0x3
  | .truncatedStream => 0x4
  | .ioFailure => 0x5
  | .decodeError => 0x6

/-- The status a code stands for (R72); `none` for the codes that are never produced. -/
def Status.ofCode (n : Nat) : Option Status :=
  match n with
  | 0x0 => some .ok
  | 0x1 => some .endOfStream
  | 0x2 => some .invalidArgument
  | 0x3 => some .unsupportedOperation
  | 0x4 => some .truncatedStream
  | 0x5 => some .ioFailure
  | 0x6 => some .decodeError
  | _ => none

/-- The response word `RSP`: `status` in bits 3:0, `data` above (R71). -/
def Response.word (r : Response) : Nat := r.status.code + 2 ^ 4 * r.data

/-- What a host reads from a response word (R71). -/
def decodeResponse (w : Nat) : Option Response :=
  match Status.ofCode (w % 2 ^ 4) with
  | some st => some ⟨st, w / 2 ^ 4⟩
  | none => none

/-! ### Bits of a source byte (R48) -/

/-- `BitOf(c, k)` (R48): the bit at delivery position `k` of the byte `c`. -/
def bitOf (msbFirst : Bool) (c : Byte) (k : Fin 8) : Bool :=
  if msbFirst then c.getLsbD (7 - k.val) else c.getLsbD k.val

/-- The eight bits of a byte in delivery order (R48, R49). -/
def byteBits (msbFirst : Bool) (c : Byte) : List Bool := (List.finRange 8).map (bitOf msbFirst c)

end Sys2Proof
end

