-- ==== Sys2Proof/Machine/State.lean ====
section
/-! DEFINITION. The machine's state as plain data, the reasons a step can stop, and the state after reset. -/

namespace Sys2Proof.Machine

/-- `sess`: whether a decode session exists (R28). -/
inductive Session where
  | closed
  | opened
deriving DecidableEq, Repr

/-- A command that has begun and not responded. A READ keeps its operands and its counter `n` (R135). -/
inductive Pending where
  | readByte
  | read (offset count n : Nat)
deriving DecidableEq, Repr

/-- What the core is doing between two steps (R180). -/
inductive Activity where
  /-- Waiting for a command. -/
  | idle
  /-- Inside a command, with no fetch outstanding. -/
  | running (c : Pending)
  /-- Inside a command, with a fetch request outstanding that the source has not answered (R8). -/
  | blocked (c : Pending)
deriving DecidableEq, Repr

/-- Accesses to a place the spec says does not exist (log 15). The invariant of Safety.lean rules both out. -/
inductive Fault where
  /-- Raised by a tree read `T[i]` with `i >= NODES` (R45: "never presented to the memory"). Safe: the machine stops. -/
  | treeIndexAbsent (i : Nat)
  /-- Raised by a buffer store at an address `>= BUF_SIZE` (R47). Safe: the machine stops. -/
  | bufAddressAbsent (addr : Nat)
deriving DecidableEq, Repr

/-- Situations the spec gives no meaning (R11 "refused"). All are safe: nothing can be proved of what follows. -/
inductive Refusal where
  /-- Raised by an arm of exec for an instruction without a meaning; no arm is left so. Safe. -/
  | notModelled (mnemonic : String)
  /-- Raised by READ_BYTE, READ and CLOSE while CLOSED and by OPEN while OPEN (R133, U8); names the `sess` it was. Safe. -/
  | wrongSession (was : Session)
  /-- Raised by READ when `offset + count > BUF_SIZE` (R135, U10). Safe. -/
  | bufferTooSmall
  /-- Raised by a fetch whose answer word has the reserved kind 3 (R75, U11). Safe. -/
  | reservedAnswer
  /-- Raised by SYMBOL and VALUE on an internal node (R103, R118, U13); no command invokes them so. Safe. -/
  | notALeaf
  /-- Raised by the input event that loads a tree while a session is open (R46, U6). Safe. -/
  | treeWriteInSession
deriving DecidableEq, Repr

/-- The state: the core's elements (R20), the core's activity (R180), what stands at its ports, and the model's own
records. INVENTORY.md lists every field with its rule. -/
structure State where
  /-- The current byte (R21). -/
  cur : Byte
  /-- How many bits of `cur` have been delivered, modulo 8 (R22). -/
  bitpos : Fin 8
  /-- How many bits the BitReader has delivered in this session (R23). -/
  bitcnt : Nat
  /-- The index of the current node (R24). -/
  node : Nat
  /-- How many bits the decoder has consumed for this symbol (R26). -/
  symbits : Nat
  /-- Whether a session exists (R28). -/
  sess : Session
  /-- Idle, running or blocked (R180). -/
  activity : Activity
  /-- Input: a byte source is attached (R30). -/
  srcPresent : Bool
  /-- Input: a tree is loaded and published (R30). -/
  treePresent : Bool
  /-- Input: a reset is requested (R82, R185). -/
  rst : Bool
  /-- The command words the host presents, the next one first (R66, R82). -/
  cmds : List Nat
  /-- The answer words the source will give, the next one first (R42, R74); empty: silent so far. -/
  answers : List Nat
  /-- The source's read cursor: bytes it has handed to the core (R33). -/
  srcCursor : Nat
  /-- The tree memory: node word `i` at position `i`; its length is `NODES` (R44). -/
  tree : List Nat
  /-- The caller's buffer: the bytes written so far, in the canonical form `Memory.wf` (R47). -/
  buf : List Host.Cell
  /-- The parameters of the instance (R6). -/
  cfg : Params
  /-- The model's own: the transfers so far, the oldest first (R9, R54; log 7). -/
  trace : List Event
  /-- The model's own: an error response was given in this session (R181; log 8). -/
  errored : Bool
  /-- The model's own: `srcCursor` when the session was opened (R23, R33; log 10). -/
  srcBase : Nat
  /-- The model's own: how many free values have been drawn (log 3). -/
  draws : Nat
deriving DecidableEq, Repr

/-- The machine right after reset (R34, R185). `cur` and `node` are unspecified: free values (log 2). Nothing is
attached, loaded, presented or written yet (log 9, 10, 11). -/
def State.reset : State where
  cur := Config.unspecifiedCur 0
  bitpos := 0
  bitcnt := 0
  node := Config.unspecifiedNode 0 % 2 ^ Config.params.iw
  symbits := 0
  sess := .closed
  activity := .idle
  srcPresent := false
  treePresent := false
  rst := false
  cmds := []
  answers := []
  srcCursor := 0
  tree := []
  buf := []
  cfg := Config.params
  trace := []
  errored := false
  srcBase := 0
  draws := 1

end Sys2Proof.Machine
end

