-- ==== Sys2Proof/Machine/Flags.lean ====
section
/-! DEFINITION. The hardwired capability flags (R29), the derived state of the decoder (R25), and which statuses are
errors (R72). The core has no other flag. -/

namespace Sys2Proof.Machine

/-- `can_read`, hardwired 1 (R29). -/
def State.canReadFlag (_s : State) : Bool := true

/-- `can_write`, hardwired 0 (R29). -/
def State.canWriteFlag (_s : State) : Bool := false

/-- `can_seek`, hardwired 0 (R29). -/
def State.canSeekFlag (_s : State) : Bool := false

/-- Whether a status is an error: `0x2` to `0x6` (R72, R181). -/
def isError : Status → Bool
  | .ok => false
  | .endOfStream => false
  | .invalidArgument => true
  | .unsupportedOperation => true
  | .truncatedStream => true
  | .ioFailure => true
  | .decodeError => true

/-- `NODES`: the number of node words in the tree memory (R6, R44). -/
def State.nodes (s : State) : Nat := s.tree.length

/-- The node at an index of the arena, without a port access; `none` where `T[i]` is not defined (R45). -/
def State.nodeAt (s : State) (i : Nat) : Option Node := (s.tree[i]?).map (decodeNode s.cfg.iw)

/-- The two states of the decoder (R25, R119). -/
inductive DecoderState where
  | traversing
  | resolved
deriving DecidableEq, Repr

/-- The decoder's state, a function of `node` and TREE (R25); `none` where `node` is no index of the arena (log 15). -/
def State.decoderState (s : State) : Option DecoderState :=
  (s.nodeAt s.node).map fun
    | .leaf _ => .resolved
    | .internal _ _ => .traversing

end Sys2Proof.Machine
end

