-- ==== Sys2Proof/Machine/Operands.lean ====
section
/-! DEFINITION. Operand forms and response forms: how READ gets `offset` and `count` (R68), where a READ stores (R135,
R153), and what each outcome puts in the response (R73, R162). -/

namespace Sys2Proof.Machine

/-- READ's precondition `offset + count <= BUF_SIZE` (R135). -/
abbrev fitsBuffer (bufSize offset count : Nat) : Prop := offset + count ≤ bufSize

/-- The effective address of symbol `n` of a READ: `offset + n`, without wrap (R10, R153). -/
def storeAddress (offset n : Nat) : Nat := offset + n

/-- `OK(v)`: a normal result with data (R73). -/
def okResponse (data : Nat) : Response := ⟨.ok, data⟩

/-- A flag in `data[0]` (R73). -/
def flagResponse (flag : Bool) : Response := okResponse flag.toNat

/-- A decoded byte in `data[7:0]`, zero-extended (R73). -/
def byteResponse (v : Byte) : Response := okResponse v.toNat

/-- `END_OF_STREAM`: a sentinel with data 0 (R73, R166). -/
def endOfStreamResponse : Response := ⟨.endOfStream, 0⟩

/-- The response of an error kind: its status code, and data 0 or the source's code verbatim (R161, R162). -/
def errorResponse : ErrorKind → Response
  | .invalidArgument => ⟨.invalidArgument, 0⟩
  | .unsupportedOperation => ⟨.unsupportedOperation, 0⟩
  | .truncatedStream => ⟨.truncatedStream, 0⟩
  | .ioFailure e => ⟨.ioFailure, e⟩
  | .decodeError => ⟨.decodeError, 0⟩

end Sys2Proof.Machine
end

