-- ==== Sys2Proof/Machine/Ops.lean ====
section
/-! DEFINITION. The named operations every command is made of: the results of an operation, the buffer memory, the
accesses to the three spaces (R40), the response and the raising of an error (R161), reset (R185), and the acceptance of
a command (R130). -/

namespace Sys2Proof.Machine

/-! ### Results -/

/-- What an operation gives: a result with the state it leaves, or a stop. -/
inductive Result (α : Type) where
  | ok (a : α) (s : State)
  | fault (r : Fault)
  | refused (r : Refusal)
deriving DecidableEq, Repr

/-- Run an operation, then another on its result. -/
def Result.andThen {α β : Type} (x : Result α) (k : α → State → Result β) : Result β :=
  match x with
  | .ok a s => k a s
  | .fault r => .fault r
  | .refused r => .refused r

/-- Run an operation, then end the step. -/
def Result.finish {α : Type} (x : Result α) (k : α → State → Host.Outcome State Fault Refusal) :
    Host.Outcome State Fault Refusal :=
  match x with
  | .ok a s => k a s
  | .fault r => .fault r
  | .refused r => .refused r

/-! ### The trace -/

/-- Append a transfer to the trace (log 7). -/
def State.log (s : State) (e : Event) : State := { s with trace := s.trace ++ [e] }

/-! ### The caller's buffer (R47) -/

/-- The byte at an address; `none` where nothing has been written (log 11). -/
def Memory.read (m : List Host.Cell) (a : Nat) : Option Byte :=
  match m with
  | [] => none
  | (b, v) :: rest => if a = b then some v else Memory.read rest a

/-- Write a byte, keeping the addresses strictly rising. -/
def Memory.write (m : List Host.Cell) (a : Nat) (v : Byte) : List Host.Cell :=
  match m with
  | [] => [(a, v)]
  | (b, w) :: rest =>
    if a < b then (a, v) :: (b, w) :: rest
    else if a = b then (a, v) :: rest
    else (b, w) :: Memory.write rest a v

/-- The canonical form: addresses strictly rising. An unlisted byte reads as no value, so every entry differs from it. -/
abbrev Memory.wf (m : List Host.Cell) : Prop := m.Pairwise fun x y => x.1 < y.1

/-- `BUF[a] <- v` (R47): one byte, one transfer. -/
def storeBuf (addr : Nat) (v : Byte) (s : State) : Result Unit :=
  if addr < s.cfg.bufSize then .ok () ({ s with buf := Memory.write s.buf addr v }.log (.store addr v))
  else .fault (.bufAddressAbsent addr)

/-! ### The tree memory (R45) -/

/-- `T[i]`: one node word, no other effect (R45, R51). -/
def readTree (i : Nat) (s : State) : Result Node :=
  match s.nodeAt i with
  | some n => .ok n (s.log (.treeRead i))
  | none => .fault (.treeIndexAbsent i)

/-! ### The byte source (R42) -/

/-- The source's answer to the outstanding request: `none` while it is silent, otherwise the next answer, which only a
`Byte` moves the cursor for (R42, log 10). -/
def takeAnswer (s : State) : Result (Option Answer) :=
  match s.answers with
  | [] => .ok none s
  | w :: rest =>
    match decodeAnswer s.cfg.iow w with
    | none => .refused .reservedAnswer
    | some (.byte b) =>
      .ok (some (.byte b)) ({ s with answers := rest, srcCursor := s.srcCursor + 1 }.log (.fetchAnswer (.byte b)))
    | some ans => .ok (some ans) ({ s with answers := rest }.log (.fetchAnswer ans))

/-! ### Responses and errors (R71, R161) -/

/-- `respond X` (R11): the command ends with one response and the core is idle; the model records an error (R181). -/
def respond (r : Response) (s : State) : State :=
  { s with activity := .idle, errored := s.errored || isError r.status }.log (.respond r)

/-- `raise K` (R161): the response of the error kind, and nothing else: nothing is saved and nothing is undone. There
is no handler to return from (R171). -/
def raise (k : ErrorKind) (s : State) : State := respond (errorResponse k) s

/-- A command that waits for the source keeps its place (R8). -/
def suspend (a : Activity) (s : State) : State := { s with activity := a }

/-! ### Commands and reset (R130, R185) -/

/-- The core takes the next command word from its port (R130). -/
def acceptCommand (w : Nat) (rest : List Nat) (s : State) : State := { s with cmds := rest }.log (.command w)

/-- A reserved operation code: UnsupportedOperation and no other effect, in any `sess` (R147). -/
def execReserved (s : State) : State := raise .unsupportedOperation s

/-- Whether a command is in progress. -/
def State.busy (s : State) : Bool := decide (s.activity ≠ .idle)

/-- What a reset does to the source's side: an answer to a fetch that was outstanding may or may not have been taken
(R185, U18), as the free value says (log 3). DESIGN CHOICE (log 3): an answer of the reserved kind 3 that is taken so is
dropped like any other and not refused, since the abandoned command does not decode it; the spec does not say whether
the refusal of R75 or the reset of R185 governs. -/
def abortFetch (s : State) : State :=
  match s.activity, s.answers with
  | .blocked _, w :: rest =>
    if Config.abortedFetchTakes s.draws then
      match decodeAnswer s.cfg.iow w with
      | some (.byte _) => { s with answers := rest, srcCursor := s.srcCursor + 1 }
      | _ => { s with answers := rest }
    else s
  | _, _ => s

/-- A reset (R185): every element at its value of R34, `cur` and `node` without one (free values, log 2), a command in
progress abandoned without a response, and the source, TREE and BUF untouched but for an outstanding fetch. -/
def takeReset (s : State) : State :=
  let t := abortFetch s
  { t with
    cur := Config.unspecifiedCur s.draws
    bitpos := 0
    bitcnt := 0
    node := Config.unspecifiedNode s.draws % 2 ^ s.cfg.iw
    symbits := 0
    sess := .closed
    activity := .idle
    rst := false
    srcBase := t.srcCursor
    draws := s.draws + 1 }.log (.reset s.busy)

end Sys2Proof.Machine
end

