-- ==== Sys2Proof/Machine/Capability.lean ====
section
/-! DEFINITION. The capability flags' commands (R136 to R138): the same answer in any `sess`, no other effect. -/

namespace Sys2Proof.Machine

/-- CAN_READ (R136). -/
def execCanRead (_a _b : Nat) (s : State) : Host.Outcome State Fault Refusal :=
  .next (respond (flagResponse s.canReadFlag) s)

/-- CAN_WRITE (R137). -/
def execCanWrite (_a _b : Nat) (s : State) : Host.Outcome State Fault Refusal :=
  .next (respond (flagResponse s.canWriteFlag) s)

/-- CAN_SEEK (R138). -/
def execCanSeek (_a _b : Nat) (s : State) : Host.Outcome State Fault Refusal :=
  .next (respond (flagResponse s.canSeekFlag) s)

end Sys2Proof.Machine
end

