-- ==== Sys2Proof/Machine/BitReader.lean ====
section
/-! DEFINITION. BitReader (40_bitreader.md): NEXTBIT, and the bits a session can still deliver. -/

namespace Sys2Proof.Machine

/-- What NEXTBIT answers (R90); `blocked` while the source has not answered its request (R8). -/
inductive BitResult where
  | bit (b : Bool)
  | endOfInput
  | ioFailure (e : Nat)
  | blocked
deriving DecidableEq, Repr

/-- Whether the bit limit is reached (R95). -/
def State.limitReached (s : State) : Bool := decide (s.cfg.bitLimit = some s.bitcnt)

/-- Deliver the bit at position `bitpos` of `cur` (R90, the last four lines). -/
def deliverBit (s : State) : Result BitResult :=
  .ok (.bit (bitOf s.cfg.msbFirst s.cur s.bitpos)) { s with bitpos := s.bitpos + 1, bitcnt := s.bitcnt + 1 }

/-- NEXTBIT from the moment its fetch request stands: wait for the answer, then go on (R90, R93). -/
def awaitBit (s : State) : Result BitResult :=
  (takeAnswer s).andThen fun ans s1 =>
    match ans with
    | none => .ok .blocked s1
    | some (.byte b) => deliverBit { s1 with cur := b }
    | some .atEnd => .ok .endOfInput s1
    | some (.fail e) => .ok (.ioFailure e) s1

/-- NEXTBIT (R90): the bit limit first (R95), a fetch only when the current byte is exhausted (R92). -/
def nextBit (s : State) : Result BitResult :=
  if s.limitReached then .ok .endOfInput s
  else if s.bitpos = 0 then awaitBit (s.log .fetchRequest)
  else deliverBit s

/-! ### The bits a session can still deliver (R91, R95) -/

/-- The bytes the source gives before it first gives something else. -/
def leadingBytes (iow : Nat) (answers : List Nat) : List Byte :=
  match answers with
  | [] => []
  | w :: rest =>
    match decodeAnswer iow w with
    | some (.byte b) => b :: leadingBytes iow rest
    | _ => []

/-- What the source gives after those bytes. -/
def afterBytes (iow : Nat) (answers : List Nat) : List Nat :=
  match answers with
  | [] => []
  | w :: rest =>
    match decodeAnswer iow w with
    | some (.byte _) => afterBytes iow rest
    | _ => w :: rest

/-- The bits of `cur` not yet delivered (R22, R33). -/
def State.bitsInHand (s : State) : List Bool :=
  if s.bitpos = 0 then [] else (byteBits s.cfg.msbFirst s.cur).drop s.bitpos.val

/-- The bits of the current byte and of the source's next bytes, in delivery order (R91). -/
def State.rawBits (s : State) : List Bool :=
  s.bitsInHand ++ (leadingBytes s.cfg.iow s.answers).flatMap (byteBits s.cfg.msbFirst)

/-- The bits NEXTBIT will deliver before it first answers anything else: the raw bits, cut at the bit limit (R91, R95). -/
def State.deliverable (s : State) : List Bool :=
  match s.cfg.bitLimit with
  | none => s.rawBits
  | some n => s.rawBits.take (n - s.bitcnt)

/-- What ends the deliverable bits. -/
inductive BitsEnd where
  /-- The bit limit, without a fetch (R95). -/
  | limit
  /-- The source's `End`. -/
  | sourceEnd
  /-- The source's `Fail(e)`. -/
  | sourceFail (e : Nat)
  /-- The source is silent. -/
  | silence
  /-- The source's reserved answer. -/
  | reserved
deriving DecidableEq, Repr

/-- What the source's next answer makes of NEXTBIT, when it is no byte. -/
def endOfAnswers (iow : Nat) (answers : List Nat) : BitsEnd :=
  match answers with
  | [] => .silence
  | w :: _ =>
    match decodeAnswer iow w with
    | some .atEnd => .sourceEnd
    | some (.fail e) => .sourceFail e
    | some (.byte _) => .silence
    | none => .reserved

/-- What NEXTBIT meets after the deliverable bits. -/
def State.bitsEnd (s : State) : BitsEnd :=
  if s.cfg.bitLimit = some (s.bitcnt + s.deliverable.length) then .limit
  else endOfAnswers s.cfg.iow (afterBytes s.cfg.iow s.answers)

end Sys2Proof.Machine
end

