-- ==== Sys2Proof/Machine/Tree.lean ====
section
/-! DEFINITION. PrefixTree (41_prefixtree.md): the four primitives, and the arena as the abstract tree it represents. -/

namespace Sys2Proof.Machine

/-- ROOT (R100): index 0. -/
def root : Nat := 0

/-- What CHILD answers for a node (R101): the child's index for the bit, or `none` for NoChild, on a leaf and on an
absent child, whose index is not below `NODES` (R77). -/
def childIndex (nodes : Nat) (bit : Bool) (n : Node) : Option Nat :=
  match n with
  | .leaf _ => none
  | .internal c0 c1 => if (if bit then c1 else c0) < nodes then some (if bit then c1 else c0) else none

/-- CHILD (R101): one node read. -/
def child (i : Nat) (bit : Bool) (s : State) : Result (Option Nat) :=
  (readTree i s).andThen fun n s1 => .ok (childIndex s1.nodes bit n) s1

/-- What ISLEAF answers for a node (R102). -/
def isLeafNode : Node → Bool
  | .leaf _ => true
  | .internal _ _ => false

/-- ISLEAF (R102): one node read. -/
def isLeaf (i : Nat) (s : State) : Result Bool :=
  (readTree i s).andThen fun n s1 => .ok (isLeafNode n) s1

/-- SYMBOL (R103), refused on an internal node (U13). -/
def symbol (i : Nat) (s : State) : Result Byte :=
  (readTree i s).andThen fun n s1 =>
    match n with
    | .leaf v => .ok v s1
    | .internal _ _ => .refused .notALeaf

/-! ### The arena as a tree (R104, R105) -/

/-- The index that `bits` lead to from index `i`, each bit through a populated child of an internal node (R101). -/
def State.walk (s : State) (i : Nat) (bits : List Bool) : Option Nat :=
  match bits with
  | [] => some i
  | b :: rest => ((s.nodeAt i).bind (childIndex s.nodes b)).bind fun c => s.walk c rest

/-- The abstract tree at an index (R104), looking at most `fuel` levels deep; `none` where a child is absent or the
levels run out. -/
def State.treeAt (s : State) (fuel i : Nat) : Option Tree :=
  match fuel with
  | 0 => none
  | fuel + 1 =>
    match s.nodeAt i with
    | some (.leaf v) => some (.leaf v)
    | some (.internal c0 c1) =>
      match s.treeAt fuel c0, s.treeAt fuel c1 with
      | some t0, some t1 => some (.node t0 t1)
      | _, _ => none
    | none => none

/-- The indices reached from an index, a node before its children, a node once for each path to it, looking at most
`fuel` levels deep. -/
def State.reachAt (s : State) (fuel i : Nat) : List Nat :=
  match fuel with
  | 0 => []
  | fuel + 1 =>
    match s.nodeAt i with
    | some (.leaf _) => [i]
    | some (.internal c0 c1) => i :: (s.reachAt fuel c0 ++ s.reachAt fuel c1)
    | none => []

/-- The abstract PrefixTree the arena represents (R104). `NODES` levels are enough: without a cycle no path visits an
index twice. -/
def State.prefixTree (s : State) : Option Tree := s.treeAt s.nodes root

/-- `TreeWF` (R105): both children of every reachable internal node are populated and the unfolding is finite (clauses
1 and 3), and no index is reached by two paths (clause 2). -/
abbrev State.treeWF (s : State) : Prop :=
  s.prefixTree.isSome = true ∧ (s.reachAt s.nodes root).Nodup

/-- Whether the root is an internal node (R108 excludes the one-node tree from every claim about decoding). -/
def State.rootInternal (s : State) : Bool :=
  match s.nodeAt root with
  | some n => !isLeafNode n
  | none => false

/-- The indices that stand as a child in an internal node word, in the order of the arena. -/
def State.childrenOf (s : State) (i : Nat) : List Nat :=
  match s.nodeAt i with
  | some (.internal c0 c1) => [c0, c1]
  | _ => []

/-- An index that some bit path leads to from the root (R105). -/
def State.reachable (s : State) (i : Nat) : Prop := ∃ bits : List Bool, s.walk root bits = some i

/-- The check R105 offers a builder, over the nodes that are reachable from the root; the others are ignored (log 20).
The arena is not empty, as clause 1 of `TreeWF` asks. -/
structure State.builderCheck (s : State) : Prop where
  /-- `NODES >= 1`. -/
  notEmpty : 1 ≤ s.nodes
  /-- Every child index of a reachable internal node is in range and larger than its parent's. -/
  childrenLater : ∀ i, s.reachable i → ∀ c ∈ s.childrenOf i, i < c ∧ c < s.nodes
  /-- No index is a child of one reachable node twice. -/
  childrenDistinct : ∀ i, s.reachable i → (s.childrenOf i).Nodup
  /-- No index is a child of two reachable nodes. -/
  oneParent : ∀ i j, s.reachable i → s.reachable j → ∀ c ∈ s.childrenOf i, c ∈ s.childrenOf j → i = j

/-- The subtree that a bit path leads to. -/
def follow (t : Tree) (bits : List Bool) : Option Tree :=
  match bits, t with
  | [], t => some t
  | b :: rest, .node zero one => follow (if b then one else zero) rest
  | _ :: _, .leaf _ => none

/-- `code` is the code of a leaf that carries `v` (R13: the bit path from the root to the leaf). -/
abbrev IsCode (t : Tree) (code : List Bool) (v : Byte) : Prop := follow t code = some (.leaf v)

end Sys2Proof.Machine
end

