-- ==== Sys2Proof/Machine/Decoder.lean ====
section
/-! DEFINITION. IncrementalDecoder (42_incremental_decoder.md): DEC_RESET, PUSH, HASVALUE and VALUE. -/

namespace Sys2Proof.Machine

/-- How a PUSH ended (R116). -/
inductive Pushed where
  | moved
  | decodeError
deriving DecidableEq, Repr

/-- DEC_RESET (R115): the cursor at the root. -/
def decReset (s : State) : State := { s with node := root }

/-- PUSH (R116): to the child for the bit; a DecodeError, `node` unchanged, where CHILD answers NoChild. -/
def push (bit : Bool) (s : State) : Result Pushed :=
  (child s.node bit s).andThen fun c s1 =>
    match c with
    | none => .ok .decodeError s1
    | some c => .ok .moved { s1 with node := c }

/-- HASVALUE (R117). -/
def hasValue (s : State) : Result Bool := isLeaf s.node s

/-- VALUE (R118): the symbol of the current leaf; refused when the decoder is not Resolved (U13). -/
def value (s : State) : Result Byte := symbol s.node s

end Sys2Proof.Machine
end

