-- ==== Sys2Proof/Machine/Stream.lean ====
section
/-! DEFINITION. DecodeStream (43_decodestream.md): OPEN, CLOSE, READ_BYTE and READ. -/

namespace Sys2Proof.Machine

/-! ### The session (R131, R132) -/

/-- The state a successful OPEN leaves before it responds (R131, R34): fresh cursors, `cur` as it was, the source not
touched; the model begins a new fault record and marks the source's cursor (log 8, log 10). -/
def beginSession (s : State) : State :=
  decReset { s with bitpos := 0, bitcnt := 0, symbits := 0, sess := .opened, errored := false, srcBase := s.srcCursor }

/-- OPEN (R131). -/
def execOpenStream (_a _b : Nat) (s : State) : Host.Outcome State Fault Refusal :=
  match s.sess with
  | .opened => .refused (.wrongSession .opened)
  | .closed =>
    if s.srcPresent && s.treePresent then .next (respond (okResponse 0) (beginSession s))
    else .next (raise .invalidArgument s)

/-- CLOSE (R132). -/
def execCloseStream (_a _b : Nat) (s : State) : Host.Outcome State Fault Refusal :=
  match s.sess with
  | .closed => .refused (.wrongSession .closed)
  | .opened => .next (respond (okResponse 0) { s with sess := .closed })

/-! ### One symbol (R134) -/

/-- How the body of READ_BYTE ends. `blocked` and `running` are no ends: the command is not finished (R180, log 6). -/
inductive SymbolResult where
  | byte (v : Byte)
  | endOfStream
  | error (k : ErrorKind)
  | blocked
  | running
deriving DecidableEq, Repr

/-- What READ_BYTE does with a delivered bit (R134): PUSH, count it, and look whether a leaf is reached; `none` when
the loop goes on. -/
def pushBit (b : Bool) (s : State) : Result (Option SymbolResult) :=
  (push b s).andThen fun p s1 =>
    match p with
    | .decodeError => .ok (some (.error .decodeError)) s1
    | .moved =>
      (hasValue { s1 with symbits := s1.symbits + 1 }).andThen fun has s2 =>
        match has with
        | false => .ok none s2
        | true => (value s2).andThen fun v s3 => .ok (some (.byte v)) s3

/-- What READ_BYTE does with an answer of NEXTBIT (R134). -/
def symbolStep (r : BitResult) (s : State) : Result (Option SymbolResult) :=
  match r with
  | .bit b => pushBit b s
  | .endOfInput => .ok (some (if s.symbits = 0 then .endOfStream else .error .truncatedStream)) s
  | .ioFailure e => .ok (some (.error (.ioFailure e))) s
  | .blocked => .ok (some .blocked) s

/-- The loop of READ_BYTE (R134), at most `fuel` times round; if that is not enough the command is still running and
the next step goes on (log 6). -/
def symbolLoop (fuel : Nat) (s : State) : Result SymbolResult :=
  match fuel with
  | 0 => .ok .running s
  | fuel + 1 =>
    (nextBit s).andThen fun r s1 =>
      (symbolStep r s1).andThen fun e s2 =>
        match e with
        | some res => .ok res s2
        | none => symbolLoop fuel s2

/-- More rounds than the bits at hand and in the source's answers can need (log 6). -/
def symbolFuel (s : State) : Nat := 8 * s.answers.length + 9

/-- The body of READ_BYTE (R134), "ReadByteStep" of R135: a fresh decoder, then the loop. -/
def readByteStep (s : State) : Result SymbolResult :=
  symbolLoop (symbolFuel s) (decReset { s with symbits := 0 })

/-- The body of READ_BYTE taken up in the middle of its loop. -/
def continueSymbol (s : State) : Result SymbolResult := symbolLoop (symbolFuel s) s

/-- The body of READ_BYTE taken up where its fetch request is outstanding. -/
def resumeSymbol (s : State) : Result SymbolResult :=
  (awaitBit s).andThen fun r s1 =>
    (symbolStep r s1).andThen fun e s2 =>
      match e with
      | some res => .ok res s2
      | none => continueSymbol s2

/-! ### READ_BYTE (R134) -/

/-- How READ_BYTE answers its body's end (R134). -/
def finishByte (res : SymbolResult) (s : State) : Host.Outcome State Fault Refusal :=
  match res with
  | .byte v => .next (respond (byteResponse v) s)
  | .endOfStream => .next (respond endOfStreamResponse s)
  | .error k => .next (raise k s)
  | .blocked => .next (suspend (.blocked .readByte) s)
  | .running => .next (suspend (.running .readByte) s)

/-- READ_BYTE (R134). -/
def execReadByte (_a _b : Nat) (s : State) : Host.Outcome State Fault Refusal :=
  match s.sess with
  | .closed => .refused (.wrongSession .closed)
  | .opened => (readByteStep s).finish finishByte

/-! ### READ (R135) -/

/-- What READ does with the end of one step (R135): store a byte and go on (`none`), or end the command. -/
def bulkStep (offset count n : Nat) (res : SymbolResult) (s : State) :
    Result (Option (Host.Outcome State Fault Refusal)) :=
  match res with
  | .byte v => (storeBuf (storeAddress offset n) v s).andThen fun _ s1 => .ok none s1
  | .endOfStream => .ok (some (.next (respond (okResponse n) s))) s
  | .error k => .ok (some (.next (raise k s))) s
  | .blocked => .ok (some (.next (suspend (.blocked (.read offset count n)) s))) s
  | .running => .ok (some (.next (suspend (.running (.read offset count n)) s))) s

/-- The loop of READ (R135) with `left = count - n` symbols to go. -/
def bulkLoop (offset count left n : Nat) (s : State) : Host.Outcome State Fault Refusal :=
  match left with
  | 0 => .next (respond (okResponse n) s)
  | left + 1 =>
    (readByteStep s).finish fun res s1 =>
      (bulkStep offset count n res s1).finish fun e s2 =>
        match e with
        | some o => o
        | none => bulkLoop offset count left (n + 1) s2

/-- READ taken up in the middle of a symbol, `body` being the rest of that symbol. -/
def continueBulk (offset count n : Nat) (body : Result SymbolResult) : Host.Outcome State Fault Refusal :=
  body.finish fun res s1 =>
    (bulkStep offset count n res s1).finish fun e s2 =>
      match e with
      | some o => o
      | none => bulkLoop offset count (count - (n + 1)) (n + 1) s2

/-- READ (R135): in a session, and with a buffer that has room. -/
def execRead (offset count : Nat) (s : State) : Host.Outcome State Fault Refusal :=
  match s.sess with
  | .closed => .refused (.wrongSession .closed)
  | .opened =>
    if fitsBuffer s.cfg.bufSize offset count then bulkLoop offset count count 0 s
    else .refused .bufferTooSmall

/-! ### Going on with a command (R8, R180) -/

/-- A step of a command in progress with no fetch outstanding. -/
def continueCommand (c : Pending) (s : State) : Host.Outcome State Fault Refusal :=
  match c with
  | .readByte => (continueSymbol s).finish finishByte
  | .read offset count n => continueBulk offset count n (continueSymbol s)

/-- A step of a command whose fetch request is outstanding: it goes on when the source has answered, and otherwise the
state does not change (R8). -/
def resumeCommand (c : Pending) (s : State) : Host.Outcome State Fault Refusal :=
  match c with
  | .readByte => (resumeSymbol s).finish finishByte
  | .read offset count n => continueBulk offset count n (resumeSymbol s)

end Sys2Proof.Machine
end

