-- ==== Sys2Proof/Machine/Unsupported.lean ====
section
/-! DEFINITION. The seven unsupported commands (R139 to R146): UnsupportedOperation on every invocation, in any `sess`,
whatever the operand bits, with no access and no change of the core. Each has a definition of its own. -/

namespace Sys2Proof.Machine

/-- FLUSH (R140). -/
def execFlush (_a _b : Nat) (s : State) : Host.Outcome State Fault Refusal := .next (raise .unsupportedOperation s)

/-- GET_LENGTH (R141). -/
def execGetLength (_a _b : Nat) (s : State) : Host.Outcome State Fault Refusal := .next (raise .unsupportedOperation s)

/-- GET_POSITION (R142). -/
def execGetPosition (_a _b : Nat) (s : State) : Host.Outcome State Fault Refusal := .next (raise .unsupportedOperation s)

/-- SET_POSITION (R143). -/
def execSetPosition (_a _b : Nat) (s : State) : Host.Outcome State Fault Refusal := .next (raise .unsupportedOperation s)

/-- SEEK (R144). -/
def execSeek (_a _b : Nat) (s : State) : Host.Outcome State Fault Refusal := .next (raise .unsupportedOperation s)

/-- SET_LENGTH (R145). -/
def execSetLength (_a _b : Nat) (s : State) : Host.Outcome State Fault Refusal := .next (raise .unsupportedOperation s)

/-- WRITE (R146). -/
def execWrite (_a _b : Nat) (s : State) : Host.Outcome State Fault Refusal := .next (raise .unsupportedOperation s)

end Sys2Proof.Machine
end

