-- ==== Sys2Proof/Machine/Dispatch.lean ====
section
/-! DEFINITION. One arm for each command: the meaning it has. -/

namespace Sys2Proof.Machine

def exec (i : Instr) (s : State) : Host.Outcome State Fault Refusal :=
  match i with
  -- the session (R131, R132)
  | .openStream a b => Sys2Proof.Machine.execOpenStream a b s
  | .closeStream a b => Sys2Proof.Machine.execCloseStream a b s
  -- reading (R134, R135)
  | .readByte a b => Sys2Proof.Machine.execReadByte a b s
  | .read offset count => Sys2Proof.Machine.execRead offset count s
  -- the capability flags (R136 to R138)
  | .canRead a b => Sys2Proof.Machine.execCanRead a b s
  | .canWrite a b => Sys2Proof.Machine.execCanWrite a b s
  | .canSeek a b => Sys2Proof.Machine.execCanSeek a b s
  -- the unsupported commands (R140 to R146)
  | .flush a b => Sys2Proof.Machine.execFlush a b s
  | .getLength a b => Sys2Proof.Machine.execGetLength a b s
  | .getPosition a b => Sys2Proof.Machine.execGetPosition a b s
  | .setPosition a b => Sys2Proof.Machine.execSetPosition a b s
  | .seek a b => Sys2Proof.Machine.execSeek a b s
  | .setLength a b => Sys2Proof.Machine.execSetLength a b s
  | .write a b => Sys2Proof.Machine.execWrite a b s

end Sys2Proof.Machine
end

