-- ==== Sys2Proof/Machine/Step.lean ====
section
/-! DEFINITION. One step of the core, and where it finds its next command. -/

namespace Sys2Proof.Machine

/-- One step (R8, R130, R180): a requested reset comes first (R185); a command in progress goes on; an idle core takes
the next command word and runs it to its response, or waits when none is presented (R34). DESIGN CHOICE (log 22): a reset
strikes between two steps only, so inside a command only where it waits for the source; R185 does not say at which instants
of a command in progress it can strike. -/
def step (s : State) : Host.Outcome State Fault Refusal :=
  if s.rst then .next (takeReset s)
  else
    match s.activity with
    | .running c => continueCommand c s
    | .blocked c => resumeCommand c s
    | .idle =>
      match s.cmds with
      | [] => .next s
      | w :: rest =>
        match decode s.cfg.aw w with
        | .ok i => exec i (acceptCommand w rest s)
        | .error (.reservedOp _) => .next (execReserved (acceptCommand w rest s))

/-- The state in which the very next step takes the command word `w` (its bits above `nbits` 0) from the command port:
the word is presented first, the core is idle, and no reset is requested (log 4). -/
def State.withFetchWord (s : State) (nbits w : Nat) : State :=
  { s with cmds := (w % 2 ^ nbits) :: s.cmds, activity := .idle, rst := false }

end Sys2Proof.Machine
end

