-- ==== Sys2Proof/Machine/Env.lean ====
section
/-! DEFINITION. What the outside world can do to the machine between two steps (R7, R82), and the reference source (R43). -/

namespace Sys2Proof.Machine

/-- An input from outside. -/
inductive InputEvent where
  /-- The host presents a command word; it waits until the core is idle (R82, R190). -/
  | presentCommand (w : Nat)
  /-- The source decides on its next answer word (R42). -/
  | sourceAnswer (w : Nat)
  /-- The presence level of the source changes (R30). -/
  | setSrcPresent (level : Bool)
  /-- The presence level of the tree changes (R30). -/
  | setTreePresent (level : Bool)
  /-- The tree builder writes the arena (R44). -/
  | loadTree (words : List Nat)
  /-- A reset is requested (R185). -/
  | requestReset
deriving DecidableEq, Repr

/-- The effect of an input. A tree write in a session is refused (R46, U6); every other input is admitted at any time. -/
def applyInput (e : InputEvent) (s : State) : Host.Outcome State Fault Refusal :=
  match e with
  | .presentCommand w => .next { s with cmds := s.cmds ++ [w] }
  | .sourceAnswer w => .next { s with answers := s.answers ++ [w] }
  | .setSrcPresent level => .next { s with srcPresent := level }
  | .setTreePresent level => .next { s with treePresent := level }
  | .loadTree words =>
    match s.sess with
    | .opened => .refused .treeWriteInSession
    | .closed => .next { s with tree := words }
  | .requestReset => .next { s with rst := true }

/-- The reference source `ArraySource(d)` (R43), asked `ends` times after its last byte: the bytes of `d`, then `End`. -/
def arraySource (d : List Byte) (ends : Nat) : List Nat :=
  d.map (fun b => encodeAnswer (.byte b)) ++ List.replicate ends (encodeAnswer .atEnd)

end Sys2Proof.Machine
end

