-- ==== Sys2Proof/Safety.lean ====
section
/-! DEFINITION. What claims are stated in: the invariant of a run, what a host and a source must do, the views of the
trace, and the encoder's side of a round trip. -/

namespace Sys2Proof.Machine

/-! ### The invariant -/

/-- What holds in every state a run reaches. `params`, `published` and the widths are what the instance and the tree
builder promise (R6, R44, R186); the rest the core keeps (R35). -/
structure State.Inv (s : State) : Prop where
  /-- The parameters are within the bounds of R6. -/
  params : s.cfg.wf
  /-- `node` has `IW` bits (R20). -/
  nodeWidth : s.node < 2 ^ s.cfg.iw
  /-- `bitcnt mod 8 = bitpos` (R23, R35). -/
  bitposCount : s.bitcnt % 8 = s.bitpos.val
  /-- The bit limit is not passed (R35). -/
  limit : ∀ n, s.cfg.bitLimit = some n → s.bitcnt ≤ n
  /-- The session has taken `ceil(bitcnt / 8)` bytes (R23, R33). -/
  cursor : s.srcCursor = s.srcBase + (s.bitcnt + 7) / 8
  /-- A published arena is legal (R44, R186). -/
  published : s.treePresent = true → arenaWF s.cfg.iw s.tree
  /-- A session has a legal arena, which no step changes (R46). -/
  sessionTree : s.sess = .opened → arenaWF s.cfg.iw s.tree
  /-- In a session `node` is an index of the arena (R35). -/
  sessionNode : s.sess = .opened → s.node < s.nodes
  /-- In a session a symbol without a pushed bit stands at the root (R35, R36). -/
  freshSymbol : s.sess = .opened → s.symbits = 0 → s.node = root
  /-- A command in progress has a session (R130). -/
  busySession : s.activity ≠ .idle → s.sess = .opened
  /-- A fetch is outstanding only at a byte boundary with the limit not reached (R90). -/
  blockedAtByte : ∀ c, s.activity = .blocked c → s.bitpos = 0 ∧ s.limitReached = false
  /-- A READ in progress has symbols to go and room for them (R135). -/
  pendingRead : ∀ offset count n,
    s.activity = .running (.read offset count n) ∨ s.activity = .blocked (.read offset count n) →
      n < count ∧ count < 2 ^ s.cfg.aw ∧ offset + count ≤ s.cfg.bufSize
  /-- The buffer is in its canonical form (log 11). -/
  bufForm : Memory.wf s.buf
  /-- No byte was written outside the buffer (R47). -/
  bufRange : ∀ x ∈ s.buf, x.1 < s.cfg.bufSize

/-! ### What a host and a source must do -/

/-- The source never answers the reserved kind 3 (R75). -/
def sourceLawful (s : State) : Prop := ∀ w ∈ s.answers, w % 2 ^ 2 ≠ 3

/-- A command may be issued in a state: the right `sess` (R130, R133), and room in the buffer (R135). -/
def commandLawful (i : Instr) (s : State) : Prop :=
  match i with
  | .openStream _ _ => s.sess = .closed
  | .closeStream _ _ => s.sess = .opened
  | .readByte _ _ => s.sess = .opened
  | .read offset count => s.sess = .opened ∧ offset + count ≤ s.cfg.bufSize
  | _ => True

/-- The command a step would take next, if any, may be issued. -/
def hostLawful (s : State) : Prop :=
  ∀ w rest i, s.cmds = w :: rest → decode s.cfg.aw w = .ok i → commandLawful i s

/-- A safe state: the invariant holds and no error response was given in the session (R181). -/
def State.Safe (s : State) : Prop := s.Inv ∧ s.errored = false

/-! ### Views of the trace -/

/-- The responses in a trace. -/
def responsesIn (trace : List Event) : List Response :=
  trace.filterMap fun
    | .respond r => some r
    | _ => none

/-- The stores in a trace. -/
def storesIn (trace : List Event) : List (Nat × Byte) :=
  trace.filterMap fun
    | .store a v => some (a, v)
    | _ => none

/-- The bytes fetched in a trace. -/
def bytesIn (trace : List Event) : List Byte :=
  trace.filterMap fun
    | .fetchAnswer (.byte b) => some b
    | _ => none

/-- How many fetch requests a trace holds. -/
def requestsIn (trace : List Event) : Nat :=
  trace.countP fun
    | .fetchRequest => true
    | _ => false

/-- How many tree reads a trace holds (R200). -/
def treeReadsIn (trace : List Event) : Nat :=
  trace.countP fun
    | .treeRead _ => true
    | _ => false

/-- The events one symbol of a READ stores at: symbol `k` at `offset + k` (R47). -/
def bulkStores (offset : Nat) (vs : List Byte) : List (Nat × Byte) :=
  vs.mapIdx fun k v => (storeAddress offset k, v)

/-- The bytes of a READ written into a buffer, symbol `k` at `offset + k` (R47, R135). -/
def writeBytes (m : List Host.Cell) (offset : Nat) (vs : List Byte) : List Host.Cell :=
  match vs with
  | [] => m
  | v :: rest => writeBytes (Memory.write m offset v) (offset + 1) rest

/-! ### Runs of one operation -/

/-- `k` calls of NEXTBIT and the bits they deliver; it stops at the first answer that is no bit. -/
def nextBits (k : Nat) (s : State) : Result (List Bool) :=
  match k with
  | 0 => .ok [] s
  | k + 1 =>
    (nextBit s).andThen fun r t =>
      match r with
      | .bit b => (nextBits k t).andThen fun bs u => .ok (b :: bs) u
      | _ => .ok [] t

/-- `k` READ_BYTE commands, one after the other. -/
def repeatReadByte (k : Nat) (s : State) : Host.Outcome State Fault Refusal :=
  match k with
  | 0 => .next s
  | k + 1 =>
    match exec (.readByte 0 0) s with
    | .next t => repeatReadByte k t
    | .fault r => .fault r
    | .refused r => .refused r

/-! ### The encoder's side (R78, R150) -/

/-- The byte whose bit at delivery position `k` is bit `k` of the list, 0 past its end (R48). The 0 is the model's, a
DESIGN CHOICE (log 21): R79 and D2 leave the padding convention open, and an encoder with another one puts its own bits
in the list. -/
def packByte (msbFirst : Bool) (bits : List Bool) : Byte :=
  BitVec.ofFnLE fun i : Fin 8 => bits.getD (if msbFirst then 7 - i.val else i.val) false

/-- Bits packed into bytes in delivery order, the last byte filled with zeros where the list does not fill it (R78;
log 21); `fuel` bounds the bytes. -/
def packBits (msbFirst : Bool) (fuel : Nat) (bits : List Bool) : List Byte :=
  match fuel with
  | 0 => []
  | fuel + 1 =>
    match bits with
    | [] => []
    | b :: rest => packByte msbFirst (b :: rest.take 7) :: packBits msbFirst fuel (rest.drop 7)

/-- The packed form of a bit sequence. -/
def packed (msbFirst : Bool) (bits : List Bool) : List Byte := packBits msbFirst bits.length bits

end Sys2Proof.Machine
end

