-- ==== Sys2Proof/Certificates/Slice0/Obligations.lean ====
section
/-! DEFINITION. The statements for the provers. Each docstring names the rules of spec/ it formalises. The fields `trace`,
`errored`, `srcBase` and `draws` are the model's own records (log 3, 7, 8, 10). -/

open Sys2Proof Sys2Proof.Machine

/-! ### Encodings -/

/-- Decoding the word of a well-formed command gives the command back, with every operand at every value its field
admits, and the word has `8 + 2*AW` bits (R66, R67, R68). -/
def Obligations.DecodeOfEncodeIsTheCommand : Prop :=
  ∀ (aw : Nat) (i : Instr), i.wf aw → encode aw i < 2 ^ (8 + 2 * aw) ∧ decode aw (encode aw i) = .ok i

/-- A command word that decodes is the word of the command it decodes to (R66, R67). That no operand bit is dropped holds
for the N and X commands, whose operand fields R70 ignores, by the model's choice: its instructions keep those fields
(log 13). -/
def Obligations.EncodeOfDecodeIsTheWord : Prop :=
  ∀ (aw w : Nat) (i : Instr), w < 2 ^ (8 + 2 * aw) → decode aw w = .ok i → i.wf aw ∧ encode aw i = w

/-- Exactly the codes 0x07 and 0x0F to 0xFF are reserved, whatever the operand bits (R67, R69). -/
def Obligations.ReservedCodesHaveNoCommand : Prop :=
  ∀ aw w : Nat, decode aw w = .error (.reservedOp (BitVec.ofNat 8 w)) ↔ (w % 2 ^ 8 = 0x07 ∨ 0x0F ≤ w % 2 ^ 8)

/-- Command words written out from R66 and R67 decode to the commands they stand for (vectors E1, E2, S7, S8). -/
def Obligations.SampleWordsDecode : Prop :=
  decode 16 0x000A000203 = .ok (.read 2 10) ∧ decode 16 0x0010000003 = .ok (.read 0 16) ∧
    decode 16 0x0000000000 = .ok (.openStream 0 0) ∧ decode 16 0x0000000002 = .ok (.readByte 0 0) ∧
    decode 16 0xFFFF12340C = .ok (.seek 0x1234 0xFFFF) ∧ decode 16 0x00000000FF = .error (.reservedOp 0xFF)

/-- A node word stands for its node, and the bits a leaf does not use are ignored (R76). -/
def Obligations.NodeWordsRoundTrip : Prop :=
  ∀ iw : Nat, 4 ≤ iw →
    (∀ n : Node, n.wf iw = true → encodeNode iw n < 2 ^ (1 + 2 * iw) ∧ decodeNode iw (encodeNode iw n) = n) ∧
    ∀ (unused : Nat) (sym : Byte), 2 ^ 8 * unused + sym.toNat < 2 ^ (2 * iw) →
      decodeNode iw (2 ^ (2 * iw) + (2 ^ 8 * unused + sym.toNat)) = .leaf sym

/-- An answer word stands for its answer; the upper payload bits of a `Byte`, those above `IOW` of a `Fail` and the
payload of an `End` are ignored; kind 3 stands for nothing (R42, R74, R75). -/
def Obligations.AnswerWordsRoundTrip : Prop :=
  ∀ iow : Nat,
    (∀ ans : Answer, ans.wf iow = true → decodeAnswer iow (encodeAnswer ans) = some ans) ∧
    (∀ (upper : Nat) (b : Byte), decodeAnswer iow (0 + 2 ^ 2 * (b.toNat + 2 ^ 8 * upper)) = some (.byte b)) ∧
    (∀ payload : Nat, decodeAnswer iow (1 + 2 ^ 2 * payload) = some .atEnd) ∧
    (∀ upper e : Nat, e < 2 ^ iow → decodeAnswer iow (2 + 2 ^ 2 * (e + 2 ^ iow * upper)) = some (.fail e)) ∧
    ∀ payload : Nat, decodeAnswer iow (3 + 2 ^ 2 * payload) = none

/-- A host reads from a response word the status and the data the core put there, and the word has `4 + DW` bits (R71,
R72). -/
def Obligations.ResponseWordsRoundTrip : Prop :=
  ∀ (p : Params) (r : Response), decodeResponse r.word = some r ∧ (r.wf p → r.word < 2 ^ (4 + p.dw))

/-! ### The step -/

/-- An idle core with no reset requested takes the next command word and runs the command it decodes to (R130). -/
def Obligations.StepRunsTheDecodedCommand : Prop :=
  ∀ (s : State) (w : Nat) (rest : List Nat) (i : Instr),
    s.rst = false → s.activity = .idle → s.cmds = w :: rest → decode s.cfg.aw w = .ok i →
      step s = exec i { s with cmds := rest, trace := s.trace ++ [.command w] }

/-- A reserved code answers UnsupportedOperation, response word 0x00003, in any `sess` and for any operand bits, and
changes nothing of the core (R147). -/
def Obligations.ReservedCodeAnswersUnsupported : Prop :=
  (∀ (s : State) (w : Nat) (rest : List Nat),
    s.rst = false → s.activity = .idle → s.cmds = w :: rest → (w % 2 ^ 8 = 0x07 ∨ 0x0F ≤ w % 2 ^ 8) →
      step s = .next { s with
        cmds := rest, errored := true,
        trace := s.trace ++ [.command w, .respond ⟨.unsupportedOperation, 0⟩] }) ∧
    (0x00000000FF % 2 ^ 8 = 0xFF ∧ Response.word ⟨.unsupportedOperation, 0⟩ = 0x00003)

/-- An idle core without a command waits (R34). -/
def Obligations.IdleCoreWaits : Prop :=
  ∀ s : State, s.rst = false → s.activity = .idle → s.cmds = [] → step s = .next s

/-- A core blocked in a fetch stays exactly as it is while the source is silent: a hang, no error (R8). -/
def Obligations.SilentSourceKeepsTheCommandWaiting : Prop :=
  ∀ (s : State) (c : Pending),
    s.rst = false → s.activity = .blocked c → s.answers = [] → step s = .next s

/-- A requested reset puts the elements at their values of R34, abandons a command in progress without a response, and
leaves TREE and BUF alone; the cursor of the source may have moved only if a fetch was outstanding (R185). The values of
`cur` and `node` are free (log 2). The model's choice, and no rule's: the commands that wait at the port stay and the
request is cleared (log 9), and the outstanding fetch may have taken the next answer, of any kind, and no more (log 3). -/
def Obligations.RequestedResetRule : Prop :=
  ∀ s : State, s.rst = true →
    ∃ t : State, step s = .next t ∧
      t.sess = .closed ∧ t.bitpos = 0 ∧ t.bitcnt = 0 ∧ t.symbits = 0 ∧ t.activity = .idle ∧ t.rst = false ∧
      t.canReadFlag = true ∧ t.canWriteFlag = false ∧ t.canSeekFlag = false ∧
      t.tree = s.tree ∧ t.buf = s.buf ∧ t.cfg = s.cfg ∧ t.cmds = s.cmds ∧
      t.srcPresent = s.srcPresent ∧ t.treePresent = s.treePresent ∧
      t.trace = s.trace ++ [.reset s.busy] ∧
      (t.answers = s.answers ∧ t.srcCursor = s.srcCursor ∨
        (∃ c, s.activity = .blocked c) ∧ t.answers = s.answers.tail ∧
          (t.srcCursor = s.srcCursor ∨ t.srcCursor = s.srcCursor + 1))

/-- A session opened after a reset starts as a session opened after a CLOSE: the core's elements, the source and the
memories agree, but for the stale byte that no rule reads (R185; the reset is taken outside a fetch). -/
def Obligations.ResetActsAsACloseForTheNextSession : Prop :=
  ∀ (a b : Nat) (s closed resetted t u : State),
    s.sess = .opened → s.activity = .idle → s.rst = false → s.srcPresent = true → s.treePresent = true →
    exec (.closeStream a b) s = .next closed → step { s with rst := true } = .next resetted →
    exec (.openStream a b) closed = .next t → exec (.openStream a b) resetted = .next u →
      { u with cur := t.cur, trace := t.trace, draws := t.draws } = t

/-! ### Reset and the invariant -/

/-- The state after reset. The core's elements are at the values of R34 and the core is idle (R185); `cur` and `node` are
free values, `node` of `IW` bits (log 2). The rest is the model's choice: parameters within the bounds of R6 (log 1), no
command and no reset request waiting (log 9), both presence inputs low, no tree, no answer and the source's cursor at 0
(log 10), nothing written in BUF (log 11), and empty records (log 3, 7, 8, 10). -/
def Obligations.ResetStateValues : Prop :=
  State.reset.sess = .closed ∧ State.reset.bitpos = 0 ∧ State.reset.bitcnt = 0 ∧ State.reset.symbits = 0 ∧
    State.reset.activity = .idle ∧ State.reset.canReadFlag = true ∧ State.reset.canWriteFlag = false ∧
    State.reset.canSeekFlag = false ∧ State.reset.cur = Config.unspecifiedCur 0 ∧
    State.reset.node = Config.unspecifiedNode 0 % 2 ^ State.reset.cfg.iw ∧ State.reset.cfg.wf ∧
    State.reset.cmds = [] ∧ State.reset.rst = false ∧ State.reset.srcPresent = false ∧
    State.reset.treePresent = false ∧ State.reset.tree = [] ∧ State.reset.answers = [] ∧
    State.reset.srcCursor = 0 ∧ State.reset.buf = [] ∧ State.reset.trace = [] ∧ State.reset.errored = false ∧
    State.reset.srcBase = 0 ∧ State.reset.draws = 1

/-- The invariant holds after reset (R34, R35). -/
def Obligations.InvariantAtReset : Prop := State.reset.Inv

/-- Every step keeps the invariant: the bit offset agrees with the bit count, the limit is not passed, the source's
cursor stands at the bytes the bits need, `node` is an index of the arena, a fresh symbol stands at the root, BUF keeps
its canonical form (R23, R33, R35). -/
def Obligations.EveryStepKeepsTheInvariant : Prop :=
  ∀ s t : State, s.Inv → step s = .next t → t.Inv

/-- No step from a state that meets the invariant accesses a tree index or a buffer address that does not exist (R45,
R47). -/
def Obligations.InvariantRulesOutFaults : Prop :=
  ∀ (s : State) (f : Fault), s.Inv → step s ≠ .fault f

/-- With a host that issues only commands the session admits and a source that never answers the reserved kind, every
step answers a next state (R75, R130, R133, R135). -/
def Obligations.LawfulStepsProceed : Prop :=
  ∀ s : State, s.Inv → sourceLawful s → hostLawful s → ∃ t : State, step s = .next t

/-- Inputs from outside keep the invariant when the tree builder publishes only a legal arena (R44, R46, R186). -/
def Obligations.LawfulInputsKeepTheInvariant : Prop :=
  ∀ (e : InputEvent) (s t : State), s.Inv →
    (∀ words, e = .loadTree words → s.treePresent = true → arenaWF s.cfg.iw words) →
    (e = .setTreePresent true → arenaWF s.cfg.iw s.tree) →
    applyInput e s = .next t → t.Inv

/-! ### The session -/

/-- OPEN with both inputs present starts a session with fresh cursors and makes no access; `cur` and the source are left
as they were (R131). -/
def Obligations.OpenBeginsASession : Prop :=
  ∀ (a b : Nat) (s : State), s.sess = .closed → s.srcPresent = true → s.treePresent = true →
    exec (.openStream a b) s = .next { s with
      bitpos := 0, bitcnt := 0, symbits := 0, node := 0, sess := .opened, activity := .idle, errored := false,
      srcBase := s.srcCursor, trace := s.trace ++ [.respond ⟨.ok, 0⟩] }

/-- OPEN with an input absent answers InvalidArgument and changes nothing of the core (R131), and no other step answers
it (R163). -/
def Obligations.InvalidArgumentIsOpenWithoutSourceOrTree : Prop :=
  (∀ (a b : Nat) (s : State), s.sess = .closed → (s.srcPresent = false ∨ s.treePresent = false) →
    exec (.openStream a b) s = .next { s with
      activity := .idle, errored := true, trace := s.trace ++ [.respond ⟨.invalidArgument, 0⟩] }) ∧
  ∀ (s t : State) (new : List Event) (d : Nat), step s = .next t → t.trace = s.trace ++ new →
    .respond ⟨.invalidArgument, d⟩ ∈ new →
      d = 0 ∧ s.sess = .closed ∧ t.sess = .closed ∧ (s.srcPresent = false ∨ s.treePresent = false) ∧
        ∃ w rest, s.cmds = w :: rest ∧ w % 2 ^ 8 = 0x00

/-- READ_BYTE, READ and CLOSE while CLOSED and OPEN while OPEN are refused (R133). -/
def Obligations.WrongSessionIsRefused : Prop :=
  ∀ (a b : Nat) (s : State),
    (s.sess = .closed →
      exec (.readByte a b) s = .refused (.wrongSession .closed) ∧
      exec (.read a b) s = .refused (.wrongSession .closed) ∧
      exec (.closeStream a b) s = .refused (.wrongSession .closed)) ∧
    (s.sess = .opened → exec (.openStream a b) s = .refused (.wrongSession .opened))

/-- CLOSE ends the session and changes nothing else: the source is not read and the tree not touched (R132). -/
def Obligations.CloseEndsTheSession : Prop :=
  ∀ (a b : Nat) (s : State), s.sess = .opened →
    exec (.closeStream a b) s = .next { s with
      sess := .closed, activity := .idle, trace := s.trace ++ [.respond ⟨.ok, 0⟩] }

/-! ### Flags and unsupported commands -/

/-- CAN_READ answers 1, CAN_WRITE and CAN_SEEK answer 0, response words 0x00010, 0x00000 and 0x00000, in any state, and
nothing of the core changes; their codes are 0x04, 0x05 and 0x06 (R136, R137, R138). -/
def Obligations.CapabilityCommandsAnswerTheFlags : Prop :=
  (∀ (a b : Nat) (s : State),
    exec (.canRead a b) s = .next { s with activity := .idle, trace := s.trace ++ [.respond ⟨.ok, 1⟩] } ∧
    exec (.canWrite a b) s = .next { s with activity := .idle, trace := s.trace ++ [.respond ⟨.ok, 0⟩] } ∧
    exec (.canSeek a b) s = .next { s with activity := .idle, trace := s.trace ++ [.respond ⟨.ok, 0⟩] }) ∧
  (∀ aw w : Nat,
    (w % 2 ^ 8 = 0x04 → ∃ a b, decode aw w = .ok (.canRead a b)) ∧
    (w % 2 ^ 8 = 0x05 → ∃ a b, decode aw w = .ok (.canWrite a b)) ∧
    (w % 2 ^ 8 = 0x06 → ∃ a b, decode aw w = .ok (.canSeek a b))) ∧
  Response.word ⟨.ok, 1⟩ = 0x00010 ∧ Response.word ⟨.ok, 0⟩ = 0x00000

/-- The seven unsupported commands answer UnsupportedOperation, response word 0x00003, on every invocation, in any
state and for any operands, and change nothing of the core; their codes are 0x08 to 0x0E (R140 to R146). -/
def Obligations.UnsupportedCommandsFail : Prop :=
  (∀ (a b : Nat) (s : State) (i : Instr),
    (i = .flush a b ∨ i = .getLength a b ∨ i = .getPosition a b ∨ i = .setPosition a b ∨ i = .seek a b ∨
      i = .setLength a b ∨ i = .write a b) →
    exec i s = .next { s with
      activity := .idle, errored := true, trace := s.trace ++ [.respond ⟨.unsupportedOperation, 0⟩] }) ∧
  (∀ aw w : Nat,
    (w % 2 ^ 8 = 0x08 → ∃ a b, decode aw w = .ok (.flush a b)) ∧
    (w % 2 ^ 8 = 0x09 → ∃ a b, decode aw w = .ok (.getLength a b)) ∧
    (w % 2 ^ 8 = 0x0A → ∃ a b, decode aw w = .ok (.getPosition a b)) ∧
    (w % 2 ^ 8 = 0x0B → ∃ a b, decode aw w = .ok (.setPosition a b)) ∧
    (w % 2 ^ 8 = 0x0C → ∃ a b, decode aw w = .ok (.seek a b)) ∧
    (w % 2 ^ 8 = 0x0D → ∃ a b, decode aw w = .ok (.setLength a b)) ∧
    (w % 2 ^ 8 = 0x0E → ∃ a b, decode aw w = .ok (.write a b))) ∧
  Response.word ⟨.unsupportedOperation, 0⟩ = 0x00003

/-- Any number of unsupported commands and reserved codes leaves the core, the source and the memories as they were, so
that what follows behaves as if they had not been issued (R139, R147). -/
def Obligations.UnsupportedBurstLeavesTheStream : Prop :=
  ∀ (ws rest : List Nat) (s : State), s.rst = false → s.activity = .idle →
    (∀ w ∈ ws, w % 2 ^ 8 = 0x07 ∨ 0x08 ≤ w % 2 ^ 8) → ws ≠ [] →
      Host.Core.run core ws.length { s with cmds := ws ++ rest } = .next { s with
        cmds := rest, errored := true,
        trace := s.trace ++ ws.flatMap fun w => [.command w, .respond ⟨.unsupportedOperation, 0⟩] }

/-! ### BitReader -/

/-- Delivery position `k` is bit `7 - k` when `MSB_FIRST` and bit `k` otherwise, so one order is the other reversed, and
the eight bits determine the byte (R48). -/
def Obligations.BitOrderWithinAByte : Prop :=
  ∀ (c : Byte),
    (∀ k : Fin 8, bitOf true c k = c.getLsbD (7 - k.val) ∧ bitOf false c k = c.getLsbD k.val) ∧
    byteBits true c = (byteBits false c).reverse ∧
    ∀ (m : Bool) (c' : Byte), byteBits m c = byteBits m c' → c = c'

/-- NEXTBIT, case by case: the bit limit first, without an access; inside a byte the next bit of `cur`, without a fetch;
at a byte boundary one fetch, and what follows from each answer, the failure code verbatim (R90, R93, R95). -/
def Obligations.NextBitCases : Prop :=
  ∀ s : State,
    (s.cfg.bitLimit = some s.bitcnt → nextBit s = .ok .endOfInput s) ∧
    (s.cfg.bitLimit ≠ some s.bitcnt → s.bitpos ≠ 0 →
      nextBit s = .ok (.bit (bitOf s.cfg.msbFirst s.cur s.bitpos))
        { s with bitpos := s.bitpos + 1, bitcnt := s.bitcnt + 1 }) ∧
    (s.cfg.bitLimit ≠ some s.bitcnt → s.bitpos = 0 → ∀ (w : Nat) (rest : List Nat), s.answers = w :: rest →
      (∀ b : Byte, decodeAnswer s.cfg.iow w = some (.byte b) →
        nextBit s = .ok (.bit (bitOf s.cfg.msbFirst b 0)) { s with
          cur := b, bitpos := 1, bitcnt := s.bitcnt + 1, answers := rest, srcCursor := s.srcCursor + 1,
          trace := s.trace ++ [.fetchRequest, .fetchAnswer (.byte b)] }) ∧
      (decodeAnswer s.cfg.iow w = some .atEnd →
        nextBit s = .ok .endOfInput { s with
          answers := rest, trace := s.trace ++ [.fetchRequest, .fetchAnswer .atEnd] }) ∧
      ∀ e : Nat, decodeAnswer s.cfg.iow w = some (.fail e) →
        nextBit s = .ok (.ioFailure e) { s with
          answers := rest, trace := s.trace ++ [.fetchRequest, .fetchAnswer (.fail e)] })

/-- Without a bit limit the `j`-th bit of a session is `BitOf(d[j div 8], j mod 8)` of the source's bytes `d`, and `k`
bits take `ceil(k / 8)` fetches, none ahead of the bit that needs it (R91, R92). -/
def Obligations.NextBitsComeInStreamOrder : Prop :=
  ∀ (s : State) (d : List Byte) (tail : List Nat) (k : Nat),
    s.cfg.bitLimit = none → s.bitpos = 0 → s.answers = d.map (fun b => encodeAnswer (.byte b)) ++ tail →
    k ≤ 8 * d.length →
      ∃ (t : State) (new : List Event),
        nextBits k s =
          .ok ((List.range k).map fun j => bitOf s.cfg.msbFirst (d.getD (j / 8) 0) (Fin.ofNat 8 j)) t ∧
        t.bitcnt = s.bitcnt + k ∧ t.bitpos.val = k % 8 ∧ t.trace = s.trace ++ new ∧
        bytesIn new = d.take ((k + 7) / 8) ∧ requestsIn new = (k + 7) / 8 ∧
        t.srcCursor = s.srcCursor + (k + 7) / 8

/-! ### PrefixTree and IncrementalDecoder -/

/-- The decoder's two states and every transition: DEC_RESET goes to the root from any state; in Traversing a PUSH goes
to the child and the state becomes Resolved if the child is a leaf and stays otherwise, or it raises DecodeError and keeps
`node` where the child is absent, HASVALUE is false and VALUE is refused; in Resolved a PUSH raises DecodeError and keeps `node`, HASVALUE is true and VALUE gives the symbol (R119). -/
def Obligations.DecoderTransitions : Prop :=
  ∀ s : State,
    (decReset s = { s with node := 0 }) ∧
    (∀ c0 c1 : Nat, s.nodeAt s.node = some (.internal c0 c1) →
      s.decoderState = some .traversing ∧
      (∀ b : Bool, (if b then c1 else c0) < s.nodes →
        ∃ (n : Node) (t : State), s.nodeAt (if b then c1 else c0) = some n ∧ push b s = .ok .moved t ∧
          t = { s with node := (if b then c1 else c0), trace := s.trace ++ [.treeRead s.node] } ∧
          t.decoderState = some (if isLeafNode n = true then .resolved else .traversing)) ∧
      (∀ b : Bool, s.nodes ≤ (if b then c1 else c0) →
        push b s = .ok .decodeError { s with trace := s.trace ++ [.treeRead s.node] }) ∧
      hasValue s = .ok false { s with trace := s.trace ++ [.treeRead s.node] } ∧
      value s = .refused .notALeaf) ∧
    ∀ v : Byte, s.nodeAt s.node = some (.leaf v) →
      s.decoderState = some .resolved ∧
      (∀ b : Bool, push b s = .ok .decodeError { s with trace := s.trace ++ [.treeRead s.node] }) ∧
      hasValue s = .ok true { s with trace := s.trace ++ [.treeRead s.node] } ∧
      value s = .ok v { s with trace := s.trace ++ [.treeRead s.node] }

/-- In a well-formed tree with an internal root every bit sequence of `NODES - 1` or more bits begins with the code of a
leaf, of at least 1 and at most `NODES - 1` bits, so a symbol is resolved within `NODES - 1` bits (R105, R106, R121). -/
def Obligations.WellFormedTreesResolveEveryStream : Prop :=
  ∀ (s : State) (bits : List Bool), s.treeWF → s.rootInternal = true → s.nodes - 1 ≤ bits.length →
    ∃ (code rest : List Bool) (j : Nat) (v : Byte),
      bits = code ++ rest ∧ 1 ≤ code.length ∧ code.length ≤ s.nodes - 1 ∧
      s.walk root code = some j ∧ s.nodeAt j = some (.leaf v)

/-- No code is a prefix of another: two walks to leaves along prefixes of one bit sequence are the same walk (R105,
R12). -/
def Obligations.CodesArePrefixFree : Prop :=
  ∀ (s : State) (p q : List Bool) (i j : Nat) (v w : Byte),
    s.walk root p = some i → s.nodeAt i = some (.leaf v) → s.walk root q = some j → s.nodeAt j = some (.leaf w) →
    p <+: q → p = q ∧ v = w

/-- The arena represents its abstract tree: where the unfolding exists, a bit path leads to a leaf in the arena exactly
when it is a code of the tree, with the same symbol (R104). -/
def Obligations.ArenaWalksAreTreePaths : Prop :=
  ∀ (s : State) (T : Tree), s.prefixTree = some T →
    ∀ (code : List Bool) (v : Byte),
      IsCode T code v ↔ ∃ j : Nat, s.walk root code = some j ∧ s.nodeAt j = some (.leaf v)

/-- The check a builder can run is sufficient: where the children of the reachable internal nodes are in range and larger
than their parents and no index is a child of them twice, the tree is well formed, whatever stands in the nodes that are
not reachable from the root (R105; which nodes the check ranges over is log 20). -/
def Obligations.BuilderCheckEnsuresTreeWF : Prop :=
  ∀ s : State, s.builderCheck → s.treeWF

/-! ### READ_BYTE -/

/-- READ_BYTE on bits that begin with a code answers its symbol and has consumed exactly the code: the cursor counts
agree, one node is read for each PUSH and HASVALUE and one for VALUE, each fetch took one byte, nothing is stored, and
nothing but the BitReader, the decoder, the source and the trace has changed (R134, R96, R121, R200). -/
def Obligations.ReadByteDecodesOneCode : Prop :=
  ∀ (a b : Nat) (s : State) (code rest : List Bool) (j : Nat) (v : Byte),
    s.sess = .opened → s.deliverable = code ++ rest → code ≠ [] →
    s.walk root code = some j → s.nodeAt j = some (.leaf v) →
      ∃ (t : State) (mid : List Event),
        exec (.readByte a b) s = .next t ∧
        t = { s with
          cur := t.cur, bitpos := t.bitpos, bitcnt := s.bitcnt + code.length, node := j, symbits := code.length,
          activity := .idle, answers := t.answers, srcCursor := s.srcCursor + (bytesIn mid).length,
          trace := s.trace ++ mid ++ [.respond ⟨.ok, v.toNat⟩] } ∧
        t.bitpos.val = (s.bitpos.val + code.length) % 8 ∧ t.deliverable = rest ∧ t.bitsEnd = s.bitsEnd ∧
        responsesIn mid = [] ∧ storesIn mid = [] ∧
        treeReadsIn mid = 2 * code.length + 1 ∧ requestsIn mid = (bytesIn mid).length

/-- READ_BYTE with no bit left answers END_OF_STREAM: at the bit limit without a fetch, at the source's `End` with one
fetch; the BitReader is unchanged and the decoder stands at the root (R134, R166). -/
def Obligations.ReadByteAtTheCleanEnd : Prop :=
  ∀ (a b : Nat) (s : State), s.sess = .opened →
    (∀ n, s.cfg.bitLimit = some n → s.bitcnt ≤ n) → s.deliverable = [] →
      (s.bitsEnd = .limit →
        exec (.readByte a b) s = .next { s with
          node := 0, symbits := 0, activity := .idle, trace := s.trace ++ [.respond ⟨.endOfStream, 0⟩] }) ∧
      (s.bitsEnd = .sourceEnd →
        exec (.readByte a b) s = .next { s with
          node := 0, symbits := 0, activity := .idle, answers := s.answers.tail,
          trace := s.trace ++ [.fetchRequest, .fetchAnswer .atEnd, .respond ⟨.endOfStream, 0⟩] })

/-- READ_BYTE on bits that end inside a code, at the bit limit or at the source's `End`, answers TRUNCATED_STREAM and not
END_OF_STREAM; the bits stay consumed and `node` is the internal node reached (R134, R149, R165). -/
def Obligations.ReadByteTruncatedInsideASymbol : Prop :=
  ∀ (a b : Nat) (s : State) (j c0 c1 : Nat), s.sess = .opened →
    (∀ n, s.cfg.bitLimit = some n → s.bitcnt ≤ n) →
    s.deliverable ≠ [] → s.walk root s.deliverable = some j → s.nodeAt j = some (.internal c0 c1) →
    (s.bitsEnd = .limit ∨ s.bitsEnd = .sourceEnd) →
      ∃ (t : State) (mid : List Event),
        exec (.readByte a b) s = .next t ∧
        t = { s with
          cur := t.cur, bitpos := t.bitpos, bitcnt := s.bitcnt + s.deliverable.length, node := j,
          symbits := s.deliverable.length, activity := .idle, answers := t.answers, srcCursor := t.srcCursor,
          errored := true, trace := s.trace ++ mid ++ [.respond ⟨.truncatedStream, 0⟩] } ∧
        responsesIn mid = [] ∧ storesIn mid = [] ∧
        requestsIn mid = (bytesIn mid).length + (if s.bitsEnd = .limit then 0 else 1)

/-- READ_BYTE passes a source failure on with its code, at a symbol boundary and inside a symbol alike, the BitReader as
it was before the failing fetch (R134, R167). -/
def Obligations.ReadBytePassesSourceFailure : Prop :=
  ∀ (a b : Nat) (s : State) (j e : Nat), s.sess = .opened →
    (∀ n, s.cfg.bitLimit = some n → s.bitcnt ≤ n) →
    s.walk root s.deliverable = some j →
    (s.deliverable ≠ [] → ∃ c0 c1, s.nodeAt j = some (.internal c0 c1)) →
    s.bitsEnd = .sourceFail e →
      ∃ (t : State) (mid : List Event),
        exec (.readByte a b) s = .next t ∧
        t = { s with
          cur := t.cur, bitpos := 0, bitcnt := s.bitcnt + s.deliverable.length, node := j,
          symbits := s.deliverable.length, activity := .idle, answers := t.answers, srcCursor := t.srcCursor,
          errored := true,
          trace := s.trace ++ mid ++ [.fetchRequest, .fetchAnswer (.fail e), .respond ⟨.ioFailure, e⟩] } ∧
        responsesIn mid = [] ∧ storesIn mid = []

/-- READ_BYTE that meets a bit without a transition answers DECODE_ERROR with that bit consumed and `node` and `symbits`
as they were before it: an absent child, or the root of a one-node tree (R108, R116, R134, R168). -/
def Obligations.ReadByteDecodeError : Prop :=
  ∀ (a b : Nat) (s : State) (p rest : List Bool) (bit : Bool) (j : Nat) (n : Node), s.sess = .opened →
    s.deliverable = p ++ bit :: rest → s.walk root p = some j → s.nodeAt j = some n →
    (p ≠ [] → isLeafNode n = false) → childIndex s.nodes bit n = none →
      ∃ (t : State) (mid : List Event),
        exec (.readByte a b) s = .next t ∧
        t = { s with
          cur := t.cur, bitpos := t.bitpos, bitcnt := s.bitcnt + p.length + 1, node := j, symbits := p.length,
          activity := .idle, answers := t.answers, srcCursor := t.srcCursor, errored := true,
          trace := s.trace ++ mid ++ [.respond ⟨.decodeError, 0⟩] } ∧
        t.deliverable = rest ∧ responsesIn mid = [] ∧ storesIn mid = []

/-- READ_BYTE on a source that falls silent waits in its fetch, without a response, what it has consumed kept (R8,
R180). -/
def Obligations.ReadByteBlocksOnSilence : Prop :=
  ∀ (a b : Nat) (s : State) (j : Nat), s.sess = .opened →
    (∀ n, s.cfg.bitLimit = some n → s.bitcnt ≤ n) →
    s.walk root s.deliverable = some j →
    (s.deliverable ≠ [] → ∃ c0 c1, s.nodeAt j = some (.internal c0 c1)) →
    s.bitsEnd = .silence →
      ∃ (t : State) (mid : List Event),
        exec (.readByte a b) s = .next t ∧
        t = { s with
          cur := t.cur, bitpos := 0, bitcnt := s.bitcnt + s.deliverable.length, node := j,
          symbits := s.deliverable.length, activity := .blocked .readByte, answers := [], srcCursor := t.srcCursor,
          trace := s.trace ++ mid ++ [.fetchRequest] } ∧
        responsesIn mid = [] ∧ storesIn mid = []

/-- In a session over a well-formed tree with an internal root, READ_BYTE responds, and never with DecodeError, when the
bits at hand begin with a whole code, whatever follows them, or are ended by the bit limit, the source's `End` or its
`Fail`: the cases left are a source that falls silent inside the symbol, which is a hang (R8), and one that answers the
reserved kind there, which is refused (R75) (R134 (a), R106, R168, R200). -/
def Obligations.ReadByteRespondsOverAWellFormedTree : Prop :=
  ∀ (a b : Nat) (s : State), s.Inv → s.sess = .opened → s.treeWF → s.rootInternal = true →
    ((∃ (code rest : List Bool) (j : Nat) (v : Byte), s.deliverable = code ++ rest ∧ s.walk root code = some j ∧
        s.nodeAt j = some (.leaf v)) ∨
      (s.bitsEnd ≠ .silence ∧ s.bitsEnd ≠ .reserved)) →
      ∃ (t : State) (mid : List Event) (r : Response),
        exec (.readByte a b) s = .next t ∧ t.activity = .idle ∧ t.trace = s.trace ++ mid ++ [.respond r] ∧
        responsesIn mid = [] ∧ r.status ≠ .decodeError

/-- What READ_BYTE leaves unchanged, however it ends: `sess`, the inputs, the waiting commands, TREE, BUF and the
parameters; the source only goes forward (R20, R41, R47, R134). -/
def Obligations.ReadByteFrame : Prop :=
  ∀ (a b : Nat) (s t : State), exec (.readByte a b) s = .next t →
    t = { s with
      cur := t.cur, bitpos := t.bitpos, bitcnt := t.bitcnt, node := t.node, symbits := t.symbits,
      activity := t.activity, answers := t.answers, srcCursor := t.srcCursor, errored := t.errored,
      trace := t.trace } ∧
    t.answers <:+ s.answers ∧ ∀ addr : Nat, Memory.read t.buf addr = Memory.read s.buf addr

/-! ### READ -/

/-- READ with `count = 0` responds OK(0) at once, without a decoder reset, a fetch or a store (R135 (a)). -/
def Obligations.ReadOfCountZero : Prop :=
  ∀ (offset : Nat) (s : State), s.sess = .opened → offset ≤ s.cfg.bufSize →
    exec (.read offset 0) s = .next { s with activity := .idle, trace := s.trace ++ [.respond ⟨.ok, 0⟩] }

/-- READ with `offset + count > BUF_SIZE` is refused (R135 (d)). -/
def Obligations.ReadWithoutRoomIsRefused : Prop :=
  ∀ (offset count : Nat) (s : State), s.sess = .opened → s.cfg.bufSize < offset + count →
    exec (.read offset count) s = .refused .bufferTooSmall

/-- READ of `count` symbols whose codes stand next in the bits answers OK(count), has stored symbol `k` at `offset + k`
and nothing elsewhere, in order, and has consumed exactly their bits (R47, R96, R135). -/
def Obligations.ReadStoresTheDecodedSymbols : Prop :=
  ∀ (offset : Nat) (s : State) (codes : List (List Bool × Byte)) (rest : List Bool), s.sess = .opened →
    offset + codes.length ≤ s.cfg.bufSize → s.deliverable = (codes.flatMap Prod.fst) ++ rest →
    (∀ c ∈ codes, c.1 ≠ [] ∧ ∃ j, s.walk root c.1 = some j ∧ s.nodeAt j = some (.leaf c.2)) →
      ∃ (t : State) (mid : List Event),
        exec (.read offset codes.length) s = .next t ∧ t.activity = .idle ∧
        t.trace = s.trace ++ mid ++ [.respond ⟨.ok, codes.length⟩] ∧ responsesIn mid = [] ∧
        storesIn mid = bulkStores offset (codes.map Prod.snd) ∧ requestsIn mid = (bytesIn mid).length ∧
        t.deliverable = rest ∧ t.bitcnt = s.bitcnt + (codes.flatMap Prod.fst).length ∧
        ∀ addr : Nat, Memory.read t.buf addr =
          if offset ≤ addr ∧ addr < offset + codes.length then (codes.map Prod.snd)[addr - offset]?
          else Memory.read s.buf addr

/-- READ that meets the clean end of data after fewer symbols than `count` answers OK with the partial count, has stored
exactly those, and does not ask again (R135 (b), (c), R148, R196). -/
def Obligations.ReadStopsAtEndOfStream : Prop :=
  ∀ (offset count : Nat) (s : State) (codes : List (List Bool × Byte)), s.sess = .opened →
    offset + count ≤ s.cfg.bufSize → codes.length < count →
    (∀ n, s.cfg.bitLimit = some n → s.bitcnt ≤ n) → s.deliverable = codes.flatMap Prod.fst →
    (s.bitsEnd = .limit ∨ s.bitsEnd = .sourceEnd) →
    (∀ c ∈ codes, c.1 ≠ [] ∧ ∃ j, s.walk root c.1 = some j ∧ s.nodeAt j = some (.leaf c.2)) →
      ∃ (t : State) (mid : List Event),
        exec (.read offset count) s = .next t ∧ t.activity = .idle ∧
        t.trace = s.trace ++ mid ++ [.respond ⟨.ok, codes.length⟩] ∧ responsesIn mid = [] ∧
        storesIn mid = bulkStores offset (codes.map Prod.snd) ∧
        requestsIn mid = (bytesIn mid).length + (if s.bitsEnd = .limit then 0 else 1) ∧
        t.errored = s.errored ∧
        ∀ addr : Nat, Memory.read t.buf addr =
          if offset ≤ addr ∧ addr < offset + codes.length then (codes.map Prod.snd)[addr - offset]?
          else Memory.read s.buf addr

/-- READ passes the error of a step on unchanged: bits that end inside a code give TRUNCATED_STREAM, a source failure
gives its code, a bit without a transition gives DECODE_ERROR with that bit consumed, each without a count; the symbols
stored before the error stay in BUF, and nothing else of BUF changes (R135, R161, R168, R169). -/
def Obligations.ReadErrorKeepsTheStoredBytes : Prop :=
  ∀ (offset count : Nat) (s : State) (codes : List (List Bool × Byte)) (part more : List Bool) (j : Nat)
    (r : Response), s.sess = .opened →
    offset + count ≤ s.cfg.bufSize → codes.length < count →
    (∀ n, s.cfg.bitLimit = some n → s.bitcnt ≤ n) → s.deliverable = codes.flatMap Prod.fst ++ (part ++ more) →
    (∀ c ∈ codes, c.1 ≠ [] ∧ ∃ j, s.walk root c.1 = some j ∧ s.nodeAt j = some (.leaf c.2)) →
    s.walk root part = some j → (part ≠ [] → ∃ c0 c1, s.nodeAt j = some (.internal c0 c1)) →
    ((more = [] ∧ part ≠ [] ∧ (s.bitsEnd = .limit ∨ s.bitsEnd = .sourceEnd) ∧ r = ⟨.truncatedStream, 0⟩) ∨
      (more = [] ∧ ∃ e : Nat, s.bitsEnd = .sourceFail e ∧ r = ⟨.ioFailure, e⟩) ∨
      ∃ (bit : Bool) (rest : List Bool) (n : Node), more = bit :: rest ∧ s.nodeAt j = some n ∧
        childIndex s.nodes bit n = none ∧ r = ⟨.decodeError, 0⟩) →
      ∃ (t : State) (mid : List Event),
        exec (.read offset count) s = .next t ∧ t.activity = .idle ∧ t.errored = true ∧
        t.trace = s.trace ++ mid ++ [.respond r] ∧ responsesIn mid = [] ∧
        storesIn mid = bulkStores offset (codes.map Prod.snd) ∧
        t.bitcnt = s.bitcnt + (codes.flatMap Prod.fst).length + part.length + (more.take 1).length ∧
        ∀ addr : Nat, Memory.read t.buf addr =
          if offset ≤ addr ∧ addr < offset + codes.length then (codes.map Prod.snd)[addr - offset]?
          else Memory.read s.buf addr

/-- What READ leaves unchanged, however it ends: everything READ_BYTE does and every byte of BUF but the `n` it stored,
at `offset` to `offset + n - 1` with `n <= count`; an OK response says that `n` (R47, R135). -/
def Obligations.ReadFrame : Prop :=
  ∀ (offset count : Nat) (s t : State), exec (.read offset count) s = .next t →
    t = { s with
      cur := t.cur, bitpos := t.bitpos, bitcnt := t.bitcnt, node := t.node, symbits := t.symbits,
      activity := t.activity, answers := t.answers, srcCursor := t.srcCursor, buf := t.buf, errored := t.errored,
      trace := t.trace } ∧
    t.answers <:+ s.answers ∧
    ∃ (new : List Event) (vs : List Byte),
      t.trace = s.trace ++ new ∧ vs.length ≤ count ∧ storesIn new = bulkStores offset vs ∧
      (∀ m : Nat, .respond ⟨.ok, m⟩ ∈ new → m = vs.length) ∧
      ∀ addr : Nat, Memory.read t.buf addr =
        if offset ≤ addr ∧ addr < offset + vs.length then vs[addr - offset]? else Memory.read s.buf addr

/-- A READ that responds and as many READ_BYTE commands as it took symbols, with one more where it ended before `count`,
consume the same bits and produce the same bytes: they differ only in where the bytes go and in how the end is reported.
The READ_BYTE commands answer the `n` stored bytes; where `n < count`, the last one answers END_OF_STREAM if READ answered
OK(n), and READ's own error if it answered one (R135 (b), (e), R161). -/
def Obligations.ReadAgreesWithReadBytes : Prop :=
  ∀ (offset count : Nat) (s t : State) (new : List Event) (r : Response),
    exec (.read offset count) s = .next t → t.trace = s.trace ++ new ++ [.respond r] →
      ∃ (u : State) (new' : List Event) (vs : List Byte),
        vs.length ≤ count ∧ (r = ⟨.ok, vs.length⟩ ∨ (vs.length < count ∧ isError r.status = true)) ∧
        repeatReadByte (min count (vs.length + 1)) s = .next u ∧ u.trace = s.trace ++ new' ∧
        storesIn new = bulkStores offset vs ∧ storesIn new' = [] ∧
        responsesIn new' = vs.map (fun v => ⟨.ok, v.toNat⟩) ++
          (if vs.length = count then [] else [if r.status = .ok then ⟨.endOfStream, 0⟩ else r]) ∧
        bytesIn new = bytesIn new' ∧ requestsIn new = requestsIn new' ∧
        { u with activity := t.activity, buf := t.buf, trace := t.trace } = t

/-- Round trip: for any tree with an internal root and any text whose symbols have codes in it, packing the codes under
the core's own bit order and reading them back reproduces the text, at `offset` in BUF, whatever padding bits follow the
last code and whatever follows in the source (R150). The padding convention is open (R79): `pad` is any list of bits, and
that `packed` puts zeros where the bits and `pad` leave the last byte unfilled (log 21) is one convention among them. -/
def Obligations.PackedTextRoundTrips : Prop :=
  ∀ (offset : Nat) (s : State) (T : Tree) (text : List (List Bool × Byte)) (pad : List Bool) (more : List Nat),
    s.sess = .opened → s.bitpos = 0 → s.prefixTree = some T → s.rootInternal = true →
    (∀ c ∈ text, IsCode T c.1 c.2) → offset + text.length ≤ s.cfg.bufSize →
    (∀ n, s.cfg.bitLimit = some n → s.bitcnt + (text.flatMap Prod.fst).length ≤ n) →
    s.answers =
        (packed s.cfg.msbFirst (text.flatMap Prod.fst ++ pad)).map (fun b => encodeAnswer (.byte b)) ++ more →
      ∃ (t : State) (mid : List Event),
        exec (.read offset text.length) s = .next t ∧ t.activity = .idle ∧
        t.trace = s.trace ++ mid ++ [.respond ⟨.ok, text.length⟩] ∧
        t.bitcnt = s.bitcnt + (text.flatMap Prod.fst).length ∧
        ∀ (k : Nat) (c : List Bool × Byte), text[k]? = some c → Memory.read t.buf (offset + k) = some c.2

/-! ### Whole-machine rules -/

/-- A command that falls silent in a fetch and is answered later ends exactly as if the source had answered at once:
where the answers come late is not observable (R8, R43, R54). -/
def Obligations.BlockingIsTransparent : Prop :=
  ∀ (i : Instr) (s t : State) (c : Pending) (later : List Nat), s.rst = false →
    exec i s = .next t → t.activity = .blocked c →
      t.answers = [] ∧ step { t with answers := later } = exec i { s with answers := s.answers ++ later }

/-- No step writes TREE, the parameters or the presence inputs, and the source is only read forward: without a reset the
cursor moves by one for each byte fetched in the step (R3, R33, R41, R46, R53); with one, RequestedResetRule says how. -/
def Obligations.StepsNeverWriteTheTree : Prop :=
  ∀ s t : State, step s = .next t →
    t.tree = s.tree ∧ t.cfg = s.cfg ∧ t.srcPresent = s.srcPresent ∧ t.treePresent = s.treePresent ∧
    t.answers <:+ s.answers ∧ s.srcCursor ≤ t.srcCursor ∧
    (s.rst = false → ∃ new : List Event,
      t.trace = s.trace ++ new ∧ t.srcCursor = s.srcCursor + (bytesIn new).length)

/-- Only a READ stores to BUF: a step that changes it takes the command word of a READ or goes on with one (R47). -/
def Obligations.OnlyReadStores : Prop :=
  ∀ s t : State, step s = .next t → t.buf ≠ s.buf →
    (s.activity = .idle ∧ ∃ w rest, s.cmds = w :: rest ∧ w % 2 ^ 8 = 0x03) ∨
    ∃ offset count n, s.activity = .running (.read offset count n) ∨ s.activity = .blocked (.read offset count n)

/-- A step that takes a command word, or goes on with a command, gives exactly one response when the command ends, after
every other transfer of it, and none while it does not end (R54 (c), R71, R160). -/
def Obligations.EveryCommandGetsOneResponse : Prop :=
  ∀ s t : State, s.rst = false → (s.activity ≠ .idle ∨ s.cmds ≠ []) → step s = .next t →
    ∃ mid : List Event, responsesIn mid = [] ∧
      (t.activity = .idle ∧ (∃ r : Response, t.trace = s.trace ++ mid ++ [.respond r]) ∨
        t.activity ≠ .idle ∧ t.trace = s.trace ++ mid)

/-- The session's fault record: a step that gives an error response sets it, and nothing but a successful OPEN, which
begins another session, clears it (R181; the record is the model's own, log 8). -/
def Obligations.ErrorResponsesAreRecorded : Prop :=
  ∀ (s t : State) (new : List Event), step s = .next t → t.trace = s.trace ++ new →
    ((∃ r ∈ responsesIn new, isError r.status = true) → t.errored = true) ∧
    (s.errored = true → t.errored = true ∨ (s.sess = .closed ∧ t.sess = .opened))

/-- When `BIT_LIMIT = none` no output depends on `bitcnt`: two runs of any command that differ in it alone end alike and
differ in it alone (R23). -/
def Obligations.BitCountIsInertWithoutALimit : Prop :=
  ∀ (i : Instr) (s : State) (k : Nat), s.cfg.bitLimit = none →
    match exec i s, exec i { s with bitcnt := k } with
    | .next t, .next u => { u with bitcnt := t.bitcnt } = t
    | .fault f, .fault g => f = g
    | .refused r, .refused r' => r = r'
    | _, _ => False

/-- The value of `cur` at a byte boundary, and so its unspecified value after a reset, is never used: two runs of any
command that differ in it alone end alike, with the same `cur` as soon as a bit of a byte is in hand (R21, R34). -/
def Obligations.StaleByteIsNeverUsed : Prop :=
  ∀ (i : Instr) (s : State) (c : Byte), s.bitpos = 0 →
    match exec i s, exec i { s with cur := c } with
    | .next t, .next u => { u with cur := t.cur } = t ∧ (t.bitpos ≠ 0 → u.cur = t.cur)
    | .fault f, .fault g => f = g
    | .refused r, .refused r' => r = r'
    | _, _ => False

/-- Nothing of a symbol survives into the next command: two runs of any command that differ only in `node` and `symbits`
end alike and differ in these two alone, and after a READ_BYTE, or a READ of at least one symbol, not even there (R36). -/
def Obligations.PreviousSymbolIsNeverUsed : Prop :=
  ∀ (i : Instr) (s : State) (n k : Nat),
    match exec i s, exec i { s with node := n, symbits := k } with
    | .next t, .next u =>
      { u with node := t.node, symbits := t.symbits } = t ∧
      ((∃ a b, i = .readByte a b) ∨ (∃ offset count, i = .read offset count ∧ 1 ≤ count) → u = t)
    | .fault f, .fault g => f = g
    | .refused r, .refused r' => r = r'
    | _, _ => False

/-- Every response fits its word: the data has `DW` bits (R71, R73). -/
def Obligations.ResponsesFitTheirWord : Prop :=
  ∀ (s t : State) (new : List Event), s.Inv → step s = .next t → t.trace = s.trace ++ new →
    ∀ r ∈ responsesIn new, r.wf s.cfg

/-- A tree load while a session is open is refused (R46). While none is open the builder may load another tree (R57,
R187), and that a load then replaces the whole arena and nothing else is the model's reading (log 19). -/
def Obligations.TreeLoadInASessionIsRefused : Prop :=
  ∀ (words : List Nat) (s : State),
    (s.sess = .opened → applyInput (.loadTree words) s = .refused .treeWriteInSession) ∧
    (s.sess = .closed → applyInput (.loadTree words) s = .next { s with tree := words })
end

