-- ==== Sys2Proof/Laws/Encoding.lean ====
section
/-! SUPPORT. The fields of the words of Decode.lean. -/

namespace Sys2Proof

theorem opField_commandWord (aw a b : Nat) {op : Nat} (hop : op < 2 ^ 8) :
    opField (commandWord aw op a b) = op := by
  unfold opField commandWord
  omega

theorem aField_commandWord (aw op b : Nat) {a : Nat} (hop : op < 2 ^ 8) (ha : a < 2 ^ aw) :
    aField aw (commandWord aw op a b) = a := by
  unfold aField commandWord
  rw [show (op + 2 ^ 8 * (a + 2 ^ aw * b)) / 2 ^ 8 = a + 2 ^ aw * b by omega,
    Nat.add_mul_mod_self_left, Nat.mod_eq_of_lt ha]

theorem bField_commandWord (aw op a : Nat) {b : Nat} (hop : op < 2 ^ 8) (ha : a < 2 ^ aw) (hb : b < 2 ^ aw) :
    bField aw (commandWord aw op a b) = b := by
  unfold bField commandWord
  rw [show (op + 2 ^ 8 * (a + 2 ^ aw * b)) / 2 ^ 8 = a + 2 ^ aw * b by omega,
    Nat.add_mul_div_left _ _ (Nat.two_pow_pos aw), Nat.div_eq_of_lt ha, Nat.zero_add, Nat.mod_eq_of_lt hb]

/-- A word that fits its width is put together again from its fields. -/
theorem commandWord_fields (aw : Nat) {w : Nat} (hw : w < 2 ^ (8 + 2 * aw)) :
    commandWord aw (opField w) (aField aw w) (bField aw w) = w := by
  unfold commandWord opField aField bField
  have hb : w / 2 ^ 8 / 2 ^ aw < 2 ^ aw := by
    rw [Nat.div_div_eq_div_mul, ← pow_add]
    apply Nat.div_lt_of_lt_mul
    rw [← pow_add]
    calc w < 2 ^ (8 + 2 * aw) := hw
      _ = 2 ^ (8 + aw + aw) := by congr 1; omega
  rw [Nat.mod_eq_of_lt hb, Nat.mod_add_div, Nat.mod_add_div]

theorem aField_lt (aw w : Nat) : aField aw w < 2 ^ aw := Nat.mod_lt _ (Nat.two_pow_pos aw)

theorem bField_lt (aw w : Nat) : bField aw w < 2 ^ aw := Nat.mod_lt _ (Nat.two_pow_pos aw)

/-- A command word fits its width when its fields do. -/
theorem commandWord_lt {aw op a b : Nat} (hop : op < 2 ^ 8) (ha : a < 2 ^ aw) (hb : b < 2 ^ aw) :
    commandWord aw op a b < 2 ^ (8 + 2 * aw) := by
  unfold commandWord
  have hinner : a + 2 ^ aw * b < 2 ^ aw * 2 ^ aw :=
    calc a + 2 ^ aw * b < 2 ^ aw + 2 ^ aw * b := by omega
      _ = 2 ^ aw * (b + 1) := by ring
      _ ≤ 2 ^ aw * 2 ^ aw := Nat.mul_le_mul_left _ hb
  calc op + 2 ^ 8 * (a + 2 ^ aw * b) < 2 ^ 8 * (2 ^ aw * 2 ^ aw) := by omega
    _ = 2 ^ (8 + 2 * aw) := by rw [← pow_add, ← pow_add]; congr 1; omega

theorem Status.ofCode_code (st : Status) : Status.ofCode st.code = some st := by cases st <;> rfl

theorem Status.code_lt (st : Status) : st.code < 2 ^ 4 := by cases st <;> decide

/-- Eight bits come from a byte. -/
@[simp] theorem length_byteBits (msbFirst : Bool) (c : Byte) : (byteBits msbFirst c).length = 8 := by
  simp [byteBits]

/-- The bits of a byte from a delivery position on: the one there, then the rest. -/
theorem byteBits_drop (msbFirst : Bool) (c : Byte) (k : Fin 8) :
    (byteBits msbFirst c).drop k.val = bitOf msbFirst c k :: (byteBits msbFirst c).drop (k.val + 1) := by
  rw [List.drop_eq_getElem_cons (by simp [k.isLt])]
  simp [byteBits]

end Sys2Proof
end

