-- ==== Sys2Proof/Laws/Memory.lean ====
section
/-! SUPPORT. The buffer memory: read after write, and the canonical form every write keeps. -/

namespace Sys2Proof.Machine

theorem Memory.read_write_same (m : List Host.Cell) (a : Nat) (v : Byte) :
    Memory.read (Memory.write m a v) a = some v := by
  induction m with
  | nil => simp [Memory.write, Memory.read]
  | cons c rest ih =>
    obtain ⟨b, w⟩ := c
    simp only [Memory.write]
    split_ifs with hlt heq
    · simp [Memory.read]
    · simp [Memory.read]
    · simpa [Memory.read, heq] using ih

theorem Memory.read_write_other (m : List Host.Cell) {a x : Nat} (v : Byte) (hx : x ≠ a) :
    Memory.read (Memory.write m a v) x = Memory.read m x := by
  induction m with
  | nil => simp [Memory.write, Memory.read, hx]
  | cons c rest ih =>
    obtain ⟨b, w⟩ := c
    simp only [Memory.write]
    split_ifs with hlt heq
    · simp [Memory.read, hx]
    · subst heq; simp [Memory.read, hx]
    · simp [Memory.read, ih]

/-- Every address a write lists was listed or is the address written. -/
theorem Memory.mem_write {m : List Host.Cell} {a : Nat} {v : Byte} {x : Host.Cell}
    (hx : x ∈ Memory.write m a v) : x ∈ m ∨ x.1 = a := by
  induction m with
  | nil => simp_all [Memory.write]
  | cons c rest ih =>
    obtain ⟨b, w⟩ := c
    simp only [Memory.write] at hx
    split_ifs at hx with hlt heq
    · rcases List.mem_cons.1 hx with rfl | h
      · exact .inr rfl
      · exact .inl h
    · rcases List.mem_cons.1 hx with rfl | h
      · exact .inr rfl
      · exact .inl (List.mem_cons_of_mem _ h)
    · rcases List.mem_cons.1 hx with rfl | h
      · exact .inl List.mem_cons_self
      · exact (ih h).imp (List.mem_cons_of_mem _) id

theorem Memory.write_wf {m : List Host.Cell} (a : Nat) (v : Byte) (hm : Memory.wf m) :
    Memory.wf (Memory.write m a v) := by
  induction m with
  | nil => simp [Memory.write, Memory.wf]
  | cons c rest ih =>
    obtain ⟨b, w⟩ := c
    obtain ⟨hb, hrest⟩ := List.pairwise_cons.1 hm
    simp only [Memory.write]
    split_ifs with hlt heq
    · refine List.pairwise_cons.2 ⟨fun x hx => ?_, hm⟩
      rcases List.mem_cons.1 hx with rfl | h
      · exact hlt
      · exact hlt.trans (hb x h)
    · subst heq; exact List.pairwise_cons.2 ⟨hb, hrest⟩
    · refine List.pairwise_cons.2 ⟨fun x hx => ?_, ih hrest⟩
      rcases Memory.mem_write hx with h | h
      · exact hb x h
      · show b < x.1
        omega

theorem reset_memory_wf : Memory.wf State.reset.buf := List.Pairwise.nil

/-- Two canonical memories that read alike are the same list. -/
theorem Memory.wf_ext {m m' : List Host.Cell} (hm : Memory.wf m) (hm' : Memory.wf m')
    (h : ∀ a, Memory.read m a = Memory.read m' a) : m = m' := by
  have unlisted : ∀ {l : List Host.Cell} {a : Nat}, (∀ x ∈ l, a < x.1) → Memory.read l a = none := by
    intro l a hl
    induction l with
    | nil => rfl
    | cons c rest ih =>
      have hc := hl c List.mem_cons_self
      simp only [Memory.read]
      rw [if_neg (by omega)]
      exact ih fun x hx => hl x (List.mem_cons_of_mem _ hx)
  induction m generalizing m' with
  | nil =>
    cases m' with
    | nil => rfl
    | cons c' r' => have := h c'.1; simp [Memory.read] at this
  | cons c r ih =>
    cases m' with
    | nil => have := h c.1; simp [Memory.read] at this
    | cons c' r' =>
      obtain ⟨hb, hr⟩ := List.pairwise_cons.1 hm
      obtain ⟨hb', hr'⟩ := List.pairwise_cons.1 hm'
      have hkey : c.1 = c'.1 := by
        rcases lt_trichotomy c.1 c'.1 with hlt | heq | hgt
        · have := h c.1
          rw [unlisted (l := c' :: r') (a := c.1)] at this
          · simp [Memory.read] at this
          · intro x hx
            rcases List.mem_cons.1 hx with rfl | hx
            · exact hlt
            · exact hlt.trans (hb' x hx)
        · exact heq
        · have := h c'.1
          rw [unlisted (l := c :: r) (a := c'.1)] at this
          · simp [Memory.read] at this
          · intro x hx
            rcases List.mem_cons.1 hx with rfl | hx
            · exact hgt
            · exact hgt.trans (hb x hx)
      have hval : c.2 = c'.2 := by
        have := h c.1
        simpa [Memory.read, hkey] using this
      have htail : r = r' := ih hr hr' fun a => by
        by_cases ha : a = c.1
        · rw [ha, unlisted hb, hkey, unlisted hb']
        · have := h a
          have ha' : a ≠ c'.1 := hkey ▸ ha
          simpa [Memory.read, ha, ha'] using this
      rw [htail, Prod.ext hkey hval]

/-- The bytes `writeBytes` stores can be read back, and every other address reads as before. -/
theorem Memory.read_writeBytes (m : List Host.Cell) (offset : Nat) (vs : List Byte) (a : Nat) :
    Memory.read (writeBytes m offset vs) a =
      if offset ≤ a ∧ a < offset + vs.length then vs[a - offset]? else Memory.read m a := by
  induction vs generalizing m offset with
  | nil =>
    simp only [writeBytes, List.length_nil]
    rw [if_neg (by omega)]
  | cons v rest ih =>
    simp only [writeBytes, ih, List.length_cons]
    by_cases ha : a = offset
    · subst ha
      rw [if_neg (by omega), if_pos (by omega), Memory.read_write_same]
      simp
    · rw [Memory.read_write_other _ _ ha]
      by_cases hin : offset ≤ a ∧ a < offset + (rest.length + 1)
      · rw [if_pos (by omega), if_pos hin]
        obtain ⟨k, rfl⟩ : ∃ k, a = offset + 1 + k := ⟨a - (offset + 1), by omega⟩
        rw [show offset + 1 + k - (offset + 1) = k by omega, show offset + 1 + k - offset = k + 1 by omega]
        simp
      · rw [if_neg (by omega), if_neg hin]

theorem Memory.writeBytes_wf {m : List Host.Cell} (offset : Nat) (vs : List Byte) (hm : Memory.wf m) :
    Memory.wf (writeBytes m offset vs) := by
  induction vs generalizing m offset with
  | nil => exact hm
  | cons v rest ih => exact ih _ (Memory.write_wf _ _ hm)

end Sys2Proof.Machine
end

