-- ==== Sys2Proof/Laws/State.lean ====
section
/-! SUPPORT. What each named update leaves in each field of the state: one lemma for each field, true by definition. -/

namespace Sys2Proof.Machine

/-! ### The fields after appending a transfer -/

@[simp] theorem State.log_cur (s : State) (e : Event) : (s.log e).cur = s.cur := rfl
@[simp] theorem State.log_bitpos (s : State) (e : Event) : (s.log e).bitpos = s.bitpos := rfl
@[simp] theorem State.log_bitcnt (s : State) (e : Event) : (s.log e).bitcnt = s.bitcnt := rfl
@[simp] theorem State.log_node (s : State) (e : Event) : (s.log e).node = s.node := rfl
@[simp] theorem State.log_symbits (s : State) (e : Event) : (s.log e).symbits = s.symbits := rfl
@[simp] theorem State.log_sess (s : State) (e : Event) : (s.log e).sess = s.sess := rfl
@[simp] theorem State.log_activity (s : State) (e : Event) : (s.log e).activity = s.activity := rfl
@[simp] theorem State.log_srcPresent (s : State) (e : Event) : (s.log e).srcPresent = s.srcPresent := rfl
@[simp] theorem State.log_treePresent (s : State) (e : Event) : (s.log e).treePresent = s.treePresent := rfl
@[simp] theorem State.log_rst (s : State) (e : Event) : (s.log e).rst = s.rst := rfl
@[simp] theorem State.log_cmds (s : State) (e : Event) : (s.log e).cmds = s.cmds := rfl
@[simp] theorem State.log_answers (s : State) (e : Event) : (s.log e).answers = s.answers := rfl
@[simp] theorem State.log_srcCursor (s : State) (e : Event) : (s.log e).srcCursor = s.srcCursor := rfl
@[simp] theorem State.log_tree (s : State) (e : Event) : (s.log e).tree = s.tree := rfl
@[simp] theorem State.log_buf (s : State) (e : Event) : (s.log e).buf = s.buf := rfl
@[simp] theorem State.log_cfg (s : State) (e : Event) : (s.log e).cfg = s.cfg := rfl
@[simp] theorem State.log_trace (s : State) (e : Event) : (s.log e).trace = s.trace ++ [e] := rfl
@[simp] theorem State.log_errored (s : State) (e : Event) : (s.log e).errored = s.errored := rfl
@[simp] theorem State.log_srcBase (s : State) (e : Event) : (s.log e).srcBase = s.srcBase := rfl
@[simp] theorem State.log_draws (s : State) (e : Event) : (s.log e).draws = s.draws := rfl
@[simp] theorem State.log_nodes (s : State) (e : Event) : (s.log e).nodes = s.nodes := rfl
@[simp] theorem State.log_nodeAt (s : State) (e : Event) (i : Nat) : (s.log e).nodeAt i = s.nodeAt i := rfl

/-! ### The fields after the response -/

@[simp] theorem respond_cur (s : State) (r : Response) : (respond r s).cur = s.cur := rfl
@[simp] theorem respond_bitpos (s : State) (r : Response) : (respond r s).bitpos = s.bitpos := rfl
@[simp] theorem respond_bitcnt (s : State) (r : Response) : (respond r s).bitcnt = s.bitcnt := rfl
@[simp] theorem respond_node (s : State) (r : Response) : (respond r s).node = s.node := rfl
@[simp] theorem respond_symbits (s : State) (r : Response) : (respond r s).symbits = s.symbits := rfl
@[simp] theorem respond_sess (s : State) (r : Response) : (respond r s).sess = s.sess := rfl
@[simp] theorem respond_activity (s : State) (r : Response) : (respond r s).activity = .idle := rfl
@[simp] theorem respond_srcPresent (s : State) (r : Response) : (respond r s).srcPresent = s.srcPresent := rfl
@[simp] theorem respond_treePresent (s : State) (r : Response) : (respond r s).treePresent = s.treePresent := rfl
@[simp] theorem respond_rst (s : State) (r : Response) : (respond r s).rst = s.rst := rfl
@[simp] theorem respond_cmds (s : State) (r : Response) : (respond r s).cmds = s.cmds := rfl
@[simp] theorem respond_answers (s : State) (r : Response) : (respond r s).answers = s.answers := rfl
@[simp] theorem respond_srcCursor (s : State) (r : Response) : (respond r s).srcCursor = s.srcCursor := rfl
@[simp] theorem respond_tree (s : State) (r : Response) : (respond r s).tree = s.tree := rfl
@[simp] theorem respond_buf (s : State) (r : Response) : (respond r s).buf = s.buf := rfl
@[simp] theorem respond_cfg (s : State) (r : Response) : (respond r s).cfg = s.cfg := rfl
@[simp] theorem respond_trace (s : State) (r : Response) : (respond r s).trace = s.trace ++ [.respond r] := rfl
@[simp] theorem respond_errored (s : State) (r : Response) : (respond r s).errored = (s.errored || isError r.status) := rfl
@[simp] theorem respond_srcBase (s : State) (r : Response) : (respond r s).srcBase = s.srcBase := rfl
@[simp] theorem respond_draws (s : State) (r : Response) : (respond r s).draws = s.draws := rfl
@[simp] theorem respond_nodes (s : State) (r : Response) : (respond r s).nodes = s.nodes := rfl
@[simp] theorem respond_nodeAt (s : State) (r : Response) (i : Nat) : (respond r s).nodeAt i = s.nodeAt i := rfl

/-! ### The fields after the raising of an error -/

@[simp] theorem raise_cur (s : State) (k : ErrorKind) : (raise k s).cur = s.cur := rfl
@[simp] theorem raise_bitpos (s : State) (k : ErrorKind) : (raise k s).bitpos = s.bitpos := rfl
@[simp] theorem raise_bitcnt (s : State) (k : ErrorKind) : (raise k s).bitcnt = s.bitcnt := rfl
@[simp] theorem raise_node (s : State) (k : ErrorKind) : (raise k s).node = s.node := rfl
@[simp] theorem raise_symbits (s : State) (k : ErrorKind) : (raise k s).symbits = s.symbits := rfl
@[simp] theorem raise_sess (s : State) (k : ErrorKind) : (raise k s).sess = s.sess := rfl
@[simp] theorem raise_activity (s : State) (k : ErrorKind) : (raise k s).activity = .idle := rfl
@[simp] theorem raise_srcPresent (s : State) (k : ErrorKind) : (raise k s).srcPresent = s.srcPresent := rfl
@[simp] theorem raise_treePresent (s : State) (k : ErrorKind) : (raise k s).treePresent = s.treePresent := rfl
@[simp] theorem raise_rst (s : State) (k : ErrorKind) : (raise k s).rst = s.rst := rfl
@[simp] theorem raise_cmds (s : State) (k : ErrorKind) : (raise k s).cmds = s.cmds := rfl
@[simp] theorem raise_answers (s : State) (k : ErrorKind) : (raise k s).answers = s.answers := rfl
@[simp] theorem raise_srcCursor (s : State) (k : ErrorKind) : (raise k s).srcCursor = s.srcCursor := rfl
@[simp] theorem raise_tree (s : State) (k : ErrorKind) : (raise k s).tree = s.tree := rfl
@[simp] theorem raise_buf (s : State) (k : ErrorKind) : (raise k s).buf = s.buf := rfl
@[simp] theorem raise_cfg (s : State) (k : ErrorKind) : (raise k s).cfg = s.cfg := rfl
@[simp] theorem raise_trace (s : State) (k : ErrorKind) : (raise k s).trace = s.trace ++ [.respond (errorResponse k)] := rfl
@[simp] theorem raise_errored (s : State) (k : ErrorKind) : (raise k s).errored = (s.errored || isError (errorResponse k).status) := rfl
@[simp] theorem raise_srcBase (s : State) (k : ErrorKind) : (raise k s).srcBase = s.srcBase := rfl
@[simp] theorem raise_draws (s : State) (k : ErrorKind) : (raise k s).draws = s.draws := rfl
@[simp] theorem raise_nodes (s : State) (k : ErrorKind) : (raise k s).nodes = s.nodes := rfl
@[simp] theorem raise_nodeAt (s : State) (k : ErrorKind) (i : Nat) : (raise k s).nodeAt i = s.nodeAt i := rfl

/-! ### The fields after the suspension of a command -/

@[simp] theorem suspend_cur (s : State) (a : Activity) : (suspend a s).cur = s.cur := rfl
@[simp] theorem suspend_bitpos (s : State) (a : Activity) : (suspend a s).bitpos = s.bitpos := rfl
@[simp] theorem suspend_bitcnt (s : State) (a : Activity) : (suspend a s).bitcnt = s.bitcnt := rfl
@[simp] theorem suspend_node (s : State) (a : Activity) : (suspend a s).node = s.node := rfl
@[simp] theorem suspend_symbits (s : State) (a : Activity) : (suspend a s).symbits = s.symbits := rfl
@[simp] theorem suspend_sess (s : State) (a : Activity) : (suspend a s).sess = s.sess := rfl
@[simp] theorem suspend_activity (s : State) (a : Activity) : (suspend a s).activity = a := rfl
@[simp] theorem suspend_srcPresent (s : State) (a : Activity) : (suspend a s).srcPresent = s.srcPresent := rfl
@[simp] theorem suspend_treePresent (s : State) (a : Activity) : (suspend a s).treePresent = s.treePresent := rfl
@[simp] theorem suspend_rst (s : State) (a : Activity) : (suspend a s).rst = s.rst := rfl
@[simp] theorem suspend_cmds (s : State) (a : Activity) : (suspend a s).cmds = s.cmds := rfl
@[simp] theorem suspend_answers (s : State) (a : Activity) : (suspend a s).answers = s.answers := rfl
@[simp] theorem suspend_srcCursor (s : State) (a : Activity) : (suspend a s).srcCursor = s.srcCursor := rfl
@[simp] theorem suspend_tree (s : State) (a : Activity) : (suspend a s).tree = s.tree := rfl
@[simp] theorem suspend_buf (s : State) (a : Activity) : (suspend a s).buf = s.buf := rfl
@[simp] theorem suspend_cfg (s : State) (a : Activity) : (suspend a s).cfg = s.cfg := rfl
@[simp] theorem suspend_trace (s : State) (a : Activity) : (suspend a s).trace = s.trace := rfl
@[simp] theorem suspend_errored (s : State) (a : Activity) : (suspend a s).errored = s.errored := rfl
@[simp] theorem suspend_srcBase (s : State) (a : Activity) : (suspend a s).srcBase = s.srcBase := rfl
@[simp] theorem suspend_draws (s : State) (a : Activity) : (suspend a s).draws = s.draws := rfl
@[simp] theorem suspend_nodes (s : State) (a : Activity) : (suspend a s).nodes = s.nodes := rfl
@[simp] theorem suspend_nodeAt (s : State) (a : Activity) (i : Nat) : (suspend a s).nodeAt i = s.nodeAt i := rfl

/-! ### The fields after the acceptance of a command -/

@[simp] theorem acceptCommand_cur (s : State) (w : Nat) (rest : List Nat) : (acceptCommand w rest s).cur = s.cur := rfl
@[simp] theorem acceptCommand_bitpos (s : State) (w : Nat) (rest : List Nat) : (acceptCommand w rest s).bitpos = s.bitpos := rfl
@[simp] theorem acceptCommand_bitcnt (s : State) (w : Nat) (rest : List Nat) : (acceptCommand w rest s).bitcnt = s.bitcnt := rfl
@[simp] theorem acceptCommand_node (s : State) (w : Nat) (rest : List Nat) : (acceptCommand w rest s).node = s.node := rfl
@[simp] theorem acceptCommand_symbits (s : State) (w : Nat) (rest : List Nat) : (acceptCommand w rest s).symbits = s.symbits := rfl
@[simp] theorem acceptCommand_sess (s : State) (w : Nat) (rest : List Nat) : (acceptCommand w rest s).sess = s.sess := rfl
@[simp] theorem acceptCommand_activity (s : State) (w : Nat) (rest : List Nat) : (acceptCommand w rest s).activity = s.activity := rfl
@[simp] theorem acceptCommand_srcPresent (s : State) (w : Nat) (rest : List Nat) : (acceptCommand w rest s).srcPresent = s.srcPresent := rfl
@[simp] theorem acceptCommand_treePresent (s : State) (w : Nat) (rest : List Nat) : (acceptCommand w rest s).treePresent = s.treePresent := rfl
@[simp] theorem acceptCommand_rst (s : State) (w : Nat) (rest : List Nat) : (acceptCommand w rest s).rst = s.rst := rfl
@[simp] theorem acceptCommand_cmds (s : State) (w : Nat) (rest : List Nat) : (acceptCommand w rest s).cmds = rest := rfl
@[simp] theorem acceptCommand_answers (s : State) (w : Nat) (rest : List Nat) : (acceptCommand w rest s).answers = s.answers := rfl
@[simp] theorem acceptCommand_srcCursor (s : State) (w : Nat) (rest : List Nat) : (acceptCommand w rest s).srcCursor = s.srcCursor := rfl
@[simp] theorem acceptCommand_tree (s : State) (w : Nat) (rest : List Nat) : (acceptCommand w rest s).tree = s.tree := rfl
@[simp] theorem acceptCommand_buf (s : State) (w : Nat) (rest : List Nat) : (acceptCommand w rest s).buf = s.buf := rfl
@[simp] theorem acceptCommand_cfg (s : State) (w : Nat) (rest : List Nat) : (acceptCommand w rest s).cfg = s.cfg := rfl
@[simp] theorem acceptCommand_trace (s : State) (w : Nat) (rest : List Nat) : (acceptCommand w rest s).trace = s.trace ++ [.command w] := rfl
@[simp] theorem acceptCommand_errored (s : State) (w : Nat) (rest : List Nat) : (acceptCommand w rest s).errored = s.errored := rfl
@[simp] theorem acceptCommand_srcBase (s : State) (w : Nat) (rest : List Nat) : (acceptCommand w rest s).srcBase = s.srcBase := rfl
@[simp] theorem acceptCommand_draws (s : State) (w : Nat) (rest : List Nat) : (acceptCommand w rest s).draws = s.draws := rfl
@[simp] theorem acceptCommand_nodes (s : State) (w : Nat) (rest : List Nat) : (acceptCommand w rest s).nodes = s.nodes := rfl
@[simp] theorem acceptCommand_nodeAt (s : State) (w : Nat) (rest : List Nat) (i : Nat) : (acceptCommand w rest s).nodeAt i = s.nodeAt i := rfl

/-! ### The fields after DEC_RESET -/

@[simp] theorem decReset_cur (s : State) : (decReset s).cur = s.cur := rfl
@[simp] theorem decReset_bitpos (s : State) : (decReset s).bitpos = s.bitpos := rfl
@[simp] theorem decReset_bitcnt (s : State) : (decReset s).bitcnt = s.bitcnt := rfl
@[simp] theorem decReset_node (s : State) : (decReset s).node = root := rfl
@[simp] theorem decReset_symbits (s : State) : (decReset s).symbits = s.symbits := rfl
@[simp] theorem decReset_sess (s : State) : (decReset s).sess = s.sess := rfl
@[simp] theorem decReset_activity (s : State) : (decReset s).activity = s.activity := rfl
@[simp] theorem decReset_srcPresent (s : State) : (decReset s).srcPresent = s.srcPresent := rfl
@[simp] theorem decReset_treePresent (s : State) : (decReset s).treePresent = s.treePresent := rfl
@[simp] theorem decReset_rst (s : State) : (decReset s).rst = s.rst := rfl
@[simp] theorem decReset_cmds (s : State) : (decReset s).cmds = s.cmds := rfl
@[simp] theorem decReset_answers (s : State) : (decReset s).answers = s.answers := rfl
@[simp] theorem decReset_srcCursor (s : State) : (decReset s).srcCursor = s.srcCursor := rfl
@[simp] theorem decReset_tree (s : State) : (decReset s).tree = s.tree := rfl
@[simp] theorem decReset_buf (s : State) : (decReset s).buf = s.buf := rfl
@[simp] theorem decReset_cfg (s : State) : (decReset s).cfg = s.cfg := rfl
@[simp] theorem decReset_trace (s : State) : (decReset s).trace = s.trace := rfl
@[simp] theorem decReset_errored (s : State) : (decReset s).errored = s.errored := rfl
@[simp] theorem decReset_srcBase (s : State) : (decReset s).srcBase = s.srcBase := rfl
@[simp] theorem decReset_draws (s : State) : (decReset s).draws = s.draws := rfl
@[simp] theorem decReset_nodes (s : State) : (decReset s).nodes = s.nodes := rfl
@[simp] theorem decReset_nodeAt (s : State) (i : Nat) : (decReset s).nodeAt i = s.nodeAt i := rfl

/-! ### The fields after the beginning of a session -/

@[simp] theorem beginSession_cur (s : State) : (beginSession s).cur = s.cur := rfl
@[simp] theorem beginSession_bitpos (s : State) : (beginSession s).bitpos = 0 := rfl
@[simp] theorem beginSession_bitcnt (s : State) : (beginSession s).bitcnt = 0 := rfl
@[simp] theorem beginSession_node (s : State) : (beginSession s).node = root := rfl
@[simp] theorem beginSession_symbits (s : State) : (beginSession s).symbits = 0 := rfl
@[simp] theorem beginSession_sess (s : State) : (beginSession s).sess = .opened := rfl
@[simp] theorem beginSession_activity (s : State) : (beginSession s).activity = s.activity := rfl
@[simp] theorem beginSession_srcPresent (s : State) : (beginSession s).srcPresent = s.srcPresent := rfl
@[simp] theorem beginSession_treePresent (s : State) : (beginSession s).treePresent = s.treePresent := rfl
@[simp] theorem beginSession_rst (s : State) : (beginSession s).rst = s.rst := rfl
@[simp] theorem beginSession_cmds (s : State) : (beginSession s).cmds = s.cmds := rfl
@[simp] theorem beginSession_answers (s : State) : (beginSession s).answers = s.answers := rfl
@[simp] theorem beginSession_srcCursor (s : State) : (beginSession s).srcCursor = s.srcCursor := rfl
@[simp] theorem beginSession_tree (s : State) : (beginSession s).tree = s.tree := rfl
@[simp] theorem beginSession_buf (s : State) : (beginSession s).buf = s.buf := rfl
@[simp] theorem beginSession_cfg (s : State) : (beginSession s).cfg = s.cfg := rfl
@[simp] theorem beginSession_trace (s : State) : (beginSession s).trace = s.trace := rfl
@[simp] theorem beginSession_errored (s : State) : (beginSession s).errored = false := rfl
@[simp] theorem beginSession_srcBase (s : State) : (beginSession s).srcBase = s.srcCursor := rfl
@[simp] theorem beginSession_draws (s : State) : (beginSession s).draws = s.draws := rfl
@[simp] theorem beginSession_nodes (s : State) : (beginSession s).nodes = s.nodes := rfl
@[simp] theorem beginSession_nodeAt (s : State) (i : Nat) : (beginSession s).nodeAt i = s.nodeAt i := rfl

end Sys2Proof.Machine
end

