-- ==== Sys2Proof/Laws/Ops.lean ====
section
/-! SUPPORT. What the shared operations can do: sequencing of results, the source, the tree memory and its primitives. -/

namespace Sys2Proof.Machine

/-! ### Sequencing -/

@[simp] theorem Result.ok_andThen {α β : Type} (a : α) (s : State) (k : α → State → Result β) :
    (Result.ok a s).andThen k = k a s := rfl

@[simp] theorem Result.fault_andThen {α β : Type} (r : Fault) (k : α → State → Result β) :
    (Result.fault r : Result α).andThen k = .fault r := rfl

@[simp] theorem Result.refused_andThen {α β : Type} (r : Refusal) (k : α → State → Result β) :
    (Result.refused r : Result α).andThen k = .refused r := rfl

@[simp] theorem Result.ok_finish {α : Type} (a : α) (s : State)
    (k : α → State → Host.Outcome State Fault Refusal) : (Result.ok a s).finish k = k a s := rfl

@[simp] theorem Result.fault_finish {α : Type} (r : Fault) (k : α → State → Host.Outcome State Fault Refusal) :
    (Result.fault r : Result α).finish k = .fault r := rfl

@[simp] theorem Result.refused_finish {α : Type} (r : Refusal) (k : α → State → Host.Outcome State Fault Refusal) :
    (Result.refused r : Result α).finish k = .refused r := rfl

theorem Result.andThen_eq_ok {α β : Type} {x : Result α} {k : α → State → Result β} {b : β} {t : State} :
    x.andThen k = .ok b t ↔ ∃ a s, x = .ok a s ∧ k a s = .ok b t := by
  cases x <;> simp [Result.andThen]

theorem Result.finish_eq_next {α : Type} {x : Result α} {k : α → State → Host.Outcome State Fault Refusal}
    {t : State} : x.finish k = .next t ↔ ∃ a s, x = .ok a s ∧ k a s = .next t := by
  cases x <;> simp [Result.finish]

theorem Result.andThen_assoc {α β γ : Type} (x : Result α) (k : α → State → Result β) (l : β → State → Result γ) :
    (x.andThen k).andThen l = x.andThen fun a s => (k a s).andThen l := by
  cases x <;> rfl

theorem Result.andThen_finish {α β : Type} (x : Result α) (k : α → State → Result β)
    (l : β → State → Host.Outcome State Fault Refusal) :
    (x.andThen k).finish l = x.finish fun a s => (k a s).finish l := by
  cases x <;> rfl

/-! ### The byte source -/

/-- The four things a wait for the source's answer can come to (R42, R75). -/
theorem takeAnswer_cases (s : State) :
    (s.answers = [] ∧ takeAnswer s = .ok none s) ∨
    (∃ w rest b, s.answers = w :: rest ∧ decodeAnswer s.cfg.iow w = some (.byte b) ∧
      takeAnswer s = .ok (some (.byte b))
        ({ s with answers := rest, srcCursor := s.srcCursor + 1 }.log (.fetchAnswer (.byte b)))) ∨
    (∃ w rest, s.answers = w :: rest ∧ decodeAnswer s.cfg.iow w = some .atEnd ∧
      takeAnswer s = .ok (some .atEnd) ({ s with answers := rest }.log (.fetchAnswer .atEnd))) ∨
    (∃ w rest e, s.answers = w :: rest ∧ decodeAnswer s.cfg.iow w = some (.fail e) ∧
      takeAnswer s = .ok (some (.fail e)) ({ s with answers := rest }.log (.fetchAnswer (.fail e)))) ∨
    (∃ w rest, s.answers = w :: rest ∧ decodeAnswer s.cfg.iow w = none ∧ takeAnswer s = .refused .reservedAnswer) := by
  unfold takeAnswer
  cases hs : s.answers with
  | nil => simp
  | cons w rest =>
    cases hd : decodeAnswer s.cfg.iow w with
    | none => simp [hd]
    | some ans => cases ans <;> simp [hd]

theorem decodeAnswer_eq_none {iow w : Nat} : decodeAnswer iow w = none ↔ w % 2 ^ 2 = 3 := by
  unfold decodeAnswer
  have : w % 2 ^ 2 < 4 := Nat.mod_lt _ (by decide)
  split <;> rename_i h <;> simp_all
  omega

@[simp] theorem decodeAnswer_encode_byte (iow : Nat) (b : Byte) :
    decodeAnswer iow (encodeAnswer (.byte b)) = some (.byte b) := by
  simp [decodeAnswer, encodeAnswer]

@[simp] theorem decodeAnswer_encode_atEnd (iow : Nat) : decodeAnswer iow (encodeAnswer .atEnd) = some .atEnd := rfl

/-- A failure code has `IOW` bits (R42). -/
theorem decodeAnswer_fail_lt {iow w e : Nat} (h : decodeAnswer iow w = some (.fail e)) : e < 2 ^ iow := by
  unfold decodeAnswer at h
  split at h <;> simp at h
  exact h ▸ Nat.mod_lt _ (Nat.two_pow_pos _)

/-! ### The buffer -/

/-- A store that answers a next state stored one byte inside the buffer, and its canonical form is kept (R47). -/
theorem storeBuf_eq_ok {a : Nat} {v : Byte} {s t : State} (h : storeBuf a v s = .ok () t) :
    a < s.cfg.bufSize ∧ t = { s with buf := Memory.write s.buf a v }.log (.store a v) ∧
      (Memory.wf s.buf → Memory.wf t.buf) := by
  unfold storeBuf at h
  split_ifs at h with hb
  injection h with _ h
  subst h
  exact ⟨hb, rfl, Memory.write_wf a v⟩

/-! ### The tree memory and its primitives -/

theorem readTree_of_nodeAt {s : State} {i : Nat} {n : Node} (h : s.nodeAt i = some n) :
    readTree i s = .ok n (s.log (.treeRead i)) := by
  simp [readTree, h]

theorem readTree_of_absent {s : State} {i : Nat} (h : s.nodeAt i = none) :
    readTree i s = .fault (.treeIndexAbsent i) := by
  simp [readTree, h]

theorem nodeAt_isSome {s : State} {i : Nat} : (s.nodeAt i).isSome = true ↔ i < s.nodes := by
  simp [State.nodeAt, State.nodes]

theorem nodeAt_of_lt {s : State} {i : Nat} (h : i < s.nodes) : ∃ n, s.nodeAt i = some n :=
  Option.isSome_iff_exists.1 (nodeAt_isSome.2 h)

theorem lt_of_nodeAt {s : State} {i : Nat} {n : Node} (h : s.nodeAt i = some n) : i < s.nodes :=
  nodeAt_isSome.1 (by simp [h])

theorem nodeAt_of_ge {s : State} {i : Nat} (h : s.nodes ≤ i) : s.nodeAt i = none := by
  rcases hn : s.nodeAt i with _ | n
  · rfl
  · exact absurd (lt_of_nodeAt hn) (by omega)

theorem nodeAt_congr {s t : State} (htree : t.tree = s.tree) (hcfg : t.cfg = s.cfg) (i : Nat) :
    t.nodeAt i = s.nodeAt i := by
  simp [State.nodeAt, htree, hcfg]

theorem child_of_nodeAt {s : State} {i : Nat} {n : Node} (h : s.nodeAt i = some n) (bit : Bool) :
    child i bit s = .ok (childIndex s.nodes bit n) (s.log (.treeRead i)) := by
  simp [child, readTree_of_nodeAt h]

/-- A child is an index of the arena (R45). -/
theorem childIndex_lt {nodes c : Nat} {bit : Bool} {n : Node} (h : childIndex nodes bit n = some c) : c < nodes := by
  cases n with
  | leaf v => simp [childIndex] at h
  | internal c0 c1 => simp only [childIndex] at h; split_ifs at h <;> simp_all

theorem isLeaf_of_nodeAt {s : State} {i : Nat} {n : Node} (h : s.nodeAt i = some n) :
    isLeaf i s = .ok (isLeafNode n) (s.log (.treeRead i)) := by
  simp [isLeaf, readTree_of_nodeAt h]

theorem symbol_of_leaf {s : State} {i : Nat} {v : Byte} (h : s.nodeAt i = some (.leaf v)) :
    symbol i s = .ok v (s.log (.treeRead i)) := by
  simp [symbol, readTree_of_nodeAt h]

theorem walk_cons {s : State} {i c : Nat} {n : Node} {b : Bool} (rest : List Bool) (h : s.nodeAt i = some n)
    (hc : childIndex s.nodes b n = some c) : s.walk i (b :: rest) = s.walk c rest := by
  simp [State.walk, h, hc]

/-- A walk's first bit goes to a child (R101). -/
theorem walk_cons_inv {s : State} {i j : Nat} {b : Bool} {rest : List Bool} (h : s.walk i (b :: rest) = some j) :
    ∃ n c, s.nodeAt i = some n ∧ childIndex s.nodes b n = some c ∧ s.walk c rest = some j := by
  obtain ⟨c, hnc, hw⟩ := Option.bind_eq_some_iff.1 h
  obtain ⟨n, hn, hc⟩ := Option.bind_eq_some_iff.1 hnc
  exact ⟨n, c, hn, hc, hw⟩

theorem walk_append (s : State) (i : Nat) (p q : List Bool) :
    s.walk i (p ++ q) = (s.walk i p).bind fun j => s.walk j q := by
  induction p generalizing i with
  | nil => simp [State.walk]
  | cons b rest ih => simp [State.walk, ih, Option.bind_assoc]

theorem walk_congr {s t : State} (htree : t.tree = s.tree) (hcfg : t.cfg = s.cfg) (i : Nat) (p : List Bool) :
    t.walk i p = s.walk i p := by
  induction p generalizing i with
  | nil => rfl
  | cons b rest ih => simp only [State.walk, nodeAt_congr htree hcfg, ih, State.nodes, htree]

/-- A walk stays inside the arena. -/
theorem walk_lt {s : State} {i j : Nat} {p : List Bool} (hi : i < s.nodes) (h : s.walk i p = some j) :
    j < s.nodes := by
  induction p generalizing i with
  | nil => simp only [State.walk, Option.some.injEq] at h; omega
  | cons b rest ih =>
    obtain ⟨n, c, _, hc, hw⟩ := walk_cons_inv h
    exact ih (childIndex_lt hc) hw

end Sys2Proof.Machine
end

