-- ==== Sys2Proof/Laws/Advance.lean ====
section
/-! SUPPORT. What every operation inside the body of READ_BYTE keeps: `Advance s t`, and that each of them, and the whole
body, advances. -/

namespace Sys2Proof.Machine

/-! ### Views of a longer trace -/

@[simp] theorem responsesIn_append (x y : List Event) : responsesIn (x ++ y) = responsesIn x ++ responsesIn y := by
  simp [responsesIn]

@[simp] theorem storesIn_append (x y : List Event) : storesIn (x ++ y) = storesIn x ++ storesIn y := by
  simp [storesIn]

@[simp] theorem bytesIn_append (x y : List Event) : bytesIn (x ++ y) = bytesIn x ++ bytesIn y := by
  simp [bytesIn]

@[simp] theorem requestsIn_append (x y : List Event) : requestsIn (x ++ y) = requestsIn x + requestsIn y := by
  simp [requestsIn]

@[simp] theorem treeReadsIn_append (x y : List Event) : treeReadsIn (x ++ y) = treeReadsIn x + treeReadsIn y := by
  simp [treeReadsIn]

/-! ### The relation -/

/-- From `s` to `t` only the BitReader's and the decoder's elements, the source and the trace have changed; the source
went forward; and the transfers were fetches and tree reads. -/
structure Advance (s t : State) : Prop where
  frame : t = { s with
    cur := t.cur, bitpos := t.bitpos, bitcnt := t.bitcnt, node := t.node, symbits := t.symbits,
    answers := t.answers, srcCursor := t.srcCursor, trace := t.trace }
  forward : t.answers <:+ s.answers
  transfers : ∃ mid, t.trace = s.trace ++ mid ∧ responsesIn mid = [] ∧ storesIn mid = [] ∧
    t.srcCursor = s.srcCursor + (bytesIn mid).length

theorem Advance.refl (s : State) : Advance s s :=
  ⟨rfl, List.suffix_refl _, [], by simp [responsesIn, storesIn, bytesIn]⟩

theorem Advance.trans {s t u : State} (h : Advance s t) (k : Advance t u) : Advance s u := by
  obtain ⟨m, hm, hr, hs, hb⟩ := h.transfers
  obtain ⟨m', hm', hr', hs', hb'⟩ := k.transfers
  refine ⟨?_, k.forward.trans h.forward, m ++ m', by simp [hm', hm], by simp [hr, hr'], by simp [hs, hs'], ?_⟩
  · rw [k.frame, h.frame]
  · simp [hb', hb, Nat.add_assoc]

section fields
variable {s t : State} (h : Advance s t)
include h

theorem Advance.sess : t.sess = s.sess := by rw [h.frame]
theorem Advance.activity : t.activity = s.activity := by rw [h.frame]
theorem Advance.srcPresent : t.srcPresent = s.srcPresent := by rw [h.frame]
theorem Advance.treePresent : t.treePresent = s.treePresent := by rw [h.frame]
theorem Advance.rst : t.rst = s.rst := by rw [h.frame]
theorem Advance.cmds : t.cmds = s.cmds := by rw [h.frame]
theorem Advance.tree : t.tree = s.tree := by rw [h.frame]
theorem Advance.buf : t.buf = s.buf := by rw [h.frame]
theorem Advance.cfg : t.cfg = s.cfg := by rw [h.frame]
theorem Advance.errored : t.errored = s.errored := by rw [h.frame]
theorem Advance.srcBase : t.srcBase = s.srcBase := by rw [h.frame]
theorem Advance.draws : t.draws = s.draws := by rw [h.frame]
theorem Advance.nodes : t.nodes = s.nodes := by rw [State.nodes, h.tree]; rfl
theorem Advance.nodeAt (i : Nat) : t.nodeAt i = s.nodeAt i := nodeAt_congr h.tree h.cfg i
theorem Advance.walk (i : Nat) (p : List Bool) : t.walk i p = s.walk i p := walk_congr h.tree h.cfg i p

end fields

/-- A change of the cursors alone. -/
theorem Advance.ofCursors (s : State) (cur : Byte) (bitpos : Fin 8) (bitcnt node symbits : Nat) :
    Advance s { s with cur := cur, bitpos := bitpos, bitcnt := bitcnt, node := node, symbits := symbits } :=
  ⟨rfl, List.suffix_refl _, [], by simp [responsesIn, storesIn, bytesIn]⟩

/-- A fetch request or a tree read. -/
theorem Advance.ofLog (s : State) {e : Event} (hr : responsesIn [e] = []) (hs : storesIn [e] = [])
    (hb : bytesIn [e] = []) : Advance s (s.log e) :=
  ⟨rfl, List.suffix_refl _, [e], by simp [hr, hs, hb]⟩

theorem Advance.ofRequest (s : State) : Advance s (s.log .fetchRequest) := .ofLog s rfl rfl rfl

theorem Advance.ofTreeRead (s : State) (i : Nat) : Advance s (s.log (.treeRead i)) := .ofLog s rfl rfl rfl

/-! ### Every operation of the body advances -/

theorem takeAnswer_advance {s t : State} {ans : Option Answer} (h : takeAnswer s = .ok ans t) : Advance s t := by
  rcases takeAnswer_cases s with ⟨_, e⟩ | ⟨w, rest, b, ha, _, e⟩ | ⟨w, rest, ha, _, e⟩ | ⟨w, rest, k, ha, _, e⟩ |
    ⟨_, _, _, _, e⟩ <;> rw [e] at h <;> simp only [Result.ok.injEq, reduceCtorEq] at h <;> obtain ⟨-, rfl⟩ := h
  · exact .refl s
  · exact ⟨rfl, ha ▸ List.suffix_cons _ _, [.fetchAnswer (.byte b)], rfl, rfl, rfl, rfl⟩
  · exact ⟨rfl, ha ▸ List.suffix_cons _ _, [.fetchAnswer .atEnd], rfl, rfl, rfl, rfl⟩
  · exact ⟨rfl, ha ▸ List.suffix_cons _ _, [.fetchAnswer (.fail k)], rfl, rfl, rfl, rfl⟩

theorem deliverBit_advance {s t : State} {r : BitResult} (h : deliverBit s = .ok r t) : Advance s t := by
  simp only [deliverBit, Result.ok.injEq] at h
  obtain ⟨-, rfl⟩ := h
  exact .ofCursors s s.cur _ _ _ _

theorem awaitBit_advance {s t : State} {r : BitResult} (h : awaitBit s = .ok r t) : Advance s t := by
  obtain ⟨ans, s1, h1, h2⟩ := Result.andThen_eq_ok.1 h
  have ha := takeAnswer_advance h1
  rcases ans with _ | _ | _ | _
  · simp only [Result.ok.injEq] at h2; exact h2.2 ▸ ha
  · exact ha.trans ((Advance.ofCursors s1 _ _ _ _ _).trans (deliverBit_advance h2))
  · simp only [Result.ok.injEq] at h2; exact h2.2 ▸ ha
  · simp only [Result.ok.injEq] at h2; exact h2.2 ▸ ha

theorem nextBit_advance {s t : State} {r : BitResult} (h : nextBit s = .ok r t) : Advance s t := by
  unfold nextBit at h
  split_ifs at h
  · simp only [Result.ok.injEq] at h; exact h.2 ▸ .refl s
  · exact (Advance.ofRequest s).trans (awaitBit_advance h)
  · exact deliverBit_advance h

theorem readTree_advance {s t : State} {i : Nat} {n : Node} (h : readTree i s = .ok n t) : Advance s t := by
  unfold readTree at h
  split at h
  · simp only [Result.ok.injEq] at h; exact h.2 ▸ .ofTreeRead s i
  · simp at h

theorem push_advance {s t : State} {b : Bool} {p : Pushed} (h : push b s = .ok p t) : Advance s t := by
  obtain ⟨c, s1, h1, h2⟩ := Result.andThen_eq_ok.1 h
  obtain ⟨n, s2, h3, h4⟩ := Result.andThen_eq_ok.1 h1
  simp only [Result.ok.injEq] at h4
  have ha : Advance s s1 := h4.2 ▸ readTree_advance h3
  rcases c with _ | c <;> simp only [Result.ok.injEq] at h2
  · exact h2.2 ▸ ha
  · exact h2.2 ▸ ha.trans (.ofCursors s1 s1.cur s1.bitpos s1.bitcnt c s1.symbits)

theorem hasValue_advance {s t : State} {b : Bool} (h : hasValue s = .ok b t) : Advance s t := by
  obtain ⟨n, s1, h1, h2⟩ := Result.andThen_eq_ok.1 h
  simp only [Result.ok.injEq] at h2
  exact h2.2 ▸ readTree_advance h1

theorem value_advance {s t : State} {v : Byte} (h : value s = .ok v t) : Advance s t := by
  obtain ⟨n, s1, h1, h2⟩ := Result.andThen_eq_ok.1 h
  cases n <;> simp only [Result.ok.injEq, reduceCtorEq] at h2
  exact h2.2 ▸ readTree_advance h1

theorem pushBit_advance {s t : State} {b : Bool} {e : Option SymbolResult} (h : pushBit b s = .ok e t) :
    Advance s t := by
  obtain ⟨p, s1, h1, h2⟩ := Result.andThen_eq_ok.1 h
  have ha := push_advance h1
  cases p
  · obtain ⟨has, s2, h3, h4⟩ := Result.andThen_eq_ok.1 h2
    have hb := (ha.trans (.ofCursors s1 s1.cur s1.bitpos s1.bitcnt s1.node (s1.symbits + 1))).trans
      (hasValue_advance h3)
    cases has
    · simp only [Result.ok.injEq] at h4; exact h4.2 ▸ hb
    · obtain ⟨v, s3, h5, h6⟩ := Result.andThen_eq_ok.1 h4
      simp only [Result.ok.injEq] at h6
      exact h6.2 ▸ hb.trans (value_advance h5)
  · simp only [Result.ok.injEq] at h2; exact h2.2 ▸ ha

theorem symbolStep_advance {s t : State} {r : BitResult} {e : Option SymbolResult} (h : symbolStep r s = .ok e t) :
    Advance s t := by
  cases r
  · exact pushBit_advance h
  all_goals simp only [symbolStep, Result.ok.injEq] at h; exact h.2 ▸ .refl s

theorem symbolLoop_advance {fuel : Nat} {s t : State} {r : SymbolResult} (h : symbolLoop fuel s = .ok r t) :
    Advance s t := by
  induction fuel generalizing s with
  | zero => simp only [symbolLoop, Result.ok.injEq] at h; exact h.2 ▸ .refl s
  | succ fuel ih =>
    obtain ⟨b, s1, h1, h2⟩ := Result.andThen_eq_ok.1 h
    obtain ⟨e, s2, h3, h4⟩ := Result.andThen_eq_ok.1 h2
    have ha := (nextBit_advance h1).trans (symbolStep_advance h3)
    rcases e with _ | e
    · exact ha.trans (ih h4)
    · simp only [Result.ok.injEq] at h4; exact h4.2 ▸ ha

theorem readByteStep_advance {s t : State} {r : SymbolResult} (h : readByteStep s = .ok r t) : Advance s t :=
  (Advance.ofCursors s s.cur s.bitpos s.bitcnt root 0).trans (symbolLoop_advance h)

theorem continueSymbol_advance {s t : State} {r : SymbolResult} (h : continueSymbol s = .ok r t) : Advance s t :=
  symbolLoop_advance h

theorem resumeSymbol_advance {s t : State} {r : SymbolResult} (h : resumeSymbol s = .ok r t) : Advance s t := by
  obtain ⟨b, s1, h1, h2⟩ := Result.andThen_eq_ok.1 h
  obtain ⟨e, s2, h3, h4⟩ := Result.andThen_eq_ok.1 h2
  have ha := (awaitBit_advance h1).trans (symbolStep_advance h3)
  rcases e with _ | e
  · exact ha.trans (continueSymbol_advance h4)
  · simp only [Result.ok.injEq] at h4; exact h4.2 ▸ ha

end Sys2Proof.Machine
end

