-- ==== Sys2Proof/Laws/BitReader.lean ====
section
/-! SUPPORT. NEXTBIT against the bits a session can still deliver: while there is one it is delivered, and afterwards
NEXTBIT meets what `bitsEnd` says. -/

namespace Sys2Proof.Machine

theorem limitReached_iff {s : State} : s.limitReached = true ↔ s.cfg.bitLimit = some s.bitcnt := by
  simp [State.limitReached]

theorem limitReached_false_iff {s : State} : s.limitReached = false ↔ s.cfg.bitLimit ≠ some s.bitcnt := by
  simp [State.limitReached]

/-- The bits in hand after one more was delivered from position `k`. -/
theorem bitsInHand_succ (msbFirst : Bool) (c : Byte) (k : Fin 8) :
    (if k + 1 = 0 then [] else (byteBits msbFirst c).drop (k + 1).val) = (byteBits msbFirst c).drop (k.val + 1) := by
  by_cases hk : k = 7
  · subst hk
    rw [if_pos (by decide), List.drop_of_length_le (by simp)]
  · have hv : (k + 1).val = k.val + 1 := by
      rw [Fin.val_add_one_of_lt (Fin.lt_last_iff_ne_last.2 hk)]
    have hne : k + 1 ≠ 0 := fun h0 => by
      have : (k + 1).val = 0 := by rw [h0]; rfl
      omega
    rw [if_neg hne, hv]

theorem leadingBytes_cons {iow w : Nat} {b : Byte} (rest : List Nat) (h : decodeAnswer iow w = some (.byte b)) :
    leadingBytes iow (w :: rest) = b :: leadingBytes iow rest := by
  simp [leadingBytes, h]

theorem afterBytes_cons {iow w : Nat} {b : Byte} (rest : List Nat) (h : decodeAnswer iow w = some (.byte b)) :
    afterBytes iow (w :: rest) = afterBytes iow rest := by
  simp [afterBytes, h]

theorem leadingBytes_eq_cons {iow : Nat} {answers : List Nat} {b : Byte} {bs : List Byte}
    (h : leadingBytes iow answers = b :: bs) :
    ∃ w rest, answers = w :: rest ∧ decodeAnswer iow w = some (.byte b) ∧ leadingBytes iow rest = bs := by
  cases answers with
  | nil => simp [leadingBytes] at h
  | cons w rest =>
    simp only [leadingBytes] at h
    split at h
    · rename_i c hc
      simp only [List.cons.injEq] at h
      exact ⟨w, rest, rfl, h.1 ▸ hc, h.2⟩
    · simp at h

theorem afterBytes_of_no_byte {iow : Nat} {answers : List Nat} (h : leadingBytes iow answers = []) :
    afterBytes iow answers = answers := by
  cases answers with
  | nil => rfl
  | cons w rest =>
    simp only [leadingBytes] at h
    split at h
    · simp at h
    · rename_i hc
      simp only [afterBytes]

/-- One delivered bit: what NEXTBIT, or the rest of it after its request, leaves. -/
structure BitTaken (s t : State) (raw : List Bool) : Prop where
  advance : Advance s t
  rawBits : t.rawBits = raw
  after : afterBytes t.cfg.iow t.answers = afterBytes s.cfg.iow s.answers
  bitcnt : t.bitcnt = s.bitcnt + 1
  bitpos : t.bitpos = s.bitpos + 1
  node : t.node = s.node
  symbits : t.symbits = s.symbits

/-- A bit of the current byte is delivered without a fetch (R92). -/
theorem deliverBit_taken {s : State} {b : Bool} {raw : List Bool}
    (h : (byteBits s.cfg.msbFirst s.cur).drop s.bitpos.val ++
      (leadingBytes s.cfg.iow s.answers).flatMap (byteBits s.cfg.msbFirst) = b :: raw) :
    ∃ t, deliverBit s = .ok (.bit b) t ∧ BitTaken s t raw ∧ t.trace = s.trace := by
  rw [byteBits_drop, List.cons_append, List.cons.injEq] at h
  obtain ⟨hb, hraw⟩ := h
  refine ⟨{ s with bitpos := s.bitpos + 1, bitcnt := s.bitcnt + 1 }, by rw [deliverBit, hb],
    ⟨.ofCursors s s.cur _ _ s.node s.symbits, ?_, rfl, rfl, rfl, rfl, rfl⟩, rfl⟩
  simp only [State.rawBits, State.bitsInHand, bitsInHand_succ]
  exact hraw

/-- A fetched byte's first bit is delivered. -/
theorem awaitBit_taken {s : State} {b : Bool} {raw : List Bool} (hpos : s.bitpos = 0)
    (h : s.rawBits = b :: raw) :
    ∃ t, awaitBit s = .ok (.bit b) t ∧ BitTaken s t raw ∧
      ∃ c, t.trace = s.trace ++ [.fetchAnswer (.byte c)] := by
  simp only [State.rawBits, State.bitsInHand, hpos, if_true, List.nil_append] at h
  cases hl : leadingBytes s.cfg.iow s.answers with
  | nil => simp [hl] at h
  | cons c lb =>
    obtain ⟨w, rest, ha, hd, hrest⟩ := leadingBytes_eq_cons hl
    have htake : takeAnswer s = .ok (some (.byte c))
        ({ s with answers := rest, srcCursor := s.srcCursor + 1 }.log (.fetchAnswer (.byte c))) := by
      simp [takeAnswer, ha, hd]
    obtain ⟨t, ht, htaken, htr⟩ := deliverBit_taken (s := { ({ s with answers := rest, srcCursor := s.srcCursor + 1 }.log (.fetchAnswer (.byte c))) with cur := c })
      (b := b) (raw := raw) (by
        simp only [State.log_cfg, State.log_bitpos, State.log_answers, hpos, hrest]
        simpa [hl] using h)
    refine ⟨t, by rw [awaitBit, htake]; exact ht, ⟨?_, htaken.rawBits, ?_, htaken.bitcnt, htaken.bitpos,
      htaken.node, htaken.symbits⟩, c, htr⟩
    · exact (takeAnswer_advance htake).trans ((Advance.ofCursors _ _ _ _ _ _).trans htaken.advance)
    · rw [htaken.after, ha, afterBytes_cons rest hd]; rfl

/-- While there is a raw bit and the limit is not reached, NEXTBIT delivers it, with one fetch at a byte boundary and
none elsewhere (R90, R92). -/
theorem nextBit_taken {s : State} {b : Bool} {raw : List Bool} (hlimit : s.limitReached = false)
    (h : s.rawBits = b :: raw) :
    ∃ t, nextBit s = .ok (.bit b) t ∧ BitTaken s t raw ∧
      ∃ mid, t.trace = s.trace ++ mid ∧ treeReadsIn mid = 0 ∧ requestsIn mid = (bytesIn mid).length ∧
        requestsIn mid = if s.bitpos = 0 then 1 else 0 := by
  by_cases hpos : s.bitpos = 0
  · obtain ⟨t, ht, hk, c, htr⟩ := awaitBit_taken (s := s.log .fetchRequest) hpos h
    refine ⟨t, ?_, ⟨(Advance.ofRequest s).trans hk.advance, hk.rawBits, hk.after, hk.bitcnt, hk.bitpos, hk.node,
      hk.symbits⟩, [.fetchRequest, .fetchAnswer (.byte c)], ?_, rfl, rfl, by rw [if_pos hpos]; rfl⟩
    · rw [nextBit, hlimit, if_neg (by decide), if_pos hpos, ht]
    · rw [htr]; simp
  · obtain ⟨t, ht, hk, htr⟩ := deliverBit_taken (s := s) (b := b) (raw := raw) (by
      simpa [State.rawBits, State.bitsInHand, hpos] using h)
    refine ⟨t, ?_, hk, [], by simp [htr], rfl, rfl, by rw [if_neg hpos]; rfl⟩
    rw [nextBit, hlimit, if_neg (by decide), if_neg hpos, ht]

/-- The first deliverable bit is the first raw bit, with the limit not reached. -/
theorem deliverable_cons {s : State} {b : Bool} {bs : List Bool} (h : s.deliverable = b :: bs) :
    s.limitReached = false ∧ ∃ raw, s.rawBits = b :: raw ∧
      ∀ t, BitTaken s t raw → t.deliverable = bs ∧ t.bitsEnd = s.bitsEnd := by
  have key : s.limitReached = false ∧ ∃ raw, s.rawBits = b :: raw ∧ ∀ t, BitTaken s t raw → t.deliverable = bs := by
    unfold State.deliverable at h
    split at h
    · rename_i hnone
      refine ⟨limitReached_false_iff.2 (by simp [hnone]), bs, h, fun t ht => ?_⟩
      simp [State.deliverable, ht.advance.cfg, hnone, ht.rawBits]
    · rename_i n hsome
      cases hraw : s.rawBits with
      | nil => simp [hraw] at h
      | cons b' raw =>
        obtain ⟨m, hm⟩ : ∃ m, n - s.bitcnt = m + 1 :=
          ⟨n - s.bitcnt - 1, by
            have : n - s.bitcnt ≠ 0 := fun h0 => by simp [h0] at h
            omega⟩
        rw [hraw, hm, List.take_succ_cons, List.cons.injEq] at h
        refine ⟨limitReached_false_iff.2 (by rw [hsome]; simp; omega), raw, by rw [h.1], fun t ht => ?_⟩
        rw [State.deliverable, ht.advance.cfg, hsome]
        simp only [ht.rawBits, ht.bitcnt]
        rw [show n - (s.bitcnt + 1) = m by omega, h.2]
  obtain ⟨hl, raw, hraw, hall⟩ := key
  refine ⟨hl, raw, hraw, fun t ht => ⟨hall t ht, ?_⟩⟩
  rw [State.bitsEnd, State.bitsEnd, ht.after, hall t ht, h, ht.advance.cfg, ht.bitcnt, List.length_cons,
    show s.bitcnt + 1 + bs.length = s.bitcnt + (bs.length + 1) by omega]

/-- While there is a deliverable bit, NEXTBIT delivers it (R91). -/
theorem nextBit_of_deliverable {s : State} {b : Bool} {bs : List Bool} (h : s.deliverable = b :: bs) :
    ∃ t, nextBit s = .ok (.bit b) t ∧ t.deliverable = bs ∧ t.bitsEnd = s.bitsEnd ∧
      (∃ raw, BitTaken s t raw) ∧
      ∃ mid, t.trace = s.trace ++ mid ∧ treeReadsIn mid = 0 ∧ requestsIn mid = (bytesIn mid).length := by
  obtain ⟨hl, raw, hraw, hall⟩ := deliverable_cons h
  obtain ⟨t, ht, htaken, mid, hm, h0, h1, _⟩ := nextBit_taken hl hraw
  exact ⟨t, ht, (hall t htaken).1, (hall t htaken).2, ⟨raw, htaken⟩, mid, hm, h0, h1⟩

/-- Without a deliverable bit the limit is reached, or the core stands at a byte boundary and the source's next answer
is no byte. -/
theorem deliverable_nil {s : State} (hlim : ∀ n, s.cfg.bitLimit = some n → s.bitcnt ≤ n) (h : s.deliverable = []) :
    (s.limitReached = true ∧ s.bitsEnd = .limit) ∨
    (s.limitReached = false ∧ s.bitpos = 0 ∧ leadingBytes s.cfg.iow s.answers = [] ∧
      s.bitsEnd = endOfAnswers s.cfg.iow s.answers) := by
  have hraw : s.rawBits = [] → s.bitpos = 0 ∧ leadingBytes s.cfg.iow s.answers = [] := by
    intro h0
    simp only [State.rawBits, List.append_eq_nil_iff, State.bitsInHand] at h0
    constructor
    · by_contra hpos
      rw [if_neg hpos, byteBits_drop] at h0
      exact absurd h0.1 (by simp)
    · cases hl : leadingBytes s.cfg.iow s.answers with
      | nil => rfl
      | cons c lb =>
        have := congrArg List.length h0.2
        simp [hl] at this
  by_cases hreach : s.limitReached = true
  · refine .inl ⟨hreach, ?_⟩
    rw [State.bitsEnd, if_pos]
    rw [h, limitReached_iff.1 hreach]
    rfl
  · rw [Bool.not_eq_true] at hreach
    have hne := limitReached_false_iff.1 hreach
    have h0 : s.rawBits = [] := by
      unfold State.deliverable at h
      split at h
      · exact h
      · rename_i n hsome
        have hle := hlim n hsome
        rcases List.take_eq_nil_iff.1 h with h | h
        · exact absurd (by rw [hsome]; congr 1; omega) hne
        · exact h
    obtain ⟨hpos, hlead⟩ := hraw h0
    refine .inr ⟨hreach, hpos, hlead, ?_⟩
    rw [State.bitsEnd, h, List.length_nil, Nat.add_zero, if_neg hne, afterBytes_of_no_byte hlead]

/-- The deliverable bits depend on the BitReader, the source and the parameters alone. -/
theorem deliverable_congr {s t : State} (hcfg : t.cfg = s.cfg) (hcur : t.cur = s.cur) (hpos : t.bitpos = s.bitpos)
    (hcnt : t.bitcnt = s.bitcnt) (hans : t.answers = s.answers) :
    t.deliverable = s.deliverable ∧ t.bitsEnd = s.bitsEnd := by
  have hd : t.deliverable = s.deliverable := by
    simp only [State.deliverable, State.rawBits, State.bitsInHand, hcfg, hcur, hpos, hcnt, hans]
  exact ⟨hd, by rw [State.bitsEnd, State.bitsEnd, hd, hcfg, hcnt, hans]⟩

/-- What NEXTBIT answers when no deliverable bit is left (R90, R93, R95). -/
theorem nextBit_at_end {s : State} (hlim : ∀ n, s.cfg.bitLimit = some n → s.bitcnt ≤ n) (h : s.deliverable = []) :
    (s.bitsEnd = .limit ∧ nextBit s = .ok .endOfInput s) ∨
    (s.bitpos = 0 ∧ s.limitReached = false ∧
      ((s.bitsEnd = .silence ∧ s.answers = [] ∧ nextBit s = .ok .blocked (s.log .fetchRequest)) ∨
      (s.bitsEnd = .sourceEnd ∧ ∃ w rest, s.answers = w :: rest ∧ nextBit s = .ok .endOfInput
        { s with answers := rest, trace := s.trace ++ [.fetchRequest, .fetchAnswer .atEnd] }) ∨
      (∃ e, s.bitsEnd = .sourceFail e ∧ ∃ w rest, s.answers = w :: rest ∧ nextBit s = .ok (.ioFailure e)
        { s with answers := rest, trace := s.trace ++ [.fetchRequest, .fetchAnswer (.fail e)] }) ∨
      (s.bitsEnd = .reserved ∧ nextBit s = .refused .reservedAnswer))) := by
  rcases deliverable_nil hlim h with ⟨hl, he⟩ | ⟨hl, hpos, hlead, he⟩
  · exact .inl ⟨he, by rw [nextBit, if_pos hl]⟩
  · refine .inr ⟨hpos, hl, ?_⟩
    have hnext : nextBit s = awaitBit (s.log .fetchRequest) := by
      rw [nextBit, hl, if_neg (by decide), if_pos hpos]
    rcases takeAnswer_cases (s.log .fetchRequest) with ⟨ha, e⟩ | ⟨w, rest, b, ha, hd, e⟩ | ⟨w, rest, ha, hd, e⟩ |
      ⟨w, rest, k, ha, hd, e⟩ | ⟨w, rest, ha, hd, e⟩ <;> simp only [State.log_answers] at ha
    · refine .inl ⟨by rw [he, ha]; rfl, ha, by rw [hnext, awaitBit, e]; rfl⟩
    · rw [State.log_cfg] at hd
      rw [ha, leadingBytes_cons rest hd] at hlead
      simp at hlead
    · refine .inr (.inl ⟨by rw [he, ha]; simp_all [endOfAnswers], w, rest, ha, ?_⟩)
      rw [hnext, awaitBit, e]
      simp [State.log]
    · refine .inr (.inr (.inl ⟨k, by rw [he, ha]; simp_all [endOfAnswers], w, rest, ha, ?_⟩))
      rw [hnext, awaitBit, e]
      simp [State.log]
    · refine .inr (.inr (.inr ⟨by rw [he, ha]; simp_all [endOfAnswers], ?_⟩))
      rw [hnext, awaitBit, e]
      rfl

end Sys2Proof.Machine
end

