-- ==== Sys2Proof/Laws/Stream.lean ====
section
/-! SUPPORT. The body of READ_BYTE against the bits and the tree: how it walks, how it ends, and that its fuel is enough. -/

namespace Sys2Proof.Machine

/-! ### PUSH, count, HASVALUE, VALUE -/

/-- A bit that has no child ends the symbol with DecodeError (R116). -/
theorem pushBit_noChild {s : State} {n : Node} {b : Bool} (hn : s.nodeAt s.node = some n)
    (hc : childIndex s.nodes b n = none) :
    pushBit b s = .ok (some (.error .decodeError)) (s.log (.treeRead s.node)) := by
  simp [pushBit, push, child_of_nodeAt hn, hc]

theorem push_moved {s : State} {n : Node} {b : Bool} {c : Nat} (hn : s.nodeAt s.node = some n)
    (hc : childIndex s.nodes b n = some c) :
    push b s = .ok .moved { s with node := c, trace := s.trace ++ [.treeRead s.node] } := by
  simp [push, child_of_nodeAt hn, hc, State.log]

theorem hasValue_of_nodeAt {s : State} {n : Node} (h : s.nodeAt s.node = some n) :
    hasValue s = .ok (isLeafNode n) (s.log (.treeRead s.node)) :=
  isLeaf_of_nodeAt h

theorem value_of_leaf {s : State} {v : Byte} (h : s.nodeAt s.node = some (.leaf v)) :
    value s = .ok v (s.log (.treeRead s.node)) := symbol_of_leaf h

/-- A bit to an internal node goes on (R134). -/
theorem pushBit_internal {s : State} {n : Node} {b : Bool} {c c0 c1 : Nat} (hn : s.nodeAt s.node = some n)
    (hc : childIndex s.nodes b n = some c) (hcn : s.nodeAt c = some (.internal c0 c1)) :
    pushBit b s = .ok none
      { s with node := c, symbits := s.symbits + 1, trace := s.trace ++ [.treeRead s.node, .treeRead c] } := by
  rw [pushBit, push_moved hn hc, Result.ok_andThen]
  simp only
  rw [hasValue_of_nodeAt (by exact hcn)]
  simp [State.log, isLeafNode]

/-- A bit to a leaf ends the symbol with the leaf's byte (R134). -/
theorem pushBit_leaf {s : State} {n : Node} {b : Bool} {c : Nat} {v : Byte} (hn : s.nodeAt s.node = some n)
    (hc : childIndex s.nodes b n = some c) (hcn : s.nodeAt c = some (.leaf v)) :
    pushBit b s = .ok (some (.byte v))
      { s with node := c, symbits := s.symbits + 1,
               trace := s.trace ++ [.treeRead s.node, .treeRead c, .treeRead c] } := by
  rw [pushBit, push_moved hn hc, Result.ok_andThen]
  simp only
  rw [hasValue_of_nodeAt (by exact hcn), Result.ok_andThen]
  simp only [isLeafNode]
  rw [value_of_leaf (by exact hcn)]
  simp [State.log]

theorem internal_of_childIndex {nodes c : Nat} {b : Bool} {n : Node} (h : childIndex nodes b n = some c) :
    ∃ c0 c1, n = .internal c0 c1 := by
  cases n with
  | leaf v => simp [childIndex] at h
  | internal c0 c1 => exact ⟨c0, c1, rfl⟩

/-! ### Walking -/

/-- `k` bits of a symbol have been delivered and pushed, with `reads` tree reads. -/
structure Walked (s t : State) (k reads : Nat) (rest : List Bool) : Prop where
  advance : Advance s t
  deliverable : t.deliverable = rest
  bitsEnd : t.bitsEnd = s.bitsEnd
  bitcnt : t.bitcnt = s.bitcnt + k
  bitpos : t.bitpos.val = (s.bitpos.val + k) % 8
  symbits : t.symbits = s.symbits + k
  accesses : ∃ mid, t.trace = s.trace ++ mid ∧ treeReadsIn mid = reads ∧ requestsIn mid = (bytesIn mid).length

theorem Walked.refl (s : State) : Walked s s 0 0 s.deliverable :=
  ⟨.refl s, rfl, rfl, rfl, (Nat.mod_eq_of_lt s.bitpos.isLt).symm, rfl, [], by simp [treeReadsIn, requestsIn, bytesIn]⟩

theorem Walked.trans {s t u : State} {k k' r r' : Nat} {x y : List Bool} (h : Walked s t k r x)
    (h' : Walked t u k' r' y) : Walked s u (k + k') (r + r') y := by
  obtain ⟨m, hm, hr, hq⟩ := h.accesses
  obtain ⟨m', hm', hr', hq'⟩ := h'.accesses
  refine ⟨h.advance.trans h'.advance, h'.deliverable, h'.bitsEnd.trans h.bitsEnd, ?_, ?_, ?_, m ++ m', ?_, ?_, ?_⟩
  · rw [h'.bitcnt, h.bitcnt]; omega
  · rw [h'.bitpos, h.bitpos]; omega
  · rw [h'.symbits, h.symbits]; omega
  · rw [hm', hm, List.append_assoc]
  · simp [hr, hr']
  · simp [hq, hq']

/-- One delivered bit, pushed to a child with `reads` tree reads. -/
theorem Walked.ofPush {s t : State} {raw rest : List Bool} {c reads : Nat} {mid log : List Event}
    (ht : BitTaken s t raw) (hd : t.deliverable = rest) (he : t.bitsEnd = s.bitsEnd)
    (hmid : t.trace = s.trace ++ mid) (h0 : treeReadsIn mid = 0) (hq : requestsIn mid = (bytesIn mid).length)
    (hlog : treeReadsIn log = reads) (hlogq : requestsIn log = 0) (hlogb : bytesIn log = [])
    (hlogr : responsesIn log = []) (hlogs : storesIn log = []) :
    Walked s { t with node := c, symbits := t.symbits + 1, trace := t.trace ++ log } 1 reads rest := by
  have hcongr := deliverable_congr
    (s := t) (t := { t with node := c, symbits := t.symbits + 1, trace := t.trace ++ log }) rfl rfl rfl rfl rfl
  refine ⟨ht.advance.trans ⟨rfl, List.suffix_refl _, log, rfl, hlogr, hlogs, by simp [hlogb]⟩,
    hcongr.1.trans hd, hcongr.2.trans he, ht.bitcnt, ?_, by simp [ht.symbits], mid ++ log, ?_, ?_, ?_⟩
  · show t.bitpos.val = _
    rw [ht.bitpos, Fin.val_add]; rfl
  · simp [hmid]
  · simp [h0, hlog]
  · simp [hq, hlogq, hlogb]

/-- The loop of READ_BYTE walks the tree along the delivered bits, as long as no leaf is reached (R134). -/
theorem symbolLoop_walk (p : List Bool) {s : State} {rest : List Bool} {j : Nat} (fuel : Nat)
    (hd : s.deliverable = p ++ rest) (hw : s.walk s.node p = some j)
    (hj : p ≠ [] → ∃ c0 c1, s.nodeAt j = some (.internal c0 c1)) :
    ∃ t, symbolLoop (p.length + fuel) s = symbolLoop fuel t ∧ Walked s t p.length (2 * p.length) rest ∧
      t.node = j := by
  induction p generalizing s with
  | nil =>
    simp only [State.walk, Option.some.injEq] at hw
    refine ⟨s, by simp, ?_, hw⟩
    have := Walked.refl s
    rwa [hd] at this
  | cons b p ih =>
    obtain ⟨n, c, hn, hc, hcw⟩ := walk_cons_inv hw
    obtain ⟨c0, c1, hcn⟩ : ∃ c0 c1, s.nodeAt c = some (.internal c0 c1) := by
      cases p with
      | nil =>
        simp only [State.walk, Option.some.injEq] at hcw
        exact hcw ▸ hj (by simp)
      | cons b' p' =>
        obtain ⟨n', c', hn', hc', _⟩ := walk_cons_inv hcw
        obtain ⟨c0, c1, rfl⟩ := internal_of_childIndex hc'
        exact ⟨c0, c1, hn'⟩
    obtain ⟨t, ht, htd, hte, ⟨raw, htaken⟩, mid, hmid, h0, hq⟩ := nextBit_of_deliverable hd
    have hpush := pushBit_internal (s := t) (b := b) (by rw [htaken.advance.nodeAt, htaken.node, hn])
      (by rw [htaken.advance.nodes, hc]) (by rw [htaken.advance.nodeAt, hcn])
    set u : State := { t with node := c, symbits := t.symbits + 1, trace := t.trace ++ [.treeRead t.node, .treeRead c] }
      with hu
    have hstep : Walked s u 1 2 (p ++ rest) :=
      .ofPush htaken htd hte hmid h0 hq rfl rfl rfl rfl rfl
    obtain ⟨x, hx, hwx, hnx⟩ := ih (s := u) hstep.deliverable
      (by rw [hstep.advance.walk]; exact hcw)
      (fun _ => by rw [hstep.advance.nodeAt]; exact hj (by simp))
    refine ⟨x, ?_, ?_, hnx⟩
    · rw [← hx, List.length_cons, show p.length + 1 + fuel = (p.length + fuel) + 1 by omega, symbolLoop, ht,
        Result.ok_andThen]
      simp only [symbolStep, hpush, Result.ok_andThen]
    · have := hstep.trans hwx
      rwa [List.length_cons, show p.length + 1 = 1 + p.length by omega, show 2 * (1 + p.length) = 2 + 2 * p.length by omega]

/-- The loop of READ_BYTE ends at the first leaf, with its byte (R134, R121). -/
theorem symbolLoop_code {code : List Bool} {s : State} {rest : List Bool} {j : Nat} {v : Byte} (fuel : Nat)
    (hd : s.deliverable = code ++ rest) (hw : s.walk s.node code = some j) (hj : s.nodeAt j = some (.leaf v))
    (hne : code ≠ []) :
    ∃ t, symbolLoop (code.length + fuel) s = .ok (.byte v) t ∧
      Walked s t code.length (2 * code.length + 1) rest ∧ t.node = j := by
  obtain ⟨q, b, rfl⟩ : ∃ q b, code = q ++ [b] := ⟨_, _, (List.dropLast_append_getLast hne).symm⟩
  rw [walk_append] at hw
  obtain ⟨i, hqi, hib⟩ := Option.bind_eq_some_iff.1 hw
  obtain ⟨n, c, hn, hc, hcj⟩ := walk_cons_inv hib
  obtain rfl : c = j := by simpa [State.walk] using hcj
  obtain ⟨c0, c1, rfl⟩ := internal_of_childIndex hc
  obtain ⟨t, ht, hwt, hnt⟩ := symbolLoop_walk q (rest := b :: rest) (fuel + 1) (by rw [hd]; simp) hqi
    (fun _ => ⟨c0, c1, hn⟩)
  obtain ⟨u, hu, hud, hue, ⟨raw, htaken⟩, mid, hmid, h0, hq⟩ := nextBit_of_deliverable hwt.deliverable
  have hpush := pushBit_leaf (s := u) (b := b)
    (by rw [htaken.advance.nodeAt, htaken.node, hwt.advance.nodeAt, hnt, hn])
    (by rw [htaken.advance.nodes, hwt.advance.nodes, hc])
    (by rw [htaken.advance.nodeAt, hwt.advance.nodeAt, hj])
  have hstep : Walked t _ 1 3 rest :=
    .ofPush (c := c) (log := [.treeRead u.node, .treeRead c, .treeRead c]) htaken hud hue hmid h0 hq
      rfl rfl rfl rfl rfl
  refine ⟨{ u with node := c, symbits := u.symbits + 1,
                   trace := u.trace ++ [.treeRead u.node, .treeRead c, .treeRead c] }, ?_, ?_, rfl⟩
  · rw [List.length_append, List.length_singleton, show q.length + 1 + fuel = q.length + (fuel + 1) by omega, ht,
      symbolLoop, hu, Result.ok_andThen]
    simp only [symbolStep, hpush, Result.ok_andThen]
  · have := hwt.trans hstep
    rwa [List.length_append, List.length_singleton,
      show 2 * (q.length + 1) + 1 = 2 * q.length + 3 by omega]

/-! ### The fuel is enough -/

theorem leadingBytes_length_le (iow : Nat) (answers : List Nat) :
    (leadingBytes iow answers).length ≤ answers.length := by
  induction answers with
  | nil => simp [leadingBytes]
  | cons w rest ih =>
    simp only [leadingBytes]
    split
    · simp only [List.length_cons]; omega
    · simp

theorem deliverable_length_lt (s : State) : s.deliverable.length < symbolFuel s := by
  have hflat : ∀ l : List Byte, (l.flatMap (byteBits s.cfg.msbFirst)).length = 8 * l.length := by
    intro l
    induction l with
    | nil => rfl
    | cons c l ih => simp [ih]; omega
  have hhand : s.bitsInHand.length ≤ 8 := by
    unfold State.bitsInHand
    split_ifs
    · simp
    · simp
  have hraw : s.rawBits.length < symbolFuel s := by
    have := leadingBytes_length_le s.cfg.iow s.answers
    simp only [State.rawBits, List.length_append, hflat, symbolFuel]
    omega
  unfold State.deliverable
  split
  · exact hraw
  · exact lt_of_le_of_lt (List.length_take_le' _ _) hraw

/-- An upper bound on the bits NEXTBIT can deliver before it must stop. -/
def State.bitsBound (s : State) : Nat := 8 * s.answers.length + (8 - s.bitpos.val) % 8

theorem deliverBit_bound {s t : State} {r : BitResult} (hpos : s.bitpos ≠ 0) (h : deliverBit s = .ok r t) :
    t.bitsBound < s.bitsBound := by
  simp only [deliverBit, Result.ok.injEq] at h
  obtain ⟨-, rfl⟩ := h
  have hlt := s.bitpos.isLt
  have hne : s.bitpos.val ≠ 0 := fun h0 => hpos (Fin.ext h0)
  simp only [State.bitsBound, Fin.val_add]
  have : (s.bitpos.val + (1 : Fin 8).val) % 8 = (s.bitpos.val + 1) % 8 := rfl
  omega

theorem awaitBit_bound {s t : State} {b : Bool} (hpos : s.bitpos = 0) (h : awaitBit s = .ok (.bit b) t) :
    t.bitsBound < s.bitsBound := by
  rcases takeAnswer_cases s with ⟨_, e⟩ | ⟨w, rest, c, ha, _, e⟩ | ⟨w, rest, ha, _, e⟩ | ⟨w, rest, k, ha, _, e⟩ |
    ⟨_, _, _, _, e⟩ <;> rw [awaitBit, e] at h <;> simp [deliverBit] at h
  obtain ⟨-, rfl⟩ := h
  simp [State.bitsBound, ha, hpos]
  have : (1 : Fin 8).val = 1 := rfl
  omega

theorem nextBit_bound {s t : State} {b : Bool} (h : nextBit s = .ok (.bit b) t) : t.bitsBound < s.bitsBound := by
  unfold nextBit at h
  split_ifs at h with hl hpos
  · simp at h
  · exact awaitBit_bound (s := s.log .fetchRequest) hpos h
  · exact deliverBit_bound hpos h

theorem pushBit_bound {s t : State} {b : Bool} {e : Option SymbolResult} (h : pushBit b s = .ok e t) :
    t.bitsBound = s.bitsBound ∧ t.answers = s.answers := by
  have hpush : ∀ {s t : State} {p : Pushed}, push b s = .ok p t → t.bitpos = s.bitpos ∧ t.answers = s.answers := by
    intro s t p h
    obtain ⟨c, s1, h1, h2⟩ := Result.andThen_eq_ok.1 h
    obtain ⟨n, s2, h3, h4⟩ := Result.andThen_eq_ok.1 h1
    unfold readTree at h3
    split at h3 <;> simp only [Result.ok.injEq, reduceCtorEq] at h3 h4
    obtain ⟨-, rfl⟩ := h3
    obtain ⟨-, rfl⟩ := h4
    cases c <;> simp only [Result.ok.injEq] at h2 <;> obtain ⟨-, rfl⟩ := h2 <;> exact ⟨rfl, rfl⟩
  have hread : ∀ {s t : State} {i : Nat} {n : Node}, readTree i s = .ok n t → t.bitpos = s.bitpos ∧ t.answers = s.answers := by
    intro s t i n h
    unfold readTree at h
    split at h <;> simp only [Result.ok.injEq, reduceCtorEq] at h
    obtain ⟨-, rfl⟩ := h
    exact ⟨rfl, rfl⟩
  suffices h' : t.bitpos = s.bitpos ∧ t.answers = s.answers from
    ⟨by simp only [State.bitsBound, h'.1, h'.2], h'.2⟩
  obtain ⟨p, s1, h1, h2⟩ := Result.andThen_eq_ok.1 h
  have ha := hpush h1
  cases p
  · obtain ⟨has, s2, h3, h4⟩ := Result.andThen_eq_ok.1 h2
    obtain ⟨n, s3, h5, h6⟩ := Result.andThen_eq_ok.1 h3
    have hb := hread h5
    have hs : s2 = s3 := by simp only [Result.ok.injEq] at h6; exact h6.2.symm
    subst hs
    cases has
    · simp only [Result.ok.injEq] at h4
      obtain ⟨-, rfl⟩ := h4
      exact ⟨hb.1.trans ha.1, hb.2.trans ha.2⟩
    · obtain ⟨v, s4, h7, h8⟩ := Result.andThen_eq_ok.1 h4
      obtain ⟨n', s5, h9, h10⟩ := Result.andThen_eq_ok.1 h7
      have hc := hread h9
      cases n' <;> simp only [Result.ok.injEq, reduceCtorEq] at h8 h10
      obtain ⟨-, rfl⟩ := h8
      obtain ⟨-, rfl⟩ := h10
      exact ⟨hc.1.trans (hb.1.trans ha.1), hc.2.trans (hb.2.trans ha.2)⟩
  · simp only [Result.ok.injEq] at h2
    obtain ⟨-, rfl⟩ := h2
    exact ha

/-- With more fuel than bits the loop always ends, and how much more does not matter (log 6). -/
theorem symbolLoop_fuel {s : State} (f g : Nat) (hf : s.bitsBound < f) (hg : s.bitsBound < g) :
    symbolLoop f s = symbolLoop g s := by
  induction f generalizing s g with
  | zero => omega
  | succ f ih =>
    cases g with
    | zero => omega
    | succ g =>
      simp only [symbolLoop]
      cases h : nextBit s with
      | fault r => rfl
      | refused r => rfl
      | ok r t =>
        simp only [Result.ok_andThen]
        cases r with
        | bit b =>
          have hb := nextBit_bound h
          simp only [symbolStep]
          cases h2 : pushBit b t with
          | fault r => rfl
          | refused r => rfl
          | ok e u =>
            have hu := (pushBit_bound h2).1
            cases e with
            | some res => rfl
            | none => exact ih g (by omega) (by omega)
        | endOfInput => rfl
        | ioFailure e => rfl
        | blocked => rfl

theorem symbolLoop_not_running {f : Nat} {s t : State} (hf : s.bitsBound < f) : symbolLoop f s ≠ .ok .running t := by
  induction f generalizing s with
  | zero => omega
  | succ f ih =>
    intro hrun
    obtain ⟨r, s1, h1, h2⟩ := Result.andThen_eq_ok.1 hrun
    obtain ⟨e, s2, h3, h4⟩ := Result.andThen_eq_ok.1 h2
    cases r with
    | bit b =>
      have hb := nextBit_bound h1
      have hu := (pushBit_bound h3).1
      cases e with
      | none => exact ih (by omega) h4
      | some res =>
        simp only [Result.ok.injEq] at h4
        obtain ⟨rfl, rfl⟩ := h4
        have hres := h3
        simp only [symbolStep, pushBit] at hres
        obtain ⟨p, u, _, h6⟩ := Result.andThen_eq_ok.1 hres
        cases p
        · obtain ⟨has, u2, _, h8⟩ := Result.andThen_eq_ok.1 h6
          cases has
          · simp at h8
          · obtain ⟨v, u3, _, h10⟩ := Result.andThen_eq_ok.1 h8
            simp at h10
        · simp at h6
    | endOfInput =>
      simp only [symbolStep, Result.ok.injEq] at h3
      obtain ⟨rfl, rfl⟩ := h3
      simp only [Result.ok.injEq] at h4
      split_ifs at h4 <;> simp at h4
    | ioFailure k =>
      simp only [symbolStep, Result.ok.injEq] at h3
      obtain ⟨rfl, rfl⟩ := h3
      simp at h4
    | blocked =>
      simp only [symbolStep, Result.ok.injEq] at h3
      obtain ⟨rfl, rfl⟩ := h3
      simp at h4

theorem bitsBound_lt_symbolFuel (s : State) : s.bitsBound < symbolFuel s := by
  simp only [State.bitsBound, symbolFuel]
  omega

end Sys2Proof.Machine
end

