-- ==== Sys2Proof/Laws/Bulk.lean ====
section
/-! SUPPORT. The end of a symbol's body, and READ: what one round of its loop keeps and stores. -/

namespace Sys2Proof.Machine

/-! ### The end of a symbol's body -/

/-- What the end of data makes of a symbol (R134). -/
def endResult (s : State) : SymbolResult := if s.symbits = 0 then .endOfStream else .error .truncatedStream

/-- How the loop of READ_BYTE ends when no deliverable bit is left (R90, R93, R134). -/
theorem symbolLoop_at_end (f : Nat) {s : State} (hlim : ∀ n, s.cfg.bitLimit = some n → s.bitcnt ≤ n)
    (h : s.deliverable = []) :
    (s.bitsEnd = .limit ∧ symbolLoop (f + 1) s = .ok (endResult s) s) ∨
    (s.bitpos = 0 ∧
      ((s.bitsEnd = .silence ∧ s.answers = [] ∧ symbolLoop (f + 1) s = .ok .blocked (s.log .fetchRequest)) ∨
      (s.bitsEnd = .sourceEnd ∧ symbolLoop (f + 1) s = .ok (endResult s)
        { s with answers := s.answers.tail, trace := s.trace ++ [.fetchRequest, .fetchAnswer .atEnd] }) ∨
      (∃ e, s.bitsEnd = .sourceFail e ∧ symbolLoop (f + 1) s = .ok (.error (.ioFailure e))
        { s with answers := s.answers.tail, trace := s.trace ++ [.fetchRequest, .fetchAnswer (.fail e)] }) ∨
      (s.bitsEnd = .reserved ∧ symbolLoop (f + 1) s = .refused .reservedAnswer))) := by
  rcases nextBit_at_end hlim h with ⟨he, hn⟩ | ⟨hp, hl, h⟩
  · exact .inl ⟨he, by rw [symbolLoop, hn]; rfl⟩
  · refine .inr ⟨hp, ?_⟩
    rcases h with ⟨he, ha, hn⟩ | ⟨he, w, rest, ha, hn⟩ | ⟨e, he, w, rest, ha, hn⟩ | ⟨he, hn⟩
    · exact .inl ⟨he, ha, by rw [symbolLoop, hn]; rfl⟩
    · exact .inr (.inl ⟨he, by rw [symbolLoop, hn, ha]; rfl⟩)
    · exact .inr (.inr (.inl ⟨e, he, by rw [symbolLoop, hn, ha]; rfl⟩))
    · exact .inr (.inr (.inr ⟨he, by rw [symbolLoop, hn]; rfl⟩))

/-- Delivering no more bits than there are does not pass the bit limit. -/
theorem Walked.limit {s t : State} {k r : Nat} {rest : List Bool} (h : Walked s t k r rest)
    (hk : k ≤ s.deliverable.length) (hlim : ∀ n, s.cfg.bitLimit = some n → s.bitcnt ≤ n) :
    ∀ n, t.cfg.bitLimit = some n → t.bitcnt ≤ n := by
  intro n hn
  rw [h.advance.cfg] at hn
  have := hlim n hn
  rw [h.bitcnt]
  simp only [State.deliverable, hn, List.length_take] at hk
  omega

/-- The state a symbol's body starts from (R134). -/
abbrev freshSymbol (s : State) : State := decReset { s with symbits := 0 }

theorem freshSymbol_advance (s : State) : Advance s (freshSymbol s) :=
  .ofCursors s s.cur s.bitpos s.bitcnt root 0

theorem freshSymbol_deliverable (s : State) :
    (freshSymbol s).deliverable = s.deliverable ∧ (freshSymbol s).bitsEnd = s.bitsEnd :=
  deliverable_congr rfl rfl rfl rfl rfl

/-- READ_BYTE in a session is its body and its answer (R134). -/
theorem exec_readByte {s : State} (a b : Nat) (h : s.sess = .opened) :
    exec (.readByte a b) s = (symbolLoop (symbolFuel s) (freshSymbol s)).finish finishByte := by
  simp only [exec, execReadByte, h]
  rfl

/-- There is fuel for more than the deliverable bits. -/
theorem symbolFuel_split {s : State} {p rest : List Bool} (h : s.deliverable = p ++ rest) :
    ∃ f, symbolFuel s = p.length + (f + 1) := by
  have := deliverable_length_lt s
  rw [h, List.length_append] at this
  exact ⟨symbolFuel s - p.length - 1, by omega⟩

/-- A symbol's body from its start, along bits that reach no leaf. -/
theorem freshSymbol_walk {s : State} {p rest : List Bool} {j : Nat} (hd : s.deliverable = p ++ rest)
    (hw : s.walk root p = some j) (hj : p ≠ [] → ∃ c0 c1, s.nodeAt j = some (.internal c0 c1)) :
    ∃ t f, symbolLoop (symbolFuel s) (freshSymbol s) = symbolLoop (f + 1) t ∧
      Walked (freshSymbol s) t p.length (2 * p.length) rest ∧ t.node = j := by
  obtain ⟨f, hf⟩ := symbolFuel_split hd
  obtain ⟨t, h1, h2, h3⟩ := symbolLoop_walk p (s := freshSymbol s) (rest := rest) (j := j) (f + 1)
    (by rw [(freshSymbol_deliverable s).1, hd]) (by rw [(freshSymbol_advance s).walk]; exact hw) hj
  exact ⟨t, f, by rw [hf, h1], h2, h3⟩

/-! ### READ -/

/-- What READ keeps until its response: all but the BitReader, the decoder, the source, BUF and the trace. -/
structure BulkAdvance (s t : State) : Prop where
  frame : t = { s with
    cur := t.cur, bitpos := t.bitpos, bitcnt := t.bitcnt, node := t.node, symbits := t.symbits,
    answers := t.answers, srcCursor := t.srcCursor, buf := t.buf, trace := t.trace }
  forward : t.answers <:+ s.answers

theorem BulkAdvance.refl (s : State) : BulkAdvance s s := ⟨rfl, List.suffix_refl _⟩

theorem BulkAdvance.trans {s t u : State} (h : BulkAdvance s t) (k : BulkAdvance t u) : BulkAdvance s u :=
  ⟨by rw [k.frame, h.frame], k.forward.trans h.forward⟩

theorem Advance.bulk {s t : State} (h : Advance s t) : BulkAdvance s t := ⟨by rw [h.frame], h.forward⟩

theorem BulkAdvance.ofStore (s : State) (a : Nat) (v : Byte) :
    BulkAdvance s ({ s with buf := Memory.write s.buf a v }.log (.store a v)) := ⟨rfl, List.suffix_refl _⟩

section fields
variable {s t : State} (h : BulkAdvance s t)
include h

theorem BulkAdvance.sess : t.sess = s.sess := by rw [h.frame]
theorem BulkAdvance.activity : t.activity = s.activity := by rw [h.frame]
theorem BulkAdvance.tree : t.tree = s.tree := by rw [h.frame]
theorem BulkAdvance.cfg : t.cfg = s.cfg := by rw [h.frame]
theorem BulkAdvance.errored : t.errored = s.errored := by rw [h.frame]

end fields

/-- READ in a session with room is its loop (R135). -/
theorem exec_read {s : State} {offset count : Nat} (h : s.sess = .opened) (hb : offset + count ≤ s.cfg.bufSize) :
    exec (.read offset count) s = bulkLoop offset count count 0 s := by
  simp [exec, execRead, h, fitsBuffer, hb]

/-- One symbol of a READ: its byte goes to `offset + n` (R135, R153). -/
theorem bulkLoop_byte {offset count left n : Nat} {s t : State} {v : Byte} (h : readByteStep s = .ok (.byte v) t)
    (hb : offset + n < t.cfg.bufSize) :
    bulkLoop offset count (left + 1) n s = bulkLoop offset count left (n + 1)
      ({ t with buf := Memory.write t.buf (offset + n) v }.log (.store (offset + n) v)) := by
  rw [bulkLoop, h]
  simp only [Result.ok_finish, bulkStep, storeBuf, storeAddress, hb, if_true, Result.ok_andThen]

theorem bulkStores_cons (offset : Nat) (v : Byte) (vs : List Byte) :
    bulkStores offset (v :: vs) = (offset, v) :: bulkStores (offset + 1) vs := by
  simp only [bulkStores, List.mapIdx_cons, storeAddress, Nat.add_zero, List.cons.injEq, true_and]
  congr 1
  funext k v
  rw [Nat.add_assoc, Nat.add_comm 1 k]

end Sys2Proof.Machine
end

