-- ==== Sys2Proof/Laws/PerInstr.lean ====
section
/-! SUPPORT. The statement made for every command as syntax: its word carries its operation code and its two operands in
the fields of R66. -/

namespace Sys2Proof.Laws.CommandWordFields

/-- A well-formed command's word has the operation code of R67 in `op` and the operands in `a` and `b` (R66). -/
def Statement (i : Instr) : Prop :=
  ∀ aw : Nat, i.wf aw →
    opField (encode aw i) = i.opcode ∧ aField aw (encode aw i) = i.operands.1 ∧ bField aw (encode aw i) = i.operands.2

theorem holds (i : Instr) : Statement i := fun aw ⟨ha, hb⟩ =>
  have hop : i.opcode < 2 ^ 8 := by cases i <;> simp [Instr.opcode]
  ⟨opField_commandWord aw _ _ hop, aField_commandWord aw _ _ hop ha, bField_commandWord aw _ _ hop ha hb⟩

theorem openStream (a b : Nat) : Statement (.openStream a b) := holds _
theorem closeStream (a b : Nat) : Statement (.closeStream a b) := holds _
theorem readByte (a b : Nat) : Statement (.readByte a b) := holds _
theorem read (offset count : Nat) : Statement (.read offset count) := holds _
theorem canRead (a b : Nat) : Statement (.canRead a b) := holds _
theorem canWrite (a b : Nat) : Statement (.canWrite a b) := holds _
theorem canSeek (a b : Nat) : Statement (.canSeek a b) := holds _
theorem flush (a b : Nat) : Statement (.flush a b) := holds _
theorem getLength (a b : Nat) : Statement (.getLength a b) := holds _
theorem getPosition (a b : Nat) : Statement (.getPosition a b) := holds _
theorem setPosition (a b : Nat) : Statement (.setPosition a b) := holds _
theorem seek (a b : Nat) : Statement (.seek a b) := holds _
theorem setLength (a b : Nat) : Statement (.setLength a b) := holds _
theorem write (a b : Nat) : Statement (.write a b) := holds _

end Sys2Proof.Laws.CommandWordFields
end

