-- ==== Sys2Proof/Laws/Step.lean ====
section
/-! SUPPORT. What one step can be, and what a reset keeps. -/

namespace Sys2Proof.Machine

/-- What the abort of an outstanding fetch keeps (R185). -/
theorem abortFetch_frame (s : State) :
    ∃ answers cursor, abortFetch s = { s with answers := answers, srcCursor := cursor } ∧
      answers <:+ s.answers ∧ s.srcCursor ≤ cursor := by
  unfold abortFetch
  split
  · rename_i c w rest ha hans
    split_ifs
    · split
      · exact ⟨rest, s.srcCursor + 1, rfl, by simp [hans], by omega⟩
      · exact ⟨rest, s.srcCursor, rfl, by simp [hans], le_refl _⟩
    · exact ⟨s.answers, s.srcCursor, rfl, List.suffix_refl _, le_refl _⟩
  · exact ⟨s.answers, s.srcCursor, rfl, List.suffix_refl _, le_refl _⟩

/-- What a step that gives a next state did: a reset, nothing, a command, a reserved code, or the rest of a command. -/
theorem step_cases {s t : State} (h : step s = .next t) :
    (s.rst = true ∧ t = takeReset s) ∨
    (s.rst = false ∧ s.activity = .idle ∧ s.cmds = [] ∧ t = s) ∨
    (s.rst = false ∧ s.activity = .idle ∧ ∃ w rest i, s.cmds = w :: rest ∧ decode s.cfg.aw w = .ok i ∧
      exec i (acceptCommand w rest s) = .next t) ∨
    (s.rst = false ∧ s.activity = .idle ∧ ∃ w rest, s.cmds = w :: rest ∧
      t = execReserved (acceptCommand w rest s)) ∨
    (s.rst = false ∧ ∃ c, s.activity = .running c ∧ continueCommand c s = .next t) ∨
    (s.rst = false ∧ ∃ c, s.activity = .blocked c ∧ resumeCommand c s = .next t) := by
  unfold step at h
  split_ifs at h with hr
  · exact .inl ⟨hr, (Host.Outcome.next.inj h).symm⟩
  · have hr : s.rst = false := by simpa using hr
    refine .inr ?_
    split at h
    · rename_i c ha
      exact .inr (.inr (.inr (.inl ⟨hr, c, ha, h⟩)))
    · rename_i c ha
      exact .inr (.inr (.inr (.inr ⟨hr, c, ha, h⟩)))
    · rename_i ha
      split at h
      · rename_i hc
        exact .inl ⟨hr, ha, hc, (Host.Outcome.next.inj h).symm⟩
      · rename_i w rest hc
        split at h
        · rename_i i hd
          exact .inr (.inl ⟨hr, ha, w, rest, i, hc, hd, h⟩)
        · exact .inr (.inr (.inl ⟨hr, ha, w, rest, hc, (Host.Outcome.next.inj h).symm⟩))

end Sys2Proof.Machine
end

