-- ==== Sys2Proof/Laws/Tree.lean ====
section
/-! SUPPORT. The arena as a tree: the levels of the unfolding and the indices it reaches, and the indices reachable
from the root. -/

namespace Sys2Proof.Machine

/-- Where the unfolding at an index exists, there is a leaf there, or an internal node whose two children unfold. -/
theorem treeAt_cases {s : State} {fuel i : Nat} {T : Tree} (h : s.treeAt fuel i = some T) :
    (∃ f v, fuel = f + 1 ∧ s.nodeAt i = some (.leaf v) ∧ T = .leaf v) ∨
    (∃ f c0 c1 t0 t1, fuel = f + 1 ∧ s.nodeAt i = some (.internal c0 c1) ∧ s.treeAt f c0 = some t0 ∧
      s.treeAt f c1 = some t1 ∧ T = .node t0 t1) := by
  cases fuel with
  | zero => simp [State.treeAt] at h
  | succ f =>
    simp only [State.treeAt] at h
    split at h
    · rename_i v hv
      exact .inl ⟨f, v, rfl, hv, (Option.some.inj h).symm⟩
    · rename_i c0 c1 hv
      split at h
      · rename_i t0 t1 h0 h1
        exact .inr ⟨f, c0, c1, t0, t1, rfl, hv, h0, h1, (Option.some.inj h).symm⟩
      · simp at h
    · simp at h

theorem lt_of_treeAt {s : State} {fuel i : Nat} {T : Tree} (h : s.treeAt fuel i = some T) : i < s.nodes := by
  rcases treeAt_cases h with ⟨_, _, -, hv, -⟩ | ⟨_, _, _, _, _, -, hv, -⟩
  · exact lt_of_nodeAt hv
  · exact lt_of_nodeAt hv

/-- The unfolding exists at a node whose children both unfold. -/
theorem treeAt_internal {s : State} {f i c0 c1 : Nat} {t0 t1 : Tree} (hn : s.nodeAt i = some (.internal c0 c1))
    (h0 : s.treeAt f c0 = some t0) (h1 : s.treeAt f c1 = some t1) : s.treeAt (f + 1) i = some (.node t0 t1) := by
  simp [State.treeAt, hn, h0, h1]

theorem treeAt_leaf {s : State} {i : Nat} {v : Byte} (f : Nat) (hn : s.nodeAt i = some (.leaf v)) :
    s.treeAt (f + 1) i = some (.leaf v) := by
  simp [State.treeAt, hn]

/-- What the unfolding reaches from an index: the index, and what its children reach. -/
theorem reachAt_internal {s : State} {i c0 c1 : Nat} (f : Nat) (hn : s.nodeAt i = some (.internal c0 c1)) :
    s.reachAt (f + 1) i = i :: (s.reachAt f c0 ++ s.reachAt f c1) := by
  simp [State.reachAt, hn]

theorem reachAt_leaf {s : State} {i : Nat} {v : Byte} (f : Nat) (hn : s.nodeAt i = some (.leaf v)) :
    s.reachAt (f + 1) i = [i] := by
  simp [State.reachAt, hn]

theorem reachAt_absent {s : State} {i : Nat} (f : Nat) (hn : s.nodeAt i = none) : s.reachAt f i = [] := by
  cases f <;> simp [State.reachAt, hn]

/-- Every index the unfolding reaches is an index of the arena. -/
theorem reachAt_lt {s : State} (fuel : Nat) {i x : Nat} (h : x ∈ s.reachAt fuel i) : x < s.nodes := by
  induction fuel generalizing i with
  | zero => simp [State.reachAt] at h
  | succ f ih =>
    rcases hn : s.nodeAt i with _ | (v | ⟨c0, c1⟩)
    · simp [reachAt_absent _ hn] at h
    · rw [reachAt_leaf f hn, List.mem_singleton] at h
      exact h ▸ lt_of_nodeAt hn
    · rw [reachAt_internal f hn, List.mem_cons, List.mem_append] at h
      rcases h with rfl | h | h
      · exact lt_of_nodeAt hn
      · exact ih h
      · exact ih h

/-! ### Reachable indices and their children (R105) -/

theorem childrenOf_internal {s : State} {i c0 c1 : Nat} (hn : s.nodeAt i = some (.internal c0 c1)) :
    s.childrenOf i = [c0, c1] := by
  simp [State.childrenOf, hn]

/-- Only an index of the arena has children. -/
theorem lt_of_mem_childrenOf {s : State} {i c : Nat} (h : c ∈ s.childrenOf i) : i < s.nodes := by
  rcases hn : s.nodeAt i with _ | n
  · simp [State.childrenOf, hn] at h
  · exact lt_of_nodeAt hn

/-- A bit leads from an index to one of its children, and to every child that is in range some bit leads. -/
theorem mem_childrenOf_iff {s : State} {i c : Nat} (hc : c < s.nodes) :
    c ∈ s.childrenOf i ↔ ∃ b : Bool, (s.nodeAt i).bind (childIndex s.nodes b) = some c := by
  rcases hn : s.nodeAt i with _ | (v | ⟨c0, c1⟩)
  · simp [State.childrenOf, hn]
  · simp [State.childrenOf, hn, childIndex]
  · simp only [childrenOf_internal hn, List.mem_cons, List.not_mem_nil, or_false, Option.bind_some, childIndex,
      Option.ite_none_right_eq_some, Option.some.injEq, Bool.exists_bool, Bool.false_eq_true, if_false, if_true]
    constructor
    · rintro (rfl | rfl)
      · exact .inl ⟨hc, rfl⟩
      · exact .inr ⟨hc, rfl⟩
    · rintro (⟨-, rfl⟩ | ⟨-, rfl⟩)
      · exact .inl rfl
      · exact .inr rfl

theorem reachable_root (s : State) : s.reachable root := ⟨[], rfl⟩

/-- A child in range of a reachable index is reachable. -/
theorem State.reachable.child {s : State} {i c : Nat} (h : s.reachable i) (hc : c ∈ s.childrenOf i)
    (hlt : c < s.nodes) : s.reachable c := by
  obtain ⟨bits, hw⟩ := h
  obtain ⟨b, hb⟩ := (mem_childrenOf_iff hlt).1 hc
  exact ⟨bits ++ [b], by rw [walk_append, hw]; simp [State.walk, hb]⟩

/-- What holds of the root and passes from a node to its children holds of every reachable index. -/
theorem State.reachable.induct {s : State} {P : Nat → Prop} {i : Nat} (h : s.reachable i) (hroot : P root)
    (hchild : ∀ p, P p → ∀ c ∈ s.childrenOf p, P c) : P i := by
  obtain ⟨bits, hw⟩ := h
  induction bits using List.reverseRecOn generalizing i with
  | nil => exact Option.some.inj hw ▸ hroot
  | append_singleton bits b ih =>
    rw [walk_append] at hw
    obtain ⟨p, hp, hi⟩ := Option.bind_eq_some_iff.1 hw
    obtain ⟨n, c, hn, hc, hcw⟩ := walk_cons_inv hi
    obtain rfl := Option.some.inj hcw
    exact hchild p (ih hp) c ((mem_childrenOf_iff (childIndex_lt hc)).2 ⟨b, by simpa [hn] using hc⟩)

end Sys2Proof.Machine
end

