-- ==== Sys2Proof/Tests/Slice0.lean ====
section
/-! SUPPORT. The model's own tests: the smoke test of WellFormed, the vectors of spec/95_test_vectors.md on small states, and
a witness for the hypotheses of every statement. Every expected value is the spec's or worked out by hand from its rules. -/

namespace Sys2Proof.Machine.Tests

open Sys2Proof Sys2Proof.Machine

/-! ### WellFormed: each check refuses an ill-formed term -/

abbrev params (msbFirst : Bool) (bitLimit : Option Nat) : Params := ⟨msbFirst, bitLimit, 4, 16, 16, 16⟩

theorem test_params_wf : (params true none).wf ∧ ¬ (⟨true, none, 3, 16, 16, 16⟩ : Params).wf ∧
    ¬ (⟨true, none, 4, 0, 16, 1⟩ : Params).wf ∧ ¬ (⟨true, none, 4, 16, 0, 16⟩ : Params).wf ∧
    ¬ (⟨true, none, 4, 4, 16, 17⟩ : Params).wf := by decide

theorem test_instr_wf : (Instr.read 0xFFFF 0xFFFF).wf 16 ∧ ¬ (Instr.read 0x10000 0).wf 16 ∧
    ¬ (Instr.read 0 0x10000).wf 16 ∧ ¬ (Instr.openStream 0x10000 0).wf 16 := by decide

theorem test_node_wf : Node.wf 4 (.internal 15 15) = true ∧ Node.wf 4 (.internal 16 0) = false ∧
    Node.wf 4 (.internal 0 16) = false := by decide

theorem test_answer_wf : Answer.wf 16 (.fail 0xFFFF) = true ∧ Answer.wf 16 (.fail 0x10000) = false := by decide

theorem test_response_wf : Response.wf (params true none) ⟨.ioFailure, 0xFFFF⟩ ∧
    ¬ Response.wf (params true none) ⟨.ioFailure, 0x10000⟩ := by decide

theorem test_arena_wf : arenaWF 4 [0x021, 0x141, 0x043, 0x142, 0x143] ∧ ¬ arenaWF 4 [] ∧
    ¬ arenaWF 4 (List.replicate 17 0x141) ∧ ¬ arenaWF 4 [0x200] := by decide

/-! ### Decoding: a word of every command, written out from R66 and R67 (`AW = 16`) -/

theorem test_decode_session : decode 16 0x0000000000 = .ok (.openStream 0 0) ∧
    decode 16 0x0000000001 = .ok (.closeStream 0 0) ∧ decode 16 0x0000000002 = .ok (.readByte 0 0) ∧
    decode 16 0x000A000203 = .ok (.read 2 10) := ⟨rfl, rfl, rfl, rfl⟩

theorem test_decode_flags : decode 16 0x0000000004 = .ok (.canRead 0 0) ∧
    decode 16 0x0000000005 = .ok (.canWrite 0 0) ∧ decode 16 0x0000000006 = .ok (.canSeek 0 0) := ⟨rfl, rfl, rfl⟩

theorem test_decode_unsupported : decode 16 0x0000000008 = .ok (.flush 0 0) ∧
    decode 16 0x0000000009 = .ok (.getLength 0 0) ∧ decode 16 0x000000000A = .ok (.getPosition 0 0) ∧
    decode 16 0x000000000B = .ok (.setPosition 0 0) ∧ decode 16 0xFFFF12340C = .ok (.seek 0x1234 0xFFFF) ∧
    decode 16 0x000000000D = .ok (.setLength 0 0) ∧ decode 16 0x000000000E = .ok (.write 0 0) :=
  ⟨rfl, rfl, rfl, rfl, rfl, rfl, rfl⟩

theorem test_decode_reserved : decode 16 0x07 = .error (.reservedOp 0x07) ∧
    decode 16 0x0F = .error (.reservedOp 0x0F) ∧ decode 16 0xFF = .error (.reservedOp 0xFF) := ⟨rfl, rfl, rfl⟩

/-- Vectors E3 to E6. -/
theorem test_response_words : (byteResponse 0x41).word = 0x00410 ∧ (okResponse 10).word = 0x000A0 ∧
    endOfStreamResponse.word = 0x00001 ∧ (errorResponse .truncatedStream).word = 0x00004 ∧
    (errorResponse .decodeError).word = 0x00006 ∧ (errorResponse (.ioFailure 0x2A)).word = 0x002A5 := by decide

/-- Vectors E7 and E8. -/
theorem test_node_words : decodeNode 4 0x043 = .internal 3 4 ∧ decodeNode 4 0x142 = .leaf 0x42 ∧
    decodeNode 9 0x00803 = .internal 3 4 ∧ decodeNode 9 0x40042 = .leaf 0x42 := by decide

/-- Vector E9, and the reserved kind 3. -/
theorem test_answer_words : decodeAnswer 16 0x00160 = some (.byte 0x58) ∧ decodeAnswer 16 0x00001 = some .atEnd ∧
    decodeAnswer 16 0x000AA = some (.fail 0x2A) ∧ decodeAnswer 16 0x00003 = none := by decide

/-! ### Small states -/

/-- `T_ABC`, `T_5`, `T_HOLE`, `T_CYC`, `T_SHARE` and `T_LEAF` of the vectors. -/
def treeABC : List Nat := [0x021, 0x141, 0x043, 0x142, 0x143]
def tree5 : List Nat := [0x021, 0x165, 0x043, 0x174, 0x065, 0x161, 0x087, 0x16F, 0x16E]
def treeHole : List Nat := [0x071, 0x141]
def treeCycle : List Nat := [0x010, 0x178]
def treeShare : List Nat := [0x011, 0x171]
def treeLeaf : List Nat := [0x15A]

/-- An idle core over a tree, the inputs present, no session. -/
abbrev closed (cfg : Params) (tree answers : List Nat) : State :=
  { State.reset with
    cur := 0, node := 0, srcPresent := true, treePresent := true, tree := tree, answers := answers, cfg := cfg }

/-- The same in a session that has delivered nothing. -/
abbrev opened (cfg : Params) (tree answers : List Nat) : State :=
  { closed cfg tree answers with sess := .opened }

/-- The same with `k` bits of the byte `c` delivered. -/
abbrev within (cfg : Params) (tree answers : List Nat) (c : Byte) (k : Fin 8) : State :=
  { opened cfg tree answers with cur := c, bitpos := k, bitcnt := k.val, srcCursor := 1 }

/-- The response a command ends with, and where it leaves the cursors. -/
structure Seen where
  last : Option Event
  bitpos : Nat
  bitcnt : Nat
  node : Nat
  symbits : Nat
deriving DecidableEq, Repr

def shown (o : Host.Outcome State Fault Refusal) : Option Seen :=
  match o with
  | .next t => some ⟨t.trace.getLast?, t.bitpos.val, t.bitcnt, t.node, t.symbits⟩
  | _ => none

/-- The bytes of BUF a command leaves. -/
def stored (o : Host.Outcome State Fault Refusal) : Option (List Host.Cell) :=
  match o with
  | .next t => some t.buf
  | _ => none

/-- How many answers of the source a command took. -/
def taken (s : State) (o : Host.Outcome State Fault Refusal) : Option Nat :=
  match o with
  | .next t => some (s.answers.length - t.answers.length)
  | _ => none

/-! ### BitReader, PrefixTree and IncrementalDecoder -/

/-- The bits `k` calls deliver, the byte boundaries crossed and the answers taken. -/
def bitsOf (k : Nat) (s : State) : Option (List Bool × Nat × Nat) :=
  match nextBits k s with
  | .ok bs t => some (bs, t.bitcnt, t.srcCursor)
  | _ => none

/-- Vectors B1, B2 and B3: the ninth bit needs the second byte, the eighth does not. -/
theorem test_bits_order : bitsOf 8 (opened (params true none) treeABC [0x160]) =
      some ([false, true, false, true, true, false, false, false], 8, 1) ∧
    bitsOf 8 (opened (params false none) treeABC [0x160]) =
      some ([false, false, false, true, true, false, true, false], 8, 1) ∧
    bitsOf 9 (opened (params true none) treeABC [0x200, 0x004]) =
      some ([true, false, false, false, false, false, false, false, false], 9, 2) := by decide

/-- R43: the reference source gives its bytes, then `End` as often as it is asked. -/
theorem test_arraySource : arraySource [0x58, 0xF6] 2 = [0x160, 0x3D8, 0x001, 0x001] := by decide

/-- Vectors B5 and B6: the limit ends the bits without a fetch. -/
theorem test_bit_limit : bitsOf 6 (opened (params true (some 5)) treeABC [0x160]) =
      some ([false, true, false, true, true], 5, 1) ∧
    bitsOf 1 (opened (params true (some 0)) treeABC [0x160]) = some ([], 0, 0) := by decide

/-- What CHILD answers. -/
def childOf (tree : List Nat) (i : Nat) (b : Bool) : Option (Option Nat) :=
  match child i b (opened (params true none) tree []) with
  | .ok c _ => some c
  | _ => none

/-- Vectors T2, T3 and T4. -/
theorem test_child : childOf treeABC 0 false = some (some 1) ∧ childOf treeABC 0 true = some (some 2) ∧
    childOf treeABC 2 false = some (some 3) ∧ childOf treeABC 2 true = some (some 4) ∧
    childOf treeABC 1 true = some none ∧ childOf treeHole 0 false = some (some 1) ∧
    childOf treeHole 0 true = some none := by decide

/-- Vectors T8 and T9. -/
theorem test_treeWF : (opened (params true none) treeABC []).treeWF ∧ (opened (params true none) tree5 []).treeWF ∧
    ¬ (opened (params true none) treeHole []).treeWF ∧ ¬ (opened (params true none) treeCycle []).treeWF ∧
    ¬ (opened (params true none) treeShare []).treeWF := by decide

/-- Vectors I3 and I6: a PUSH in Resolved is a DecodeError and keeps `node`. -/
theorem test_push_resolved :
    push false { opened (params true none) treeABC [] with node := 3 } =
      .ok .decodeError { opened (params true none) treeABC [] with node := 3, trace := [.treeRead 3] } ∧
    push false (opened (params true none) treeLeaf []) =
      .ok .decodeError { opened (params true none) treeLeaf [] with trace := [.treeRead 0] } := ⟨rfl, rfl⟩

/-! ### OPEN and CLOSE: vectors S1 to S5, S9 -/

theorem test_open : shown (exec (.openStream 0 0) { closed (params true none) treeABC [] with bitpos := 3, bitcnt := 3 }) =
    some ⟨some (.respond ⟨.ok, 0⟩), 0, 0, 0, 0⟩ := by decide

theorem test_open_absent :
    shown (exec (.openStream 0 0) { closed (params true none) treeABC [] with treePresent := false, bitpos := 3 }) =
    some ⟨some (.respond ⟨.invalidArgument, 0⟩), 3, 0, 0, 0⟩ := by decide

theorem test_close : shown (exec (.closeStream 0 0) (within (params true none) treeABC [] 0x58 3)) =
    some ⟨some (.respond ⟨.ok, 0⟩), 3, 3, 0, 0⟩ := by decide

/-! ### READ_BYTE: vectors D1, D3, D4, D5, D6, D10, D12, D14 -/

/-- D1: the first, the third and the fourth command. -/
theorem test_readByte_symbols :
    shown (exec (.readByte 0 0) (opened (params true (some 5)) treeABC [0x160])) =
      some ⟨some (.respond ⟨.ok, 0x41⟩), 1, 1, 1, 1⟩ ∧
    shown (exec (.readByte 0 0) (within (params true (some 5)) treeABC [] 0x58 3)) =
      some ⟨some (.respond ⟨.ok, 0x43⟩), 5, 5, 4, 2⟩ ∧
    shown (exec (.readByte 0 0) (within (params true (some 5)) treeABC [] 0x58 5)) =
      some ⟨some (.respond ⟨.endOfStream, 0⟩), 5, 5, 0, 0⟩ ∧
    shown (exec (.readByte 0 0) (within (params true none) treeABC [0x200] 0x01 7)) =
      some ⟨some (.respond ⟨.ok, 0x43⟩), 1, 9, 4, 2⟩ := by decide

/-- D4, D6, D10, D14, D12: the errors. -/
theorem test_readByte_errors :
    shown (exec (.readByte 0 0) (within (params true none) treeABC [0x001] 0x01 7)) =
      some ⟨some (.respond ⟨.truncatedStream, 0⟩), 0, 8, 2, 1⟩ ∧
    shown (exec (.readByte 0 0) (within (params true (some 4)) treeABC [] 0x58 3)) =
      some ⟨some (.respond ⟨.truncatedStream, 0⟩), 4, 4, 2, 1⟩ ∧
    shown (exec (.readByte 0 0) (within (params true none) treeABC [0x0AA] 0x01 7)) =
      some ⟨some (.respond ⟨.ioFailure, 0x2A⟩), 0, 8, 2, 1⟩ ∧
    shown (exec (.readByte 0 0) (within (params true none) treeHole [] 0x40 1)) =
      some ⟨some (.respond ⟨.decodeError, 0⟩), 2, 2, 0, 0⟩ ∧
    shown (exec (.readByte 0 0) (opened (params true none) treeLeaf [0x000])) =
      some ⟨some (.respond ⟨.decodeError, 0⟩), 1, 1, 0, 0⟩ := by decide

/-! ### READ: vectors K1 to K6 -/

/-- K1, K4: the partial count, the bytes stored, and one `End` asked for. -/
theorem test_read_partial :
    shown (exec (.read 2 10) (opened (params true (some 5)) treeABC [0x160])) =
      some ⟨some (.respond ⟨.ok, 3⟩), 5, 5, 0, 0⟩ ∧
    stored (exec (.read 2 10) (opened (params true (some 5)) treeABC [0x160])) =
      some [(2, 0x41), (3, 0x42), (4, 0x43)] ∧
    shown (exec (.read 0 16) (opened (params true none) tree5 [0x3D8, 0x200, 0x001, 0x001])) =
      some ⟨some (.respond ⟨.ok, 10⟩), 0, 16, 0, 0⟩ ∧
    taken (opened (params true none) tree5 [0x3D8, 0x200, 0x001, 0x001])
      (exec (.read 0 16) (opened (params true none) tree5 [0x3D8, 0x200, 0x001, 0x001])) = some 3 := by decide

/-- K3, K6: the error without a count, the bytes stored before it kept. -/
theorem test_read_error :
    shown (exec (.read 0 16) (opened (params true none) treeABC [0x004, 0x001])) =
      some ⟨some (.respond ⟨.truncatedStream, 0⟩), 0, 8, 2, 1⟩ ∧
    stored (exec (.read 0 16) (opened (params true none) treeABC [0x004, 0x0AA])) =
      some [(0, 0x41), (1, 0x41), (2, 0x41), (3, 0x41), (4, 0x41), (5, 0x41), (6, 0x41)] := by decide

/-! ### Capability and unsupported commands, reserved codes, reset -/

/-- S6. -/
theorem test_flags :
    shown (exec (.canRead 7 9) (within (params true none) treeABC [] 0x58 3)) = some ⟨some (.respond ⟨.ok, 1⟩), 3, 3, 0, 0⟩ ∧
    shown (exec (.canWrite 7 9) (within (params true none) treeABC [] 0x58 3)) = some ⟨some (.respond ⟨.ok, 0⟩), 3, 3, 0, 0⟩ ∧
    shown (exec (.canSeek 7 9) (closed (params true none) treeABC [])) = some ⟨some (.respond ⟨.ok, 0⟩), 0, 0, 0, 0⟩ := by
  decide

/-- S7: an unsupported command in a session, by its word. -/
theorem test_seek : shown (step { within (params true none) treeABC [] 0x58 3 with cmds := [0xFFFF12340C] }) =
    some ⟨some (.respond ⟨.unsupportedOperation, 0⟩), 3, 3, 0, 0⟩ := by decide

/-- S8. -/
theorem test_reserved : shown (step { closed (params true none) treeABC [] with cmds := [0x07] }) =
    some ⟨some (.respond ⟨.unsupportedOperation, 0⟩), 0, 0, 0, 0⟩ := by decide

/-- R185: a reset in a session gives no response and clears the counters. -/
theorem test_reset : (match step { within (params true none) treeABC [0x160] 0x58 3 with rst := true } with
    | .next t => some (t.sess, t.bitpos.val, t.bitcnt, t.answers, t.trace)
    | _ => none) = some (.closed, 0, 0, [0x160], [.reset false]) := by decide

/-- The fetch word is the command the next step takes, also right after reset. -/
theorem test_withFetchWord : (match step (State.reset.withFetchWord 8 0x04) with
    | .next t => responsesIn t.trace
    | _ => []) = [⟨.ok, 1⟩] ∧ (decodeTableWord 8 0x04).map Instr.opcode = some 0x04 := ⟨rfl, rfl⟩

/-! ### Witnesses: states and operands that meet the hypotheses of each statement -/

/-- A session over `T_ABC` on the byte 0x58, without and with a bit limit, and with a byte half delivered. -/
abbrev session : State := opened (params true none) treeABC [0x160, 0x001]
abbrev limited : State := opened (params true (some 5)) treeABC [0x160]
abbrev inside : State := within (params true none) treeABC [0x001] 0x01 7

/-- The codes of 'A' and 'B' in `T_ABC`. -/
abbrev codesAB : List (List Bool × Byte) := [([false], 0x41), ([true, false], 0x42)]

theorem codesAB_lead (s : State) (htree : s.tree = treeABC) (hiw : s.cfg.iw = 4) :
    ∀ c ∈ codesAB, c.1 ≠ [] ∧ ∃ j, s.walk root c.1 = some j ∧ s.nodeAt j = some (.leaf c.2) := by
  intro c hc
  simp only [codesAB, List.mem_cons, List.not_mem_nil, or_false] at hc
  rcases hc with rfl | rfl
  · exact ⟨by decide, 1, by simp [State.walk, State.nodeAt, State.nodes, htree, hiw, treeABC, decodeNode, root, childIndex],
      by simp [State.nodeAt, htree, hiw, treeABC, decodeNode]⟩
  · exact ⟨by decide, 3, by simp [State.walk, State.nodeAt, State.nodes, htree, hiw, treeABC, decodeNode, root, childIndex],
      by simp [State.nodeAt, htree, hiw, treeABC, decodeNode]⟩

/-- A state with an open session over `T_ABC` that has delivered nothing meets the invariant. -/
theorem inv_opened (limit : Option Nat) (answers cmds : List Nat) :
    ({ opened (params true limit) treeABC answers with cmds := cmds } : State).Inv where
  params := show (params true none).wf by decide
  nodeWidth := by show 0 < 2 ^ 4; decide
  bitposCount := rfl
  limit := fun n _ => Nat.zero_le n
  cursor := show 0 = 0 + (0 + 7) / 8 by decide
  published := fun _ => test_arena_wf.1
  sessionTree := fun _ => test_arena_wf.1
  sessionNode := fun _ => by show 0 < 5; decide
  freshSymbol := fun _ _ => rfl
  busySession := fun _ => rfl
  blockedAtByte := fun c h => by simp [State.reset] at h
  pendingRead := fun _ _ _ h => by simp [State.reset] at h
  bufForm := List.Pairwise.nil
  bufRange := fun x h => by simp [State.reset] at h

/-- A READ waiting in its second symbol meets the invariant too. -/
theorem inv_blocked : ({ opened (params true none) treeABC [0x160] with
    activity := .blocked (.read 13 3 1), buf := [(13, 0x41)], bitcnt := 8, srcCursor := 1 } : State).Inv where
  params := by decide
  nodeWidth := by decide
  bitposCount := rfl
  limit := fun n h => by simp at h
  cursor := rfl
  published := fun _ => test_arena_wf.1
  sessionTree := fun _ => test_arena_wf.1
  sessionNode := fun _ => by decide
  freshSymbol := fun _ _ => rfl
  busySession := fun _ => rfl
  blockedAtByte := fun _ _ => ⟨rfl, rfl⟩
  pendingRead := fun o c n h => by
    simp only [reduceCtorEq, Activity.blocked.injEq, Pending.read.injEq, false_or] at h
    obtain ⟨rfl, rfl, rfl⟩ := h
    decide
  bufForm := by decide
  bufRange := fun x h => by
    simp only [List.mem_singleton] at h
    subst h
    decide

theorem witness_DecodeOfEncodeIsTheCommand : (Instr.read 0xFFFF 0xFFFF).wf 16 ∧ (Instr.write 0 0).wf 0 := by decide

theorem witness_EncodeOfDecodeIsTheWord :
    0xFFFFFFFF03 < 2 ^ (8 + 2 * 16) ∧ decode 16 0xFFFFFFFF03 = .ok (.read 0xFFFF 0xFFFF) := ⟨by decide, rfl⟩

theorem witness_NodeWordsRoundTrip : 4 ≤ 4 ∧ Node.wf 4 (.internal 15 15) = true ∧
    2 ^ 8 * 0 + (0xFF : Byte).toNat < 2 ^ (2 * 4) ∧ 2 ^ 8 * 0x3FF + (0x42 : Byte).toNat < 2 ^ (2 * 9) := by decide

theorem witness_AnswerWordsRoundTrip : Answer.wf 16 (.fail 0xFFFF) = true ∧ Answer.wf 16 (.byte 0xFF) = true ∧
    0xFFFF < 2 ^ 16 := by decide

theorem witness_ResponseWordsRoundTrip : Response.wf (params true none) ⟨.ioFailure, 0xFFFF⟩ := by decide

theorem witness_StepRunsTheDecodedCommand : ∃ s : State, s.rst = false ∧ s.activity = .idle ∧
    s.cmds = [0x000A000203] ∧ decode s.cfg.aw 0x000A000203 = .ok (.read 2 10) :=
  ⟨{ session with cmds := [0x000A000203] }, rfl, rfl, rfl, rfl⟩

theorem witness_ReservedCodeAnswersUnsupported : ∃ s : State, s.rst = false ∧ s.activity = .idle ∧
    s.cmds = [0x07, 0x0F, 0xFF] ∧ (0x07 % 2 ^ 8 = 0x07 ∨ 0x0F ≤ 0x07 % 2 ^ 8) ∧ 0x0F ≤ 0x0F % 2 ^ 8 ∧
    0x0F ≤ 0xFF % 2 ^ 8 := ⟨{ session with cmds := [0x07, 0x0F, 0xFF] }, rfl, rfl, rfl, by decide⟩

theorem witness_IdleCoreWaits : State.reset.rst = false ∧ State.reset.activity = .idle ∧ State.reset.cmds = [] :=
  ⟨rfl, rfl, rfl⟩

theorem witness_SilentSourceKeepsTheCommandWaiting : ∃ s : State, s.rst = false ∧
    s.activity = .blocked (.read 0 3 1) ∧ s.answers = [] :=
  ⟨{ opened (params true none) treeABC [] with activity := .blocked (.read 0 3 1) }, rfl, rfl, rfl⟩

theorem witness_RequestedResetRule : ∃ s : State, s.rst = true ∧ s.activity = .blocked .readByte ∧ s.answers = [0x160] :=
  ⟨{ opened (params true none) treeABC [0x160] with activity := .blocked .readByte, rst := true }, rfl, rfl, rfl⟩

theorem witness_ResetActsAsACloseForTheNextSession : ∃ (s afterClose afterReset t u : State), s.sess = .opened ∧
    s.activity = .idle ∧ s.rst = false ∧ s.srcPresent = true ∧ s.treePresent = true ∧
    exec (.closeStream 0 0) s = .next afterClose ∧ step { s with rst := true } = .next afterReset ∧
    exec (.openStream 0 0) afterClose = .next t ∧ exec (.openStream 0 0) afterReset = .next u :=
  ⟨inside, _, _, _, _, rfl, rfl, rfl, rfl, rfl, rfl, rfl, rfl, rfl⟩

theorem witness_EveryStepKeepsTheInvariant : ∃ s t : State, s.Inv ∧ step s = .next t ∧ responsesIn t.trace = [⟨.ok, 0x41⟩] :=
  ⟨{ session with cmds := [0x02] }, _, inv_opened none _ _, rfl, rfl⟩

theorem witness_LawfulStepsProceed : ∃ s : State, s.Inv ∧ sourceLawful s ∧ hostLawful s ∧ s.cmds = [0x02] := by
  refine ⟨{ session with cmds := [0x02] }, inv_opened none _ _,
    show ∀ w ∈ [0x160, 0x001], w % 2 ^ 2 ≠ 3 by decide, ?_, rfl⟩
  intro w rest i hc hd
  obtain ⟨rfl, -⟩ := List.cons.inj hc
  cases hd
  exact rfl

theorem witness_LawfulInputsKeepTheInvariant : ∃ s t : State, s.Inv ∧ (∀ words, InputEvent.setTreePresent true = .loadTree words →
    s.treePresent = true → arenaWF s.cfg.iw words) ∧ arenaWF s.cfg.iw s.tree ∧
    applyInput (.setTreePresent true) s = .next t :=
  ⟨session, _, inv_opened none _ _, fun _ h => by simp at h, test_arena_wf.1, rfl⟩

theorem witness_OpenBeginsASession : ∃ s : State, s.sess = .closed ∧ s.srcPresent = true ∧ s.treePresent = true :=
  ⟨closed (params true none) treeABC [], rfl, rfl, rfl⟩

theorem witness_InvalidArgumentIsOpenWithoutSourceOrTree : ∃ s t : State, s.sess = .closed ∧
    (s.srcPresent = false ∨ s.treePresent = false) ∧ step s = .next t ∧
    t.trace = s.trace ++ [.command 0, .respond ⟨.invalidArgument, 0⟩] :=
  ⟨{ closed (params true none) treeABC [] with treePresent := false, cmds := [0x00] }, _, rfl, .inr rfl, rfl, rfl⟩

theorem witness_sessions : (closed (params true none) treeABC []).sess = .closed ∧ session.sess = .opened := ⟨rfl, rfl⟩

theorem witness_UnsupportedBurstLeavesTheStream : session.rst = false ∧ session.activity = .idle ∧
    (∀ w ∈ [0x07, 0x08, 0x0E, 0x0F, 0xFFFF12340C, 0xFF], w % 2 ^ 8 = 0x07 ∨ 0x08 ≤ w % 2 ^ 8) := by decide

/-- One state for each case: limit reached, inside a byte, and a byte, an end and a failure at a byte boundary. -/
theorem witness_NextBitCases :
    (within (params true (some 5)) treeABC [] 0x58 5).cfg.bitLimit = some 5 ∧
    ((within (params true (some 5)) treeABC [] 0x58 4).cfg.bitLimit ≠ some 4 ∧
      (within (params true (some 5)) treeABC [] 0x58 4).bitpos ≠ 0) ∧
    (session.cfg.bitLimit ≠ some session.bitcnt ∧ session.bitpos = 0 ∧ session.answers = [0x160, 0x001]) ∧
    decodeAnswer 16 0x160 = some (.byte 0x58) ∧ decodeAnswer 16 0x001 = some .atEnd ∧
    decodeAnswer 16 0x0AA = some (.fail 0x2A) := by decide

theorem witness_NextBitsComeInStreamOrder : session.cfg.bitLimit = none ∧ session.bitpos = 0 ∧
    session.answers = [(0x58 : Byte)].map (fun b => encodeAnswer (.byte b)) ++ [0x001] ∧ 8 ≤ 8 * [(0x58 : Byte)].length := by
  decide

/-- An internal node with both children, one with an absent child, and a leaf. -/
theorem witness_DecoderTransitions :
    session.nodeAt session.node = some (.internal 1 2) ∧ 2 < session.nodes ∧
    (opened (params true none) treeHole []).nodeAt 0 = some (.internal 1 7) ∧
    (opened (params true none) treeHole []).nodes ≤ 7 ∧
    (opened (params true none) treeLeaf []).nodeAt 0 = some (.leaf 0x5A) := by decide

theorem witness_WellFormedTreesResolveEveryStream : session.treeWF ∧ session.rootInternal = true ∧
    session.nodes - 1 ≤ [true, true, true, true].length := by decide

theorem witness_CodesArePrefixFree : session.walk root [true, false] = some 3 ∧ session.nodeAt 3 = some (.leaf 0x42) ∧
    [true, false] <+: [true, false] := by decide

theorem witness_ArenaWalksAreTreePaths :
    session.prefixTree = some (.node (.leaf 0x41) (.node (.leaf 0x42) (.leaf 0x43))) := by decide

/-- `T_ABC` with two more words that the root does not lead to: a leaf, and an internal node that is its own child twice
over. -/
def treeUnreachable : List Nat := treeABC ++ [0x15A, 0x066]

/-- A session over it. -/
abbrev looseEnds : State := opened (params true none) treeUnreachable []

/-- R105: the unreachable words are ignored, though an index occurs as a child twice there and is not above its parent's. -/
theorem witness_BuilderCheckEnsuresTreeWF : looseEnds.builderCheck := by
  have h : ∀ i, looseEnds.reachable i → i < 5 := fun i hi => hi.induct (P := (· < 5)) (by decide) (by decide)
  have hlater : ∀ i < 5, ∀ c ∈ looseEnds.childrenOf i, i < c ∧ c < looseEnds.nodes := by decide
  have hdistinct : ∀ i < 5, (looseEnds.childrenOf i).Nodup := by decide
  have hparent : ∀ i < 5, ∀ j < 5, ∀ c ∈ looseEnds.childrenOf i, c ∈ looseEnds.childrenOf j → i = j := by decide
  exact ⟨by decide, fun i hi => hlater i (h i hi), fun i hi => hdistinct i (h i hi),
    fun i j hi hj => hparent i (h i hi) j (h j hj)⟩

theorem test_treeWF_ignores_unreachable : looseEnds.treeWF := by decide

/-- A code inside a byte, and one across a byte boundary. -/
theorem witness_ReadByteDecodesOneCode :
    (session.sess = .opened ∧ session.deliverable = [false] ++ [true, false, true, true, false, false, false] ∧
      session.walk root [false] = some 1 ∧ session.nodeAt 1 = some (.leaf 0x41)) ∧
    ((within (params true none) treeABC [0x200] 0x01 7).deliverable =
        [true, true] ++ [false, false, false, false, false, false, false] ∧
      (within (params true none) treeABC [0x200] 0x01 7).walk root [true, true] = some 4 ∧
      (within (params true none) treeABC [0x200] 0x01 7).nodeAt 4 = some (.leaf 0x43)) := by decide

theorem witness_ReadByteAtTheCleanEnd :
    ((within (params true (some 5)) treeABC [] 0x58 5).deliverable = [] ∧
      (within (params true (some 5)) treeABC [] 0x58 5).bitsEnd = .limit) ∧
    ((opened (params true none) treeABC [0x001]).deliverable = [] ∧
      (opened (params true none) treeABC [0x001]).bitsEnd = .sourceEnd) ∧
    ∀ n, (params true (some 5)).bitLimit = some n → 5 ≤ n :=
  ⟨by decide, by decide, fun n h => by cases h; decide⟩

theorem witness_ReadByteTruncatedInsideASymbol :
    (inside.deliverable = [true] ∧ inside.walk root [true] = some 2 ∧ inside.nodeAt 2 = some (.internal 3 4) ∧
      inside.bitsEnd = .sourceEnd) ∧
    ((within (params true (some 4)) treeABC [] 0x58 3).deliverable = [true] ∧
      (within (params true (some 4)) treeABC [] 0x58 3).bitsEnd = .limit) := by decide

/-- A failure at a symbol boundary and one inside a symbol. -/
theorem witness_ReadBytePassesSourceFailure :
    ((opened (params true none) treeABC [0x0AA]).deliverable = [] ∧
      (opened (params true none) treeABC [0x0AA]).bitsEnd = .sourceFail 0x2A) ∧
    ((within (params true none) treeABC [0x0AA] 0x01 7).deliverable = [true] ∧
      (within (params true none) treeABC [0x0AA] 0x01 7).walk root [true] = some 2 ∧
      (within (params true none) treeABC [0x0AA] 0x01 7).nodeAt 2 = some (.internal 3 4) ∧
      (within (params true none) treeABC [0x0AA] 0x01 7).bitsEnd = .sourceFail 0x2A) := by decide

/-- An absent child after one bit, an absent child of the root, and the one-node tree. -/
theorem witness_ReadByteDecodeError :
    ((opened (params true none) [0x021, 0x141, 0x017] [0x200]).deliverable =
        [true] ++ false :: [false, false, false, false, false, false] ∧
      (opened (params true none) [0x021, 0x141, 0x017] [0x200]).walk root [true] = some 2 ∧
      (opened (params true none) [0x021, 0x141, 0x017] [0x200]).nodeAt 2 = some (.internal 7 1) ∧
      childIndex 3 false (.internal 7 1) = none) ∧
    ((opened (params true none) treeHole []).nodeAt 0 = some (.internal 1 7) ∧
      childIndex 2 true (.internal 1 7) = none) ∧
    ((opened (params true none) treeLeaf []).nodeAt 0 = some (.leaf 0x5A) ∧
      childIndex 1 false (.leaf 0x5A) = none) := by decide

theorem witness_ReadByteBlocksOnSilence :
    (within (params true none) treeABC [] 0x01 7).deliverable = [true] ∧
    (within (params true none) treeABC [] 0x01 7).walk root [true] = some 2 ∧
    (within (params true none) treeABC [] 0x01 7).nodeAt 2 = some (.internal 3 4) ∧
    (within (params true none) treeABC [] 0x01 7).bitsEnd = .silence := by decide

/-- A source that ends, and one that falls silent after a whole code. -/
theorem witness_ReadByteRespondsOverAWellFormedTree :
    (session.Inv ∧ session.sess = .opened ∧ session.treeWF ∧ session.rootInternal = true ∧
      session.bitsEnd ≠ .silence ∧ session.bitsEnd ≠ .reserved) ∧
    ((opened (params true none) treeABC [0x160]).Inv ∧ (opened (params true none) treeABC [0x160]).bitsEnd = .silence ∧
      (opened (params true none) treeABC [0x160]).deliverable =
        [false] ++ [true, false, true, true, false, false, false] ∧
      (opened (params true none) treeABC [0x160]).walk root [false] = some 1 ∧
      (opened (params true none) treeABC [0x160]).nodeAt 1 = some (.leaf 0x41)) :=
  ⟨⟨inv_opened none _ _, by decide⟩, inv_opened none _ _, by decide⟩

theorem witness_ReadByteFrame : ∃ t, exec (.readByte 0 0) session = .next t ∧ t.bitcnt = 1 := ⟨_, rfl, rfl⟩

theorem witness_ReadOfCountZero : session.sess = .opened ∧ 16 ≤ session.cfg.bufSize := by decide

theorem witness_ReadWithoutRoomIsRefused : session.sess = .opened ∧ session.cfg.bufSize < 16 + 1 := by decide

theorem witness_ReadStoresTheDecodedSymbols : session.sess = .opened ∧ 14 + codesAB.length ≤ session.cfg.bufSize ∧
    session.deliverable = codesAB.flatMap Prod.fst ++ [true, true, false, false, false] ∧
    ∀ c ∈ codesAB, c.1 ≠ [] ∧ ∃ j, session.walk root c.1 = some j ∧ session.nodeAt j = some (.leaf c.2) :=
  ⟨rfl, by decide, by decide, codesAB_lead _ rfl rfl⟩

/-- With a bit limit after the two codes, and with a source that ends after the codes of eight 'A'. -/
theorem witness_ReadStopsAtEndOfStream :
    ((opened (params true (some 3)) treeABC [0x160]).deliverable = codesAB.flatMap Prod.fst ∧
      (opened (params true (some 3)) treeABC [0x160]).bitsEnd = .limit ∧ codesAB.length < 16 ∧ 0 + 16 ≤ 16) ∧
    (∀ c ∈ codesAB, c.1 ≠ [] ∧ ∃ j, (opened (params true (some 3)) treeABC [0x160]).walk root c.1 = some j ∧
      (opened (params true (some 3)) treeABC [0x160]).nodeAt j = some (.leaf c.2)) ∧
    ((opened (params true none) treeABC [0x000, 0x001]).deliverable =
        (List.replicate 8 ([false], (0x41 : Byte))).flatMap Prod.fst ∧
      (opened (params true none) treeABC [0x000, 0x001]).bitsEnd = .sourceEnd) :=
  ⟨by decide, codesAB_lead _ rfl rfl, by decide⟩

/-- Bits that end inside a third code, a failure at the boundary after two, and an absent child inside a second. -/
theorem witness_ReadErrorKeepsTheStoredBytes :
    ((opened (params true (some 4)) treeABC [0x160]).deliverable = codesAB.flatMap Prod.fst ++ [true] ∧
      (opened (params true (some 4)) treeABC [0x160]).bitsEnd = .limit ∧
      (opened (params true (some 4)) treeABC [0x160]).walk root [true] = some 2 ∧
      (opened (params true (some 4)) treeABC [0x160]).nodeAt 2 = some (.internal 3 4)) ∧
    ((within (params true none) treeABC [0x0AA] 0x02 5).deliverable = codesAB.flatMap Prod.fst ++ [] ∧
      (within (params true none) treeABC [0x0AA] 0x02 5).bitsEnd = .sourceFail 0x2A) ∧
    ((opened (params true none) [0x021, 0x141, 0x017] [0x100]).deliverable =
        [([false], (0x41 : Byte))].flatMap Prod.fst ++ ([true] ++ false :: [false, false, false, false, false]) ∧
      (opened (params true none) [0x021, 0x141, 0x017] [0x100]).walk root [false] = some 1 ∧
      (opened (params true none) [0x021, 0x141, 0x017] [0x100]).nodeAt 1 = some (.leaf 0x41) ∧
      (opened (params true none) [0x021, 0x141, 0x017] [0x100]).walk root [true] = some 2 ∧
      (opened (params true none) [0x021, 0x141, 0x017] [0x100]).nodeAt 2 = some (.internal 7 1) ∧
      childIndex 3 false (.internal 7 1) = none) := by decide

theorem witness_ReadFrame : ∃ t, exec (.read 2 10) limited = .next t ∧ t.buf = [(2, 0x41), (3, 0x42), (4, 0x43)] :=
  ⟨_, rfl, rfl⟩

/-- A complete READ, one that meets the end of the stream, and one that ends in an error after two symbols. -/
theorem witness_ReadAgreesWithReadBytes :
    (∃ t, exec (.read 2 3) limited = .next t ∧ ∃ new, t.trace = limited.trace ++ new ++ [.respond ⟨.ok, 3⟩]) ∧
    (∃ t, exec (.read 2 10) limited = .next t ∧ ∃ new, t.trace = limited.trace ++ new ++ [.respond ⟨.ok, 3⟩]) ∧
    ∃ t, exec (.read 0 16) (opened (params true (some 4)) treeABC [0x160]) = .next t ∧
      ∃ new, t.trace = (opened (params true (some 4)) treeABC [0x160]).trace ++ new ++ [.respond ⟨.truncatedStream, 0⟩] :=
  ⟨⟨_, rfl, _, rfl⟩, ⟨_, rfl, _, rfl⟩, _, rfl, _, rfl⟩

/-- The padding of zeros that `packed` adds itself, and a padding of ones (log 21). -/
theorem witness_PackedTextRoundTrips : session.sess = .opened ∧ session.bitpos = 0 ∧
    session.prefixTree = some (.node (.leaf 0x41) (.node (.leaf 0x42) (.leaf 0x43))) ∧ session.rootInternal = true ∧
    (∀ c ∈ [([false], 0x41), ([true, false], 0x42), ([true, true], 0x43)],
      IsCode (.node (.leaf 0x41) (.node (.leaf 0x42) (.leaf 0x43))) c.1 c.2) ∧
    session.answers =
      (packed true ([false, true, false, true, true] ++ [])).map (fun b => encodeAnswer (.byte b)) ++ [0x001] ∧
    (opened (params true none) treeABC [0x17C]).answers =
      (packed true ([false, true, false, true, true] ++ [true, true, true])).map (fun b => encodeAnswer (.byte b)) ++ [] := by
  decide

theorem witness_BlockingIsTransparent : ∃ t, exec (.read 0 16) (opened (params true none) treeABC [0x004]) = .next t ∧
    t.activity = .blocked (.read 0 16 7) := ⟨_, rfl, rfl⟩

/-- A step that fetches one byte. -/
theorem witness_StepsNeverWriteTheTree : ∃ t, step { session with cmds := [0x02] } = .next t ∧ t.srcCursor = 1 ∧
    bytesIn t.trace = [0x58] := ⟨_, rfl, rfl, rfl⟩

theorem witness_OnlyReadStores : ∃ t, step { session with cmds := [0x0003000003] } = .next t ∧ t.buf ≠ session.buf ∧
    t.trace = session.trace ++ t.trace.drop 0 := ⟨_, rfl, by decide, by decide⟩

theorem witness_EveryCommandGetsOneResponse : ∃ s t : State, s.rst = false ∧ s.cmds ≠ [] ∧ step s = .next t :=
  ⟨{ session with cmds := [0x02] }, _, rfl, by simp, rfl⟩

theorem witness_ErrorResponsesAreRecorded : ∃ s t : State, step s = .next t ∧
    t.trace = s.trace ++ [.command 0x08, .respond ⟨.unsupportedOperation, 0⟩] ∧ s.errored = true :=
  ⟨{ session with cmds := [0x08], errored := true }, _, rfl, rfl, rfl⟩

theorem witness_BitCountIsInertWithoutALimit : session.cfg.bitLimit = none ∧ session.bitpos = 0 := by decide

theorem witness_ResponsesFitTheirWord : ∃ s t : State, s.Inv ∧ step s = .next t ∧
    t.trace = s.trace ++ [.command 0x04, .respond ⟨.ok, 1⟩] :=
  ⟨{ session with cmds := [0x04] }, _, inv_opened none _ _, rfl, rfl⟩

end Sys2Proof.Machine.Tests
end

section
/-! PROOFS. The scope of the core (00_scope.md): a source that is silent, late answers, and what no step changes. -/

namespace Sys2Proof.Machine

/-! ### A silent source -/

/-- An outstanding fetch waits only when there is no answer, and changes nothing by it (R8). -/
theorem awaitBit_blocked {s t : State} (h : awaitBit s = .ok .blocked t) : s.answers = [] ∧ t = s := by
  rcases takeAnswer_cases s with ⟨ha, e⟩ | ⟨_, _, _, _, _, e⟩ | ⟨_, _, _, _, e⟩ | ⟨_, _, _, _, _, e⟩ |
    ⟨_, _, _, _, e⟩ <;> rw [awaitBit, e] at h <;> simp [deliverBit] at h
  exact ⟨ha, h.symm⟩

/-- NEXTBIT waits only at a byte boundary below the bit limit, its request made and no answer there (R8, R90). -/
theorem nextBit_blocked {s t : State} (h : nextBit s = .ok .blocked t) :
    s.limitReached = false ∧ s.bitpos = 0 ∧ s.answers = [] ∧ t = s.log .fetchRequest := by
  unfold nextBit at h
  split_ifs at h with hl hpos
  · simp at h
  · obtain ⟨ha, rfl⟩ := awaitBit_blocked h
    exact ⟨by simpa using hl, hpos, ha, rfl⟩
  · simp [deliverBit] at h

/-- A pushed bit ends a symbol with a byte or with DecodeError only (R134). -/
theorem pushBit_eq_some {s t : State} {b : Bool} {res : SymbolResult} (h : pushBit b s = .ok (some res) t) :
    (∃ v, res = .byte v) ∨ res = .error .decodeError := by
  obtain ⟨p, s1, -, h⟩ := Result.andThen_eq_ok.1 h
  cases p with
  | decodeError => simp_all
  | moved =>
    obtain ⟨has, s2, -, h⟩ := Result.andThen_eq_ok.1 h
    cases has with
    | false => simp at h
    | true =>
      obtain ⟨v, s3, -, h⟩ := Result.andThen_eq_ok.1 h
      simp only [Result.ok.injEq, Option.some.injEq] at h
      exact .inl ⟨v, h.1.symm⟩

/-- A symbol is left waiting only by NEXTBIT (R8, R134). -/
theorem symbolStep_blocked {s t : State} {r : BitResult} (h : symbolStep r s = .ok (some .blocked) t) :
    r = .blocked ∧ t = s := by
  cases r with
  | bit b => rcases pushBit_eq_some h with ⟨v, hv⟩ | hv <;> simp at hv
  | endOfInput => simp only [symbolStep] at h; split_ifs at h <;> simp at h
  | ioFailure e => simp [symbolStep] at h
  | blocked =>
    simp only [symbolStep, Result.ok.injEq, true_and] at h
    exact ⟨rfl, h.symm⟩

/-- The body of READ_BYTE waits only when the source's answers are used up (R8). -/
theorem symbolLoop_blocked {fuel : Nat} {s t : State} (h : symbolLoop fuel s = .ok .blocked t) : t.answers = [] := by
  induction fuel generalizing s with
  | zero => simp [symbolLoop] at h
  | succ fuel ih =>
    obtain ⟨r, s1, h1, h⟩ := Result.andThen_eq_ok.1 h
    obtain ⟨e, s2, h2, h⟩ := Result.andThen_eq_ok.1 h
    rcases e with _ | res
    · exact ih h
    · simp only [Result.ok.injEq] at h
      obtain ⟨rfl, rfl⟩ := h
      obtain ⟨rfl, rfl⟩ := symbolStep_blocked h2
      obtain ⟨-, -, ha, rfl⟩ := nextBit_blocked h1
      exact ha

theorem resumeSymbol_blocked {s t : State} (h : resumeSymbol s = .ok .blocked t) : t.answers = [] := by
  obtain ⟨r, s1, h1, h⟩ := Result.andThen_eq_ok.1 h
  obtain ⟨e, s2, h2, h⟩ := Result.andThen_eq_ok.1 h
  rcases e with _ | res
  · exact symbolLoop_blocked h
  · simp only [Result.ok.injEq] at h
    obtain ⟨rfl, rfl⟩ := h
    obtain ⟨rfl, rfl⟩ := symbolStep_blocked h2
    obtain ⟨ha, rfl⟩ := awaitBit_blocked h1
    exact ha

/-- A fetch that a silent source does not answer leaves the body of READ_BYTE where it is (R8). -/
theorem resumeSymbol_silent {s : State} (h : s.answers = []) : resumeSymbol s = .ok .blocked s := by
  simp [resumeSymbol, awaitBit, takeAnswer, h, symbolStep]

/-- A waiting command goes on waiting at the same place (R8). -/
theorem resumeCommand_silent {s : State} (c : Pending) (h : s.answers = []) :
    resumeCommand c s = .next (suspend (.blocked c) s) := by
  cases c <;> simp [resumeCommand, continueBulk, resumeSymbol_silent h, finishByte, bulkStep]

/-- Settles O11: a fetch without an answer does not move the command. -/
theorem silentSourceKeepsTheCommandWaiting : Obligations.SilentSourceKeepsTheCommandWaiting := by
  intro s c hrst hact hans
  have hsame : suspend (.blocked c) s = s := by rw [← hact]; rfl
  simp [step, hrst, hact, resumeCommand_silent c hans, hsame]

/-- Settles O40: the body walks the tree along all the bits there are and then meets the silence (R8, R180). -/
theorem readByteBlocksOnSilence : Obligations.ReadByteBlocksOnSilence := by
  intro a b s j hsess hlim hwalk hint hend
  obtain ⟨u, f, hloop, hw, hnode⟩ := freshSymbol_walk (rest := []) (by simp) hwalk hint
  obtain ⟨mid, hmid, hresp, hstores, -⟩ := hw.advance.transfers
  have hsilent : u.bitsEnd = .silence := by rw [hw.bitsEnd, (freshSymbol_deliverable s).2, hend]
  have hfits : s.deliverable.length ≤ (freshSymbol s).deliverable.length := by rw [(freshSymbol_deliverable s).1]
  have hblocked : u.bitpos = 0 ∧ u.answers = [] ∧ symbolLoop (f + 1) u = .ok .blocked (u.log .fetchRequest) := by
    rcases symbolLoop_at_end f (hw.limit hfits hlim) hw.deliverable with
      ⟨he, -⟩ | ⟨hpos, ⟨-, ha, hl⟩ | ⟨he, -⟩ | ⟨e, he, -⟩ | ⟨he, -⟩⟩
    · simp [he] at hsilent
    · exact ⟨hpos, ha, hl⟩
    all_goals simp [he] at hsilent
  obtain ⟨hpos, hans, hl⟩ := hblocked
  refine ⟨suspend (.blocked .readByte) (u.log .fetchRequest), mid, ?_, ?_, hresp, hstores⟩
  · rw [exec_readByte a b hsess, hloop, hl]
    rfl
  · have hcnt : u.bitcnt = s.bitcnt + s.deliverable.length := hw.bitcnt
    have hsym : u.symbits = s.deliverable.length := by simpa using hw.symbits
    have htrace : u.trace = s.trace ++ mid := hmid
    rw [suspend, State.log, hw.advance.frame]
    simp [hpos, hans, hnode, hcnt, hsym, htrace]

/-! ### What a command does before its end, and how it ends -/

/-- From `s` to `t` a command has only made transfers, or taken its word: no response yet, the parameters, the tree and
the inputs as they were, and the source read forward, byte by byte (R33, R41, R46). -/
structure Progress (s t : State) : Prop where
  frame : t = { s with
    cur := t.cur, bitpos := t.bitpos, bitcnt := t.bitcnt, node := t.node, symbits := t.symbits, sess := t.sess,
    cmds := t.cmds, answers := t.answers, srcCursor := t.srcCursor, buf := t.buf, trace := t.trace,
    errored := t.errored, srcBase := t.srcBase }
  forward : t.answers <:+ s.answers
  transfers : ∃ mid, t.trace = s.trace ++ mid ∧ responsesIn mid = [] ∧
    t.srcCursor = s.srcCursor + (bytesIn mid).length

theorem Progress.refl (s : State) : Progress s s :=
  ⟨rfl, List.suffix_refl _, [], by simp [responsesIn, bytesIn]⟩

theorem Progress.trans {s t u : State} (h : Progress s t) (k : Progress t u) : Progress s u := by
  obtain ⟨m, hm, hr, hb⟩ := h.transfers
  obtain ⟨m', hm', hr', hb'⟩ := k.transfers
  refine ⟨?_, k.forward.trans h.forward, m ++ m', by simp [hm', hm], by simp [hr, hr'], ?_⟩
  · rw [k.frame, h.frame]
  · simp [hb', hb, Nat.add_assoc]

theorem Advance.progress {s t : State} (h : Advance s t) : Progress s t := by
  obtain ⟨mid, hm, hr, -, hb⟩ := h.transfers
  exact ⟨by rw [h.frame], h.forward, mid, hm, hr, hb⟩

theorem Progress.ofAccept (w : Nat) (rest : List Nat) (s : State) : Progress s (acceptCommand w rest s) :=
  ⟨rfl, List.suffix_refl _, [.command w], rfl, rfl, rfl⟩

theorem Progress.ofStore {s t : State} {a : Nat} {v : Byte} (h : storeBuf a v s = .ok () t) : Progress s t := by
  obtain ⟨-, rfl, -⟩ := storeBuf_eq_ok h
  exact ⟨rfl, List.suffix_refl _, [.store a v], rfl, rfl, rfl⟩

theorem Progress.ofBeginSession (s : State) : Progress s (beginSession s) :=
  ⟨rfl, List.suffix_refl _, [], by simp [responsesIn, bytesIn]⟩

theorem Progress.ofCloseSession (s : State) : Progress s { s with sess := .closed } :=
  ⟨rfl, List.suffix_refl _, [], by simp [responsesIn, bytesIn]⟩

/-- How a command leaves a step: it responds, it keeps its place to go on, or it waits for a silent source. -/
inductive CommandEnd (s : State) : State → Prop where
  | responded {u : State} (r : Response) : Progress s u → CommandEnd s (respond r u)
  | running {u : State} (c : Pending) : Progress s u → CommandEnd s (suspend (.running c) u)
  | blocked {u : State} (c : Pending) : Progress s u → u.answers = [] → CommandEnd s (suspend (.blocked c) u)

theorem CommandEnd.after {s t u : State} (h : Progress s t) (k : CommandEnd t u) : CommandEnd s u := by
  cases k with
  | responded r hp => exact .responded r (h.trans hp)
  | running c hp => exact .running c (h.trans hp)
  | blocked c hp ha => exact .blocked c (h.trans hp) ha

/-- How a symbol's body leaves READ_BYTE or READ: it advances, and it waits only for a silent source. -/
def SymbolEnds (s : State) (x : Result SymbolResult) : Prop :=
  ∀ res t, x = .ok res t → Progress s t ∧ (res = .blocked → t.answers = [])

theorem readByteStep_ends (s : State) : SymbolEnds s (readByteStep s) := fun _ _ h =>
  ⟨(readByteStep_advance h).progress, fun hr => symbolLoop_blocked (hr ▸ h)⟩

theorem continueSymbol_ends (s : State) : SymbolEnds s (continueSymbol s) := fun _ _ h =>
  ⟨(continueSymbol_advance h).progress, fun hr => symbolLoop_blocked (hr ▸ h)⟩

theorem resumeSymbol_ends (s : State) : SymbolEnds s (resumeSymbol s) := fun _ _ h =>
  ⟨(resumeSymbol_advance h).progress, fun hr => resumeSymbol_blocked (hr ▸ h)⟩

theorem finishByte_ends {s t : State} {x : Result SymbolResult} (hx : SymbolEnds s x)
    (h : x.finish finishByte = .next t) : CommandEnd s t := by
  obtain ⟨res, u, hu, h⟩ := Result.finish_eq_next.1 h
  obtain ⟨hp, hb⟩ := hx res u hu
  cases res <;> obtain rfl := Host.Outcome.next.inj h
  · exact .responded _ hp
  · exact .responded _ hp
  · exact .responded _ hp
  · exact .blocked _ hp (hb rfl)
  · exact .running _ hp

/-- READ after a symbol's body, when the rounds that follow end as a command does. -/
theorem continueBulk_ends {offset count n : Nat} {s t : State} {x : Result SymbolResult} (hx : SymbolEnds s x)
    (hloop : ∀ u, bulkLoop offset count (count - (n + 1)) (n + 1) u = .next t → CommandEnd u t)
    (h : continueBulk offset count n x = .next t) : CommandEnd s t := by
  obtain ⟨res, u, hu, h⟩ := Result.finish_eq_next.1 h
  obtain ⟨hp, hb⟩ := hx res u hu
  obtain ⟨e, u', hstep, h⟩ := Result.finish_eq_next.1 h
  cases res
  case byte v =>
    obtain ⟨⟨⟩, u1, hst, hok⟩ := Result.andThen_eq_ok.1 hstep
    simp only [Result.ok.injEq] at hok
    obtain ⟨rfl, rfl⟩ := hok
    exact (hloop _ h).after (hp.trans (.ofStore hst))
  all_goals
    simp only [bulkStep, Result.ok.injEq] at hstep
    obtain ⟨rfl, rfl⟩ := hstep
    obtain rfl := Host.Outcome.next.inj h
  · exact .responded _ hp
  · exact .responded _ hp
  · exact .blocked _ hp (hb rfl)
  · exact .running _ hp

/-- One round of READ is a fresh symbol and what follows it. -/
theorem bulkLoop_succ {offset count left n : Nat} (hleft : left = count - (n + 1)) (s : State) :
    bulkLoop offset count (left + 1) n s = continueBulk offset count n (readByteStep s) := by
  subst hleft
  rfl

theorem bulkLoop_ends {offset count left n : Nat} (hleft : left = count - n) {s t : State}
    (h : bulkLoop offset count left n s = .next t) : CommandEnd s t := by
  induction left generalizing n s with
  | zero => exact Host.Outcome.next.inj h ▸ .responded _ (.refl s)
  | succ left ih =>
    rw [bulkLoop_succ (by omega)] at h
    refine continueBulk_ends (readByteStep_ends s) (fun u hu => ih (n := n + 1) (by omega) ?_) h
    rwa [show left = count - (n + 1) by omega]

/-- How READ_BYTE or READ leaves a step in which it goes on. -/
theorem continueCommand_ends {c : Pending} {s t : State} (h : continueCommand c s = .next t) : CommandEnd s t := by
  cases c with
  | readByte => exact finishByte_ends (continueSymbol_ends s) h
  | read offset count n => exact continueBulk_ends (continueSymbol_ends s) (fun _ => bulkLoop_ends rfl) h

theorem resumeCommand_ends {c : Pending} {s t : State} (h : resumeCommand c s = .next t) : CommandEnd s t := by
  cases c with
  | readByte => exact finishByte_ends (resumeSymbol_ends s) h
  | read offset count n => exact continueBulk_ends (resumeSymbol_ends s) (fun _ => bulkLoop_ends rfl) h

/-- How a command leaves the step that takes its word. -/
theorem exec_ends {i : Instr} {s t : State} (h : exec i s = .next t) : CommandEnd s t := by
  cases i with
  | openStream a b =>
    simp only [exec, execOpenStream] at h
    split at h
    · simp at h
    · split_ifs at h <;> obtain rfl := Host.Outcome.next.inj h
      · exact .responded _ (.ofBeginSession s)
      · exact .responded _ (.refl s)
  | closeStream a b =>
    simp only [exec, execCloseStream] at h
    split at h
    · simp at h
    · exact Host.Outcome.next.inj h ▸ .responded _ (.ofCloseSession s)
  | readByte a b =>
    simp only [exec, execReadByte] at h
    split at h
    · simp at h
    · exact finishByte_ends (readByteStep_ends s) h
  | read offset count =>
    simp only [exec, execRead] at h
    split at h
    · simp at h
    · split_ifs at h
      exact bulkLoop_ends (n := 0) rfl h
  | _ => exact Host.Outcome.next.inj h ▸ .responded _ (.refl s)

/-- What a command keeps at its end too, its response being one more transfer. -/
theorem CommandEnd.keeps {s t : State} (h : CommandEnd s t) :
    t.tree = s.tree ∧ t.cfg = s.cfg ∧ t.srcPresent = s.srcPresent ∧ t.treePresent = s.treePresent ∧
      t.answers <:+ s.answers ∧
      ∃ new, t.trace = s.trace ++ new ∧ t.srcCursor = s.srcCursor + (bytesIn new).length := by
  cases h with
  | @responded u r hp =>
    obtain ⟨mid, hm, -, hb⟩ := hp.transfers
    refine ⟨?_, ?_, ?_, ?_, hp.forward, mid ++ [.respond r], by simp [hm], by simp [hb, bytesIn]⟩ <;>
      rw [hp.frame] <;> rfl
  | running c hp | blocked c hp =>
    obtain ⟨mid, hm, -, hb⟩ := hp.transfers
    refine ⟨?_, ?_, ?_, ?_, hp.forward, mid, hm, hb⟩ <;> rw [hp.frame] <;> rfl

theorem CommandEnd.rst {s t : State} (h : CommandEnd s t) : t.rst = s.rst := by
  cases h with
  | responded r hp => rw [hp.frame]; rfl
  | running c hp | blocked c hp => rw [hp.frame]; rfl

theorem CommandEnd.answers_of_blocked {s t : State} {c : Pending} (h : CommandEnd s t)
    (hb : t.activity = .blocked c) : t.answers = [] := by
  cases h with
  | responded r hp | running c hp => simp at hb
  | blocked c hp ha => exact ha

/-- Without a reset a step waits for a command or does a part of one. -/
theorem step_ends {s t : State} (hrst : s.rst = false) (h : step s = .next t) : t = s ∨ CommandEnd s t := by
  rcases step_cases h with ⟨hr, -⟩ | ⟨-, -, -, rfl⟩ | ⟨-, -, w, rest, i, -, -, he⟩ | ⟨-, -, w, rest, -, rfl⟩ |
    ⟨-, c, -, he⟩ | ⟨-, c, -, he⟩
  · simp [hrst] at hr
  · exact .inl rfl
  · exact .inr ((exec_ends he).after (.ofAccept w rest s))
  · exact .inr (.responded _ (.ofAccept w rest s))
  · exact .inr (continueCommand_ends he)
  · exact .inr (resumeCommand_ends he)

/-- Settles O52: a reset keeps what its abort of a fetch keeps, and any other step waits or is part of a command. -/
theorem stepsNeverWriteTheTree : Obligations.StepsNeverWriteTheTree := by
  intro s t h
  cases hrst : s.rst with
  | false =>
    rcases step_ends hrst h with rfl | hend
    · exact ⟨rfl, rfl, rfl, rfl, List.suffix_refl _, le_refl _, fun _ => ⟨[], by simp [bytesIn]⟩⟩
    · obtain ⟨htree, hcfg, hsrc, hpub, hans, new, htr, hcur⟩ := hend.keeps
      exact ⟨htree, hcfg, hsrc, hpub, hans, by omega, fun _ => ⟨new, htr, hcur⟩⟩
  | true =>
    obtain ⟨answers, cursor, hab, hans, hcur⟩ := abortFetch_frame s
    obtain rfl : takeReset s = t := by simpa [step, hrst] using h
    rw [takeReset, hab]
    exact ⟨rfl, rfl, rfl, rfl, hans, hcur, by simp⟩

/-! ### Reset -/

/-- The parameters of the reset state are within the bounds of R6 (log 1). -/
theorem config_params_wf : Config.params.wf :=
  ⟨by simp [Config.params], by simp [Config.params], by simp [Config.params], min_le_right _ _⟩

/-- Settles O14: every field is the one `State.reset` gives. -/
theorem resetStateValues : Obligations.ResetStateValues := by
  unfold Obligations.ResetStateValues
  exact ⟨rfl, rfl, rfl, rfl, rfl, rfl, rfl, rfl, rfl, rfl, config_params_wf, rfl, rfl, rfl, rfl, rfl, rfl, rfl, rfl,
    rfl, rfl, rfl, rfl⟩

/-! ### Late answers -/

/-- The state with more answers to come and the core's activity set: what is late, and what only the end of a command
sets. -/
def State.late (later : List Nat) (a : Activity) (s : State) : State :=
  { s with answers := s.answers ++ later, activity := a }

@[simp] theorem late_bitpos (l : List Nat) (a : Activity) (s : State) : (s.late l a).bitpos = s.bitpos := rfl
@[simp] theorem late_node (l : List Nat) (a : Activity) (s : State) : (s.late l a).node = s.node := rfl
@[simp] theorem late_symbits (l : List Nat) (a : Activity) (s : State) : (s.late l a).symbits = s.symbits := rfl
@[simp] theorem late_sess (l : List Nat) (a : Activity) (s : State) : (s.late l a).sess = s.sess := rfl
@[simp] theorem late_srcPresent (l : List Nat) (a : Activity) (s : State) :
    (s.late l a).srcPresent = s.srcPresent := rfl
@[simp] theorem late_treePresent (l : List Nat) (a : Activity) (s : State) :
    (s.late l a).treePresent = s.treePresent := rfl
@[simp] theorem late_cfg (l : List Nat) (a : Activity) (s : State) : (s.late l a).cfg = s.cfg := rfl
@[simp] theorem late_nodes (l : List Nat) (a : Activity) (s : State) : (s.late l a).nodes = s.nodes := rfl
@[simp] theorem late_nodeAt (l : List Nat) (a : Activity) (s : State) (i : Nat) :
    (s.late l a).nodeAt i = s.nodeAt i := rfl
@[simp] theorem late_limitReached (l : List Nat) (a : Activity) (s : State) :
    (s.late l a).limitReached = s.limitReached := rfl

@[simp] theorem late_late (l : List Nat) (a a' : Activity) (s : State) : (s.late l a).late [] a' = s.late l a' := by
  simp [State.late]

/-- An operation that looks neither at the answers nor at the activity, with both changed in what it leaves. -/
def Result.late {α : Type} (later : List Nat) (a : Activity) (x : Result α) : Result α :=
  x.andThen fun r t => .ok r (t.late later a)

/-- What NEXTBIT's answer becomes when more answers come: only a wait goes on. -/
def lateBit (later : List Nat) (a : Activity) (r : BitResult) (t : State) : Result BitResult :=
  match r with
  | .blocked => awaitBit (t.late later a)
  | r => .ok r (t.late later a)

/-- What a symbol's end becomes when more answers come: only a wait goes on. -/
def lateSymbol (later : List Nat) (a : Activity) (res : SymbolResult) (t : State) : Result SymbolResult :=
  match res with
  | .blocked => resumeSymbol (t.late later a)
  | res => .ok res (t.late later a)

/-- What a command's outcome becomes when more answers come: only a wait goes on. -/
def lateCommand (later : List Nat) (o : Host.Outcome State Fault Refusal) : Host.Outcome State Fault Refusal :=
  match o with
  | .next t =>
    match t.activity with
    | .blocked c => resumeCommand c (t.late later (.blocked c))
    | a => .next (t.late later a)
  | o => o

theorem awaitBit_late (later : List Nat) (a : Activity) (s : State) :
    awaitBit (s.late later a) = (awaitBit s).andThen (lateBit later a) := by
  cases hs : s.answers with
  | nil => simp [awaitBit, takeAnswer, hs, lateBit]
  | cons w rest =>
    cases hd : decodeAnswer s.cfg.iow w with
    | none => simp [awaitBit, takeAnswer, State.late, hs, hd]
    | some ans => cases ans <;> simp [awaitBit, takeAnswer, State.late, hs, hd, lateBit, deliverBit, State.log]

theorem nextBit_late (later : List Nat) (a : Activity) (s : State) :
    nextBit (s.late later a) = (nextBit s).andThen (lateBit later a) := by
  rw [nextBit, nextBit, late_limitReached, late_bitpos]
  split_ifs
  · rfl
  · exact awaitBit_late later a (s.log .fetchRequest)
  · rfl

/-! The tree memory, the decoder and the buffer look neither at the answers nor at the activity. -/

theorem readTree_late (later : List Nat) (a : Activity) (i : Nat) (s : State) :
    readTree i (s.late later a) = (readTree i s).late later a := by
  rw [readTree, readTree, late_nodeAt]
  cases s.nodeAt i <;> rfl

theorem push_late (later : List Nat) (a : Activity) (b : Bool) (s : State) :
    push b (s.late later a) = (push b s).late later a := by
  rw [push, push, child, child, late_node, readTree_late]
  cases readTree s.node s with
  | fault r => rfl
  | refused r => rfl
  | ok n t =>
    simp only [Result.late, Result.ok_andThen, late_nodes]
    cases childIndex t.nodes b n <;> rfl

theorem hasValue_late (later : List Nat) (a : Activity) (s : State) :
    hasValue (s.late later a) = (hasValue s).late later a := by
  rw [hasValue, hasValue, isLeaf, isLeaf, late_node, readTree_late]
  cases readTree s.node s <;> rfl

theorem value_late (later : List Nat) (a : Activity) (s : State) :
    value (s.late later a) = (value s).late later a := by
  rw [value, value, symbol, symbol, late_node, readTree_late]
  cases readTree s.node s with
  | fault r => rfl
  | refused r => rfl
  | ok n t => cases n <;> rfl

theorem pushBit_late (later : List Nat) (a : Activity) (b : Bool) (s : State) :
    pushBit b (s.late later a) = (pushBit b s).late later a := by
  rw [pushBit, pushBit, push_late]
  cases push b s with
  | fault r => rfl
  | refused r => rfl
  | ok p t =>
    cases p with
    | decodeError => rfl
    | moved =>
      have hcount : { t.late later a with symbits := (t.late later a).symbits + 1 } =
        { t with symbits := t.symbits + 1 }.late later a := rfl
      simp only [Result.late, Result.ok_andThen, hcount, hasValue_late]
      cases hasValue { t with symbits := t.symbits + 1 } with
      | fault r => rfl
      | refused r => rfl
      | ok has u =>
        cases has with
        | false => rfl
        | true =>
          simp only [Result.ok_andThen, value_late]
          cases value u <;> rfl

theorem storeBuf_late (later : List Nat) (a : Activity) (addr : Nat) (v : Byte) (s : State) :
    storeBuf addr v (s.late later a) = (storeBuf addr v s).late later a := by
  rw [storeBuf, storeBuf, late_cfg]
  split_ifs <;> rfl

/-! ### The body of READ_BYTE with late answers -/

/-- At a byte boundary below the limit the loop is its fetch request and the rest (R90, R92). -/
theorem symbolLoop_at_fetch {fuel : Nat} {s : State} (hlimit : s.limitReached = false) (hpos : s.bitpos = 0)
    (hfuel : s.bitsBound < fuel) : symbolLoop fuel s = resumeSymbol (s.log .fetchRequest) := by
  cases fuel with
  | zero => omega
  | succ fuel =>
    have hnext : nextBit s = awaitBit (s.log .fetchRequest) := by simp [nextBit, hlimit, hpos]
    rw [symbolLoop, hnext, resumeSymbol]
    cases hr : awaitBit (s.log .fetchRequest) with
    | fault r => rfl
    | refused r => rfl
    | ok r t =>
      cases r with
      | bit b =>
        have hb : t.bitsBound < s.bitsBound := awaitBit_bound (s := s.log .fetchRequest) hpos hr
        simp only [Result.ok_andThen, symbolStep]
        cases hp : pushBit b t with
        | fault r => rfl
        | refused r => rfl
        | ok e u =>
          have hu := (pushBit_bound hp).1
          cases e with
          | some res => rfl
          | none => exact symbolLoop_fuel _ _ (by omega) (bitsBound_lt_symbolFuel u)
      | endOfInput => rfl
      | ioFailure e => rfl
      | blocked => rfl

/-- The loop with late answers is the loop without them, and what remains of it where that waits (R8). -/
theorem symbolLoop_late (later : List Nat) (a : Activity) {f g : Nat} {s : State} (hf : s.bitsBound < f)
    (hg : (s.late later a).bitsBound < g) :
    symbolLoop g (s.late later a) = (symbolLoop f s).andThen (lateSymbol later a) := by
  induction f generalizing s g with
  | zero => omega
  | succ f ih =>
    obtain ⟨g, rfl⟩ : ∃ g', g = g' + 1 := ⟨g - 1, by omega⟩
    have hlate := nextBit_late later a s
    cases hr : nextBit s with
    | fault r => rw [symbolLoop, symbolLoop, hlate, hr]; rfl
    | refused r => rw [symbolLoop, symbolLoop, hlate, hr]; rfl
    | ok r t =>
      rw [hr, Result.ok_andThen] at hlate
      cases r with
      | blocked =>
        obtain ⟨hl, hpos, -, rfl⟩ := nextBit_blocked hr
        rw [symbolLoop_at_fetch (s := s.late later a) hl hpos hg, symbolLoop, hr]
        rfl
      | endOfInput =>
        rw [symbolLoop, symbolLoop, hlate, hr]
        simp only [lateBit, Result.ok_andThen, symbolStep]
        rw [late_symbits]
        split_ifs <;> rfl
      | ioFailure e => rw [symbolLoop, symbolLoop, hlate, hr]; rfl
      | bit b =>
        have hb := nextBit_bound hr
        have hb' := nextBit_bound hlate
        rw [symbolLoop, symbolLoop, hlate, hr]
        simp only [lateBit, Result.ok_andThen, symbolStep, pushBit_late]
        cases hp : pushBit b t with
        | fault r => rfl
        | refused r => rfl
        | ok e u =>
          have hu := (pushBit_bound hp).1
          have hu' : (u.late later a).bitsBound = (t.late later a).bitsBound :=
            (pushBit_bound (b := b) (e := e) (by rw [pushBit_late, hp]; rfl)).1
          cases e with
          | none => exact ih (by omega) (by omega)
          | some res => rcases pushBit_eq_some hp with ⟨v, rfl⟩ | rfl <;> rfl

/-- A symbol's body with late answers is the body without them, and what remains of it where that waits. -/
theorem readByteStep_late (later : List Nat) (a : Activity) (s : State) :
    readByteStep (s.late later a) = (readByteStep s).andThen (lateSymbol later a) :=
  symbolLoop_late later a (s := freshSymbol s) (bitsBound_lt_symbolFuel (freshSymbol s))
    (bitsBound_lt_symbolFuel (freshSymbol (s.late later a)))

/-- A symbol's body does not look at the activity. -/
theorem readByteStep_activity (a : Activity) (s : State) :
    readByteStep (s.late [] a) = (readByteStep s).late [] a := by
  rw [readByteStep_late]
  cases h : readByteStep s with
  | fault r => rfl
  | refused r => rfl
  | ok res t =>
    cases res with
    | blocked =>
      have hans : (t.late [] a).answers = [] := by simp [State.late, symbolLoop_blocked h]
      exact resumeSymbol_silent hans
    | _ => rfl

/-! ### Commands with late answers -/

/-- Every end of READ_BYTE sets the activity, so the command does not depend on it. -/
theorem finishByte_activity (a : Activity) (s : State) :
    (readByteStep (s.late [] a)).finish finishByte = (readByteStep s).finish finishByte := by
  rw [readByteStep_activity]
  cases readByteStep s with
  | fault r => rfl
  | refused r => rfl
  | ok res t => cases res <;> simp [Result.late, finishByte, raise, respond, suspend, State.log, State.late]

/-- Every end of READ sets the activity, so its loop does not depend on it. -/
theorem bulkLoop_activity (offset count left n : Nat) (a : Activity) (s : State) :
    bulkLoop offset count left n (s.late [] a) = bulkLoop offset count left n s := by
  induction left generalizing n s with
  | zero => simp [bulkLoop, respond, State.late, State.log]
  | succ left ih =>
    rw [bulkLoop, bulkLoop, readByteStep_activity]
    cases readByteStep s with
    | fault r => rfl
    | refused r => rfl
    | ok res t =>
      cases res with
      | byte v =>
        simp only [Result.late, Result.ok_andThen, Result.ok_finish, bulkStep, storeBuf_late]
        cases storeBuf (storeAddress offset n) v t with
        | fault r => rfl
        | refused r => rfl
        | ok _ u => exact ih (n + 1) u
      | _ => simp [Result.late, bulkStep, raise, respond, suspend, State.log, State.late]

/-- READ_BYTE's body and answer with late answers (R8, R134). -/
theorem finishByte_late (later : List Nat) (s : State) (a : Activity) :
    (readByteStep (s.late later a)).finish finishByte = lateCommand later ((readByteStep s).finish finishByte) := by
  rw [← late_late later (.blocked .readByte), finishByte_activity, readByteStep_late]
  cases readByteStep s with
  | fault r => rfl
  | refused r => rfl
  | ok res t => cases res <;> rfl

/-- READ's loop with late answers: the symbol that waits is the one that goes on (R8, R135). -/
theorem bulkLoop_late (later : List Nat) {offset count left n : Nat} (hleft : left = count - n) (s : State)
    (a : Activity) :
    bulkLoop offset count left n (s.late later a) = lateCommand later (bulkLoop offset count left n s) := by
  induction left generalizing n s a with
  | zero => rfl
  | succ left ih =>
    obtain rfl : left = count - (n + 1) := by omega
    rw [← late_late later (.blocked (.read offset count n)), bulkLoop_activity, bulkLoop_succ rfl, bulkLoop_succ rfl,
      readByteStep_late]
    cases readByteStep s with
    | fault r => rfl
    | refused r => rfl
    | ok res t =>
      cases res with
      | byte v =>
        simp only [continueBulk, Result.ok_andThen, Result.ok_finish, lateSymbol, bulkStep, storeBuf_late]
        cases storeBuf (storeAddress offset n) v t with
        | fault r => rfl
        | refused r => rfl
        | ok _ u => exact ih rfl u _
      | _ => rfl

/-- A command with late answers is the command without them, and what remains of it where that waits. -/
theorem exec_late (later : List Nat) (i : Instr) (s : State) (a : Activity) :
    exec i (s.late later a) = lateCommand later (exec i s) := by
  cases i with
  | openStream =>
    rw [exec, exec, execOpenStream, execOpenStream, late_sess, late_srcPresent, late_treePresent]
    cases s.sess with
    | opened => rfl
    | closed => split_ifs <;> rfl
  | closeStream =>
    rw [exec, exec, execCloseStream, execCloseStream, late_sess]
    cases s.sess <;> rfl
  | readByte =>
    rw [exec, exec, execReadByte, execReadByte, late_sess]
    cases s.sess with
    | closed => rfl
    | opened => exact finishByte_late later s a
  | read offset count =>
    rw [exec, exec, execRead, execRead, late_sess, late_cfg]
    cases s.sess with
    | closed => rfl
    | opened =>
      simp only
      split_ifs
      · exact bulkLoop_late later (n := 0) rfl s a
      · rfl
  | _ => rfl

/-- Settles O51: the command with the late answers goes on as `lateCommand` says, which is what the step does. -/
theorem blockingIsTransparent : Obligations.BlockingIsTransparent := by
  intro i s t c later hrst h hact
  have hend := exec_ends h
  have hans : t.answers = [] := hend.answers_of_blocked hact
  have hlate : { t with answers := later } = t.late later (.blocked c) := by simp [State.late, hans, ← hact]
  refine ⟨hans, ?_⟩
  calc step { t with answers := later }
      = resumeCommand c { t with answers := later } := by simp [step, hend.rst, hrst, hact]
    _ = lateCommand later (exec i s) := by rw [hlate, h]; simp only [lateCommand, hact]
    _ = exec i { s with answers := s.answers ++ later } := (exec_late later i s s.activity).symm

end Sys2Proof.Machine
end

section
/-! PROOFS. The state (10_state.md): the invariant holds at reset and every step keeps it (R23, R33 to R36). -/

namespace Sys2Proof.Machine

/-- Settles O10: no reset, no command in progress and no word at the port leave nothing to do (R34). -/
theorem idleCoreWaits : Obligations.IdleCoreWaits := by
  intro s hrst hact hcmds
  simp [step, hrst, hact, hcmds]

/-- Settles O15: nothing has happened yet, so every clause but the widths is about nothing or about 0 (R34, R35). -/
theorem invariantAtReset : Obligations.InvariantAtReset where
  params := config_params_wf
  nodeWidth := Nat.mod_lt _ (Nat.two_pow_pos _)
  bitposCount := rfl
  limit := fun n _ => Nat.zero_le n
  cursor := rfl
  published := nofun
  sessionTree := nofun
  sessionNode := nofun
  freshSymbol := nofun
  busySession := fun h => absurd rfl h
  blockedAtByte := nofun
  pendingRead := nofun
  bufForm := reset_memory_wf
  bufRange := nofun

/-! ### The invariant and the core's activity -/

/-- A READ with symbols to go has room for them, and its count is an operand (R68, R135). -/
structure ReadRoom (p : Params) (offset count n : Nat) : Prop where
  toGo : n < count
  operand : count < 2 ^ p.aw
  fits : offset + count ≤ p.bufSize

/-- The READ that an activity keeps is the one it was given. -/
theorem ReadRoom.kept {p : Params} {offset count n : Nat} (h : ReadRoom p offset count n) {a : Activity}
    (ha : a = .running (.read offset count n) ∨ a = .blocked (.read offset count n)) (offset' count' n' : Nat)
    (ha' : a = .running (.read offset' count' n') ∨ a = .blocked (.read offset' count' n')) :
    ReadRoom p offset' count' n' := by
  rcases ha with rfl | rfl
  · obtain ⟨⟨⟩⟩ | ⟨⟨⟩⟩ := ha'
    exact h
  · obtain ⟨⟨⟩⟩ | ⟨⟨⟩⟩ := ha'
    exact h

/-- A fetch that waits stands at a byte boundary below the limit (R8, R90). -/
def Waits (s : State) : Prop := s.bitpos = 0 ∧ s.limitReached = false

/-- An idle core with the rest as it was: what speaks of a command in progress holds of no command. -/
theorem State.Inv.idle {s : State} (h : s.Inv) : (suspend .idle s).Inv :=
  { h with
    busySession := fun hbusy => absurd rfl hbusy
    blockedAtByte := nofun
    pendingRead := nofun }

/-- A response keeps the invariant: the command has ended. -/
theorem State.Inv.respond {s : State} (h : (suspend .idle s).Inv) (r : Response) : (respond r s).Inv := { h with }

theorem State.Inv.acceptCommand {s : State} (h : s.Inv) (w : Nat) (rest : List Nat) :
    (acceptCommand w rest s).Inv := { h with }

/-- The invariant between two operations of a command that reads, under the parameters `p`: a session is open, and all but
what speaks of the activity holds. -/
structure Reading (p : Params) (s : State) : Prop where
  cfg : s.cfg = p
  opened : s.sess = .opened
  inv : (suspend .idle s).Inv

theorem State.Inv.reading {s : State} (h : s.Inv) (hopen : s.sess = .opened) : Reading s.cfg s :=
  ⟨rfl, hopen, h.idle⟩

section
variable {p : Params} {s t : State}

/-- Nothing of the invariant is about the trace or the answers to come. -/
theorem Reading.transfer (h : Reading p s) (answers : List Nat) (trace : List Event) :
    Reading p { s with answers := answers, trace := trace } := ⟨h.cfg, h.opened, { h.inv with }⟩

theorem Reading.log (h : Reading p s) (e : Event) : Reading p (s.log e) := h.transfer _ _

/-- A command that keeps its place to go on keeps the invariant, when a wait stands at a byte boundary below the limit
and a READ has symbols to go (R90, R135). -/
theorem Reading.suspend (h : Reading p s) {a : Activity}
    (hwait : ∀ c, a = .blocked c → Waits s)
    (hread : ∀ offset count n, a = .running (.read offset count n) ∨ a = .blocked (.read offset count n) →
      ReadRoom p offset count n) : (suspend a s).Inv :=
  { h.inv with
    busySession := fun _ => h.opened
    blockedAtByte := hwait
    pendingRead := fun offset count n hc => by
      obtain ⟨hlt, hop, hfit⟩ := hread offset count n hc
      rw [suspend_cfg, h.cfg]
      exact ⟨hlt, hop, hfit⟩ }

/-! ### NEXTBIT -/

/-- One more bit: the offset agrees with the count again, and the bytes the bits need grow at a byte boundary alone
(R23, R33). -/
theorem bitCount_succ {cnt : Nat} {pos : Fin 8} (h : cnt % 8 = pos.val) :
    (cnt + 1) % 8 = (pos + 1).val ∧ (cnt + 1 + 7) / 8 = (cnt + 7) / 8 + if pos = 0 then 1 else 0 := by
  have hsucc : (pos + 1).val = (pos.val + 1) % 8 := Fin.val_add pos 1
  have hzero : pos = 0 ↔ pos.val = 0 := Fin.ext_iff
  have := pos.isLt
  simp only [hsucc, hzero]
  split_ifs <;> omega

/-- A delivered bit below the limit keeps the invariant, when the byte it comes from was fetched at a byte boundary and
nowhere else (R90, R92, R95). -/
theorem Reading.deliver (h : Reading p s) (hlimit : s.limitReached = false) (cur : Byte) (answers : List Nat)
    (trace : List Event) :
    Reading p { s with
      cur := cur, bitpos := s.bitpos + 1, bitcnt := s.bitcnt + 1, answers := answers,
      srcCursor := s.srcCursor + if s.bitpos = 0 then 1 else 0, trace := trace } := by
  obtain ⟨hpos, hbytes⟩ := bitCount_succ (cnt := s.bitcnt) (pos := s.bitpos) h.inv.bitposCount
  refine ⟨h.cfg, h.opened, { h.inv with
    bitposCount := hpos, limit := fun n hn => ?_, cursor := ?_, blockedAtByte := nofun }⟩
  · have hle : s.bitcnt ≤ n := h.inv.limit n hn
    have hne : s.bitcnt ≠ n := fun he => limitReached_false_iff.1 hlimit (he ▸ hn)
    show s.bitcnt + 1 ≤ n
    omega
  · have hcur : s.srcCursor = s.srcBase + (s.bitcnt + 7) / 8 := h.inv.cursor
    show s.srcCursor + _ = s.srcBase + (s.bitcnt + 1 + 7) / 8
    omega

theorem awaitBit_reading {r : BitResult} (h : Reading p s) (hwait : Waits s) (ht : awaitBit s = .ok r t) :
    Reading p t ∧ (r = .blocked → Waits t) := by
  obtain ⟨hpos, hlimit⟩ := hwait
  rcases takeAnswer_cases s with ⟨-, e⟩ | ⟨w, rest, b, -, -, e⟩ | ⟨w, rest, -, -, e⟩ | ⟨w, rest, k, -, -, e⟩ |
    ⟨-, -, -, -, e⟩ <;> rw [awaitBit, e] at ht
  · obtain ⟨rfl, rfl⟩ := Result.ok.inj ht
    exact ⟨h, fun _ => ⟨hpos, hlimit⟩⟩
  · obtain ⟨rfl, rfl⟩ := Result.ok.inj ht
    have := h.deliver hlimit b rest (s.trace ++ [.fetchAnswer (.byte b)])
    rw [if_pos hpos] at this
    exact ⟨this, nofun⟩
  · obtain ⟨rfl, rfl⟩ := Result.ok.inj ht
    exact ⟨h.transfer _ _, nofun⟩
  · obtain ⟨rfl, rfl⟩ := Result.ok.inj ht
    exact ⟨h.transfer _ _, nofun⟩
  · exact absurd ht nofun

theorem nextBit_reading {r : BitResult} (h : Reading p s) (ht : nextBit s = .ok r t) :
    Reading p t ∧ (r = .blocked → Waits t) := by
  unfold nextBit at ht
  split_ifs at ht with hlimit hpos
  · obtain ⟨rfl, rfl⟩ := Result.ok.inj ht
    exact ⟨h, nofun⟩
  · exact awaitBit_reading (h.log .fetchRequest) ⟨hpos, Bool.eq_false_iff.2 hlimit⟩ ht
  · obtain ⟨rfl, rfl⟩ := Result.ok.inj ht
    have := h.deliver (Bool.eq_false_iff.2 hlimit) s.cur s.answers s.trace
    rw [if_neg hpos] at this
    exact ⟨this, nofun⟩

/-! ### One symbol -/

theorem Reading.nodes_le (h : Reading p s) : s.nodes ≤ 2 ^ s.cfg.iw := (h.inv.sessionTree h.opened).2.1

theorem Reading.node_lt (h : Reading p s) : s.node < s.nodes := h.inv.sessionNode h.opened

theorem Reading.root_lt (h : Reading p s) : root < s.nodes := (h.inv.sessionTree h.opened).1

/-- The decoder moved to an index of the arena, at the root if the symbol is fresh (R35, R36). -/
theorem Reading.moveTo (h : Reading p s) {c k : Nat} (trace : List Event) (hc : c < s.nodes)
    (hroot : k = 0 → c = root) : Reading p { s with node := c, symbits := k, trace := trace } :=
  ⟨h.cfg, h.opened,
    { h.inv with
      nodeWidth := hc.trans_le h.nodes_le
      sessionNode := fun _ => hc
      freshSymbol := fun _ => hroot }⟩

theorem Reading.fresh (h : Reading p s) : Reading p (freshSymbol s) :=
  h.moveTo s.trace h.root_lt fun _ => rfl

/-- A pushed bit leaves the decoder where it is, or moves it to a child and counts (R116, R134). -/
theorem pushBit_reading {b : Bool} {e : Option SymbolResult} (h : Reading p s) (ht : pushBit b s = .ok e t) :
    Reading p t := by
  obtain ⟨n, hn⟩ := nodeAt_of_lt h.node_lt
  cases hc : childIndex s.nodes b n with
  | none =>
    rw [pushBit_noChild hn hc] at ht
    exact (Result.ok.inj ht).2 ▸ h.log _
  | some c =>
    have hlt := childIndex_lt hc
    obtain ⟨v | ⟨c0, c1⟩, hcn⟩ := nodeAt_of_lt hlt
    · rw [pushBit_leaf hn hc hcn] at ht
      exact (Result.ok.inj ht).2 ▸ h.moveTo _ hlt nofun
    · rw [pushBit_internal hn hc hcn] at ht
      exact (Result.ok.inj ht).2 ▸ h.moveTo _ hlt nofun

theorem symbolStep_reading {r : BitResult} {e : Option SymbolResult} (h : Reading p s)
    (ht : symbolStep r s = .ok e t) : Reading p t := by
  cases r with
  | bit b => exact pushBit_reading h ht
  | _ => exact (Result.ok.inj ht).2 ▸ h

/-- What a symbol's body may leave: the invariant, and its place when it waits. -/
def SymbolKeeps (p : Params) (x : Result SymbolResult) : Prop :=
  ∀ res t, x = .ok res t → Reading p t ∧ (res = .blocked → Waits t)

/-- A bit and what follows it: the rest of the body runs only where the symbol goes on. -/
theorem symbolKeeps_of_bit {x : Result BitResult} {rest : State → Result SymbolResult}
    (hx : ∀ r t, x = .ok r t → Reading p t ∧ (r = .blocked → Waits t))
    (hrest : ∀ u, Reading p u → SymbolKeeps p (rest u)) :
    SymbolKeeps p (x.andThen fun r s1 => (symbolStep r s1).andThen fun e s2 =>
      match e with
      | some res => .ok res s2
      | none => rest s2) := by
  intro res t ht
  obtain ⟨r, s1, h1, ht⟩ := Result.andThen_eq_ok.1 ht
  obtain ⟨e, s2, h2, ht⟩ := Result.andThen_eq_ok.1 ht
  obtain ⟨hs1, hwait⟩ := hx r s1 h1
  have hs2 := symbolStep_reading hs1 h2
  cases e with
  | none => exact hrest s2 hs2 res t ht
  | some e =>
    obtain ⟨rfl, rfl⟩ := Result.ok.inj ht
    refine ⟨hs2, ?_⟩
    rintro rfl
    obtain ⟨rfl, rfl⟩ := symbolStep_blocked h2
    exact hwait rfl

theorem symbolLoop_keeps (fuel : Nat) (h : Reading p s) : SymbolKeeps p (symbolLoop fuel s) := by
  induction fuel generalizing s with
  | zero =>
    intro res t ht
    obtain ⟨rfl, rfl⟩ := Result.ok.inj ht
    exact ⟨h, nofun⟩
  | succ fuel ih => exact symbolKeeps_of_bit (fun _ _ => nextBit_reading h) fun u hu => ih hu

theorem readByteStep_keeps (h : Reading p s) : SymbolKeeps p (readByteStep s) := symbolLoop_keeps _ h.fresh

theorem continueSymbol_keeps (h : Reading p s) : SymbolKeeps p (continueSymbol s) := symbolLoop_keeps _ h

theorem resumeSymbol_keeps (h : Reading p s) (hwait : Waits s) : SymbolKeeps p (resumeSymbol s) :=
  symbolKeeps_of_bit (fun _ _ => awaitBit_reading h hwait) fun _ hu => continueSymbol_keeps hu

/-! ### READ_BYTE and READ -/

theorem finishByte_inv {x : Result SymbolResult} (hx : SymbolKeeps p x) (ht : x.finish finishByte = .next t) :
    t.Inv := by
  obtain ⟨res, u, hu, ht⟩ := Result.finish_eq_next.1 ht
  obtain ⟨hread, hwait⟩ := hx res u hu
  cases res <;> obtain rfl := Host.Outcome.next.inj ht
  case blocked => exact hread.suspend (fun _ _ => hwait rfl) nofun
  case running => exact hread.suspend nofun nofun
  all_goals exact hread.inv.respond _

/-- A store inside the buffer keeps its canonical form and its bounds (R47). -/
theorem storeBuf_reading {a : Nat} {v : Byte} (h : Reading p s) (ht : storeBuf a v s = .ok () t) : Reading p t := by
  obtain ⟨ha, rfl, hform⟩ := storeBuf_eq_ok ht
  refine ⟨h.cfg, h.opened, { h.inv with bufForm := hform h.inv.bufForm, bufRange := fun x hx => ?_ }⟩
  rcases Memory.mem_write hx with hold | hnew
  · exact h.inv.bufRange x hold
  · exact hnew ▸ ha

/-- READ after a symbol's body, when the rounds that follow keep the invariant. -/
theorem continueBulk_inv {offset count n : Nat} {x : Result SymbolResult} (hx : SymbolKeeps p x)
    (hroom : ReadRoom p offset count n)
    (hloop : ∀ u, Reading p u → bulkLoop offset count (count - (n + 1)) (n + 1) u = .next t → t.Inv)
    (ht : continueBulk offset count n x = .next t) : t.Inv := by
  obtain ⟨res, u, hu, ht⟩ := Result.finish_eq_next.1 ht
  obtain ⟨hread, hwait⟩ := hx res u hu
  obtain ⟨e, u', hstep, ht⟩ := Result.finish_eq_next.1 ht
  cases res
  case byte v =>
    obtain ⟨⟨⟩, u1, hst, hok⟩ := Result.andThen_eq_ok.1 hstep
    obtain ⟨rfl, rfl⟩ := Result.ok.inj hok
    exact hloop _ (storeBuf_reading hread hst) ht
  all_goals
    obtain ⟨rfl, rfl⟩ := Result.ok.inj hstep
    obtain rfl := Host.Outcome.next.inj ht
  case blocked => exact hread.suspend (fun _ _ => hwait rfl) (hroom.kept (.inr rfl))
  case running => exact hread.suspend nofun (hroom.kept (.inl rfl))
  all_goals exact hread.inv.respond _

theorem bulkLoop_inv {offset count left n : Nat} (hleft : left = count - n) (h : Reading p s)
    (hop : count < 2 ^ p.aw) (hfit : offset + count ≤ p.bufSize)
    (ht : bulkLoop offset count left n s = .next t) : t.Inv := by
  induction left generalizing n s with
  | zero => exact Host.Outcome.next.inj ht ▸ h.inv.respond _
  | succ left ih =>
    have hrest : left = count - (n + 1) := by omega
    rw [bulkLoop_succ hrest] at ht
    exact continueBulk_inv (readByteStep_keeps h) ⟨by omega, hop, hfit⟩ (fun u hu hl => ih hrest hu (hrest ▸ hl)) ht

/-- What goes on after a symbol's body in the middle of a command keeps the invariant. -/
theorem continueCommand_inv {c : Pending} (h : s.Inv) (hact : s.activity = .running c)
    (ht : continueCommand c s = .next t) : t.Inv := by
  have hread := h.reading (h.busySession (by simp [hact]))
  cases c with
  | readByte => exact finishByte_inv (continueSymbol_keeps hread) ht
  | read offset count n =>
    obtain ⟨hlt, hop, hfit⟩ := h.pendingRead _ _ _ (.inl hact)
    exact continueBulk_inv (continueSymbol_keeps hread) ⟨hlt, hop, hfit⟩
      (fun u hu => bulkLoop_inv rfl hu hop hfit) ht

theorem resumeCommand_inv {c : Pending} (h : s.Inv) (hact : s.activity = .blocked c)
    (ht : resumeCommand c s = .next t) : t.Inv := by
  have hread := h.reading (h.busySession (by simp [hact]))
  have hkeeps := resumeSymbol_keeps hread (h.blockedAtByte c hact)
  cases c with
  | readByte => exact finishByte_inv hkeeps ht
  | read offset count n =>
    obtain ⟨hlt, hop, hfit⟩ := h.pendingRead _ _ _ (.inr hact)
    exact continueBulk_inv hkeeps ⟨hlt, hop, hfit⟩ (fun u hu => bulkLoop_inv rfl hu hop hfit) ht

end

/-! ### Commands and reset -/

/-- OPEN with a published tree starts at the root of a legal arena, with the cursors and their base set anew (R131). -/
theorem beginSession_inv {s : State} (h : s.Inv) (hpub : s.treePresent = true) :
    (suspend .idle (beginSession s)).Inv :=
  { h.idle with
    nodeWidth := Nat.two_pow_pos _
    bitposCount := rfl
    limit := fun n _ => Nat.zero_le n
    cursor := show s.srcCursor = s.srcCursor + (0 + 7) / 8 by rfl
    sessionTree := fun _ => h.published hpub
    sessionNode := fun _ => (h.published hpub).1
    freshSymbol := fun _ _ => rfl
    busySession := fun _ => rfl
    blockedAtByte := nofun }

/-- CLOSE leaves what speaks of a session without one (R132). -/
theorem closeSession_inv {s : State} (h : s.Inv) : (suspend .idle { s with sess := .closed }).Inv :=
  { h.idle with
    sessionTree := nofun
    sessionNode := nofun
    freshSymbol := nofun
    busySession := fun hbusy => absurd rfl hbusy }

/-- A command whose operands fit their fields keeps the invariant. -/
theorem exec_inv {i : Instr} {s t : State} (h : s.Inv) (hwf : i.wf s.cfg.aw) (ht : exec i s = .next t) : t.Inv := by
  cases i with
  | openStream a b =>
    simp only [exec, execOpenStream] at ht
    split at ht
    · simp at ht
    · split_ifs at ht with hpresent <;> obtain rfl := Host.Outcome.next.inj ht
      · exact (beginSession_inv h (Bool.and_eq_true_iff.1 hpresent).2).respond _
      · exact h.idle.respond _
  | closeStream a b =>
    simp only [exec, execCloseStream] at ht
    split at ht
    · simp at ht
    · exact Host.Outcome.next.inj ht ▸ (closeSession_inv h).respond _
  | readByte a b =>
    simp only [exec, execReadByte] at ht
    split at ht
    · simp at ht
    · exact finishByte_inv (readByteStep_keeps (h.reading ‹_›)) ht
  | read offset count =>
    simp only [exec, execRead] at ht
    split at ht
    · simp at ht
    · split_ifs at ht with hfit
      exact bulkLoop_inv (n := 0) rfl (h.reading ‹_›) hwf.2 hfit ht
  | _ => exact Host.Outcome.next.inj ht ▸ h.idle.respond _

theorem instrOfOp_operands {op a b : Nat} {i : Instr} (h : instrOfOp op a b = some i) : i.operands = (a, b) := by
  unfold instrOfOp at h
  split at h <;> cases h <;> rfl

/-- The operands of a decoded command have `AW` bits (R66, R68). -/
theorem decode_wf {aw w : Nat} {i : Instr} (h : decode aw w = .ok i) : i.wf aw := by
  unfold decode at h
  split at h
  · rename_i j hj
    cases h
    rw [Instr.wf, instrOfOp_operands hj]
    exact ⟨aField_lt aw w, bField_lt aw w⟩
  · simp at h

/-- A reset puts the counters and their base anew and leaves no session and no command (R185). -/
theorem takeReset_inv {s : State} (h : s.Inv) : (takeReset s).Inv := by
  obtain ⟨answers, cursor, hab, -, -⟩ := abortFetch_frame s
  rw [takeReset, hab]
  exact { h with
    nodeWidth := Nat.mod_lt _ (Nat.two_pow_pos _)
    bitposCount := rfl
    limit := fun n _ => Nat.zero_le n
    cursor := show cursor = cursor + (0 + 7) / 8 by rfl
    sessionTree := nofun
    sessionNode := nofun
    freshSymbol := nofun
    busySession := fun hbusy => absurd rfl hbusy
    blockedAtByte := nofun
    pendingRead := nofun }

/-- Settles O16: a reset starts anew, a wait changes nothing, and each part of a command keeps the invariant. -/
theorem everyStepKeepsTheInvariant : Obligations.EveryStepKeepsTheInvariant := by
  intro s t h ht
  rcases step_cases ht with ⟨-, rfl⟩ | ⟨-, -, -, rfl⟩ | ⟨-, -, w, rest, i, -, hd, he⟩ | ⟨-, -, w, rest, -, rfl⟩ |
    ⟨-, c, hact, he⟩ | ⟨-, c, hact, he⟩
  · exact takeReset_inv h
  · exact h
  · exact exec_inv (h.acceptCommand w rest) (decode_wf hd) he
  · exact (h.acceptCommand w rest).idle.respond _
  · exact continueCommand_inv h hact he
  · exact resumeCommand_inv h hact he

end Sys2Proof.Machine
end

section
/-! PROOFS. The state (10_state.md): elements no output depends on, told by two runs side by side (R21, R23, R34, R36). -/

namespace Sys2Proof.Machine

/-! ### Two runs side by side -/

/-- Two runs of an operation end alike: with one result and states that `R` relates, or at the same stop. -/
inductive Result.Agree {α : Type} (R : State → State → Prop) : Result α → Result α → Prop where
  | ok {s t : State} (a : α) (h : R s t) : Agree R (.ok a s) (.ok a t)
  | fault (r : Fault) : Agree R (.fault r) (.fault r)
  | refused (r : Refusal) : Agree R (.refused r) (.refused r)

/-- Two runs of a command end alike. -/
inductive OutcomesAgree (R : State → State → Prop) :
    Host.Outcome State Fault Refusal → Host.Outcome State Fault Refusal → Prop where
  | next {s t : State} (h : R s t) : OutcomesAgree R (.next s) (.next t)
  | fault (r : Fault) : OutcomesAgree R (.fault r) (.fault r)
  | refused (r : Refusal) : OutcomesAgree R (.refused r) (.refused r)

theorem Result.Agree.andThen {α β : Type} {R : State → State → Prop} {x y : Result α} {k : α → State → Result β}
    (h : Agree R x y) (hk : ∀ a s t, R s t → Agree R (k a s) (k a t)) : Agree R (x.andThen k) (y.andThen k) := by
  cases h with
  | ok a h => exact hk a _ _ h
  | fault r => exact .fault r
  | refused r => exact .refused r

theorem Result.Agree.finish {α : Type} {R : State → State → Prop} {x y : Result α}
    {k : α → State → Host.Outcome State Fault Refusal} (h : Agree R x y)
    (hk : ∀ a s t, R s t → OutcomesAgree R (k a s) (k a t)) : OutcomesAgree R (x.finish k) (y.finish k) := by
  cases h with
  | ok a h => exact hk a _ _ h
  | fault r => exact .fault r
  | refused r => exact .refused r

theorem OutcomesAgree.refl {R : State → State → Prop} (hR : ∀ s, R s s) (o : Host.Outcome State Fault Refusal) :
    OutcomesAgree R o o := by
  cases o with
  | next s => exact .next (hR s)
  | fault r => exact .fault r
  | refused r => exact .refused r

/-- Two runs of a command end alike when a command sees the same in both states, the responses, OPEN and CLOSE keep
the relation, and so do the two commands that read. -/
theorem exec_agree {R : State → State → Prop} {s t : State} (i : Instr) (h : R s t)
    (hseen : t.sess = s.sess ∧ t.srcPresent = s.srcPresent ∧ t.treePresent = s.treePresent ∧ t.cfg = s.cfg)
    (hrespond : ∀ r u v, R u v → R (respond r u) (respond r v))
    (hopen : R (beginSession s) (beginSession t))
    (hclose : R { s with sess := .closed } { t with sess := .closed })
    (hbyte : OutcomesAgree R ((readByteStep s).finish finishByte) ((readByteStep t).finish finishByte))
    (hbulk : ∀ offset count, OutcomesAgree R (bulkLoop offset count count 0 s) (bulkLoop offset count count 0 t)) :
    OutcomesAgree R (exec i s) (exec i t) := by
  obtain ⟨hsess, hsrc, htree, hcfg⟩ := hseen
  cases i with
  | openStream a b =>
    rw [exec, exec, execOpenStream, execOpenStream, hsess, hsrc, htree]
    cases s.sess with
    | opened => exact .refused _
    | closed =>
      simp only
      split_ifs
      · exact .next (hrespond _ _ _ hopen)
      · exact .next (hrespond _ _ _ h)
  | closeStream a b =>
    rw [exec, exec, execCloseStream, execCloseStream, hsess]
    cases s.sess with
    | closed => exact .refused _
    | opened => exact .next (hrespond _ _ _ hclose)
  | readByte a b =>
    rw [exec, exec, execReadByte, execReadByte, hsess]
    cases s.sess with
    | closed => exact .refused _
    | opened => exact hbyte
  | read offset count =>
    rw [exec, exec, execRead, execRead, hsess, hcfg]
    cases s.sess with
    | closed => exact .refused _
    | opened =>
      simp only
      split_ifs
      · exact hbulk offset count
      · exact .refused _
  | _ => exact .next (hrespond _ _ _ h)

/-! ### The stale byte and the free bit count -/

/-- Two states that are the same but for `cur`, where `stale` and at a byte boundary only, and for `bitcnt`, where `free`
and without a bit limit only (R21, R23). -/
inductive Alike (stale free : Prop) (s : State) : State → Prop where
  | intro (c : Byte) (k : Nat) (hcur : (stale ∧ s.bitpos = 0) ∨ c = s.cur)
      (hcount : (free ∧ s.cfg.bitLimit = none) ∨ k = s.bitcnt) : Alike stale free s { s with cur := c, bitcnt := k }

section
variable {stale free : Prop} {s t : State}

theorem Alike.log (h : Alike stale free s t) (e : Event) : Alike stale free (s.log e) (t.log e) := by
  obtain ⟨c, k, hcur, hcount⟩ := h
  exact .intro c k hcur hcount

theorem Alike.respond (h : Alike stale free s t) (r : Response) :
    Alike stale free (respond r s) (respond r t) := by
  obtain ⟨c, k, hcur, hcount⟩ := h
  exact .intro c k hcur hcount

theorem Alike.suspend (h : Alike stale free s t) (a : Activity) :
    Alike stale free (suspend a s) (suspend a t) := by
  obtain ⟨c, k, hcur, hcount⟩ := h
  exact .intro c k hcur hcount

theorem Alike.closeSession (h : Alike stale free s t) :
    Alike stale free { s with sess := .closed } { t with sess := .closed } := by
  obtain ⟨c, k, hcur, hcount⟩ := h
  exact .intro c k hcur hcount

/-- OPEN makes the counts equal and leaves `cur` at a byte boundary (R131). -/
theorem Alike.beginSession (h : Alike stale free s t) :
    Alike stale free (beginSession s) (beginSession t) := by
  obtain ⟨c, k, hcur, -⟩ := h
  exact .intro c 0 (hcur.imp_left fun hstale => ⟨hstale.1, rfl⟩) (.inr rfl)

theorem Alike.freshSymbol (h : Alike stale free s t) : Alike stale free (freshSymbol s) (freshSymbol t) := by
  obtain ⟨c, k, hcur, hcount⟩ := h
  exact .intro c k hcur hcount

/-- At the bit limit the counts are equal, and without one there is no limit to reach (R95). -/
theorem Alike.limitReached (h : Alike stale free s t) : t.limitReached = s.limitReached := by
  obtain ⟨c, k, -, ⟨-, hnone⟩ | rfl⟩ := h
  · simp [State.limitReached, hnone]
  · rfl

/-- Two states with the same byte deliver the same bit (R90). -/
theorem deliverBit_alike (h : Alike stale free s t) (hcur : t.cur = s.cur) :
    (deliverBit s).Agree (Alike stale free) (deliverBit t) := by
  obtain ⟨c, k, -, hcount⟩ := h
  obtain rfl : c = s.cur := hcur
  exact .ok _ (.intro s.cur (k + 1) (.inr rfl) (hcount.imp_right (congrArg (· + 1))))

theorem takeAnswer_alike (h : Alike stale free s t) : (takeAnswer s).Agree (Alike stale free) (takeAnswer t) := by
  obtain ⟨c, k, hcur, hcount⟩ := h
  unfold takeAnswer
  cases hs : s.answers with
  | nil => exact .ok _ (hs ▸ .intro c k hcur hcount)
  | cons w rest =>
    cases hd : decodeAnswer s.cfg.iow w with
    | none => simp only [hd]; exact .refused _
    | some ans => cases ans <;> simp only [hd] <;> exact .ok _ (.intro c k hcur hcount)

/-- A fetched byte takes the place of what stood in `cur` (R21, R90). -/
theorem awaitBit_alike (h : Alike stale free s t) : (awaitBit s).Agree (Alike stale free) (awaitBit t) := by
  refine (takeAnswer_alike h).andThen fun ans s t h => ?_
  rcases ans with _ | b | _ | e
  · exact .ok _ h
  · obtain ⟨c, k, -, hcount⟩ := h
    exact deliverBit_alike (.intro b k (.inr rfl) hcount) rfl
  · exact .ok _ h
  · exact .ok _ h

theorem nextBit_alike (h : Alike stale free s t) : (nextBit s).Agree (Alike stale free) (nextBit t) := by
  have hpos : t.bitpos = s.bitpos := by cases h; rfl
  rw [nextBit, nextBit, h.limitReached, hpos]
  split_ifs with hlimit hzero
  · exact .ok _ h
  · exact awaitBit_alike (h.log .fetchRequest)
  · refine deliverBit_alike h ?_
    obtain ⟨c, k, ⟨-, h0⟩ | rfl, -⟩ := h
    · exact absurd h0 hzero
    · rfl

/-! The decoder and the buffer look at neither element. -/

theorem readTree_alike (h : Alike stale free s t) (i : Nat) :
    (readTree i s).Agree (Alike stale free) (readTree i t) := by
  have hnode : t.nodeAt i = s.nodeAt i := by cases h; rfl
  rw [readTree, readTree, hnode]
  cases s.nodeAt i with
  | none => exact .fault _
  | some n => exact .ok n (h.log _)

theorem push_alike (h : Alike stale free s t) (b : Bool) : (push b s).Agree (Alike stale free) (push b t) := by
  have hnode : t.node = s.node := by cases h; rfl
  rw [push, push, hnode]
  refine ((readTree_alike h s.node).andThen fun n s t h => ?_).andThen fun c s t h => ?_
  · have hnodes : t.nodes = s.nodes := by cases h; rfl
    rw [hnodes]
    exact .ok _ h
  · cases c with
    | none => exact .ok _ h
    | some c =>
      obtain ⟨cur, k, hcur, hcount⟩ := h
      exact .ok _ (.intro cur k hcur hcount)

theorem hasValue_alike (h : Alike stale free s t) : (hasValue s).Agree (Alike stale free) (hasValue t) := by
  have hnode : t.node = s.node := by cases h; rfl
  rw [hasValue, hasValue, hnode]
  exact (readTree_alike h s.node).andThen fun n _ _ h => .ok _ h

theorem value_alike (h : Alike stale free s t) : (value s).Agree (Alike stale free) (value t) := by
  have hnode : t.node = s.node := by cases h; rfl
  rw [value, value, hnode]
  refine (readTree_alike h s.node).andThen fun n _ _ h => ?_
  cases n with
  | leaf v => exact .ok v h
  | internal c0 c1 => exact .refused _

theorem pushBit_alike (h : Alike stale free s t) (b : Bool) :
    (pushBit b s).Agree (Alike stale free) (pushBit b t) := by
  refine (push_alike h b).andThen fun p s t h => ?_
  cases p with
  | decodeError => exact .ok _ h
  | moved =>
    have hcounted : Alike stale free { s with symbits := s.symbits + 1 } { t with symbits := t.symbits + 1 } := by
      obtain ⟨c, k, hcur, hcount⟩ := h
      exact .intro c k hcur hcount
    refine (hasValue_alike hcounted).andThen fun has s t h => ?_
    cases has with
    | false => exact .ok _ h
    | true => exact (value_alike h).andThen fun v _ _ h => .ok _ h

theorem storeBuf_alike (h : Alike stale free s t) (a : Nat) (v : Byte) :
    (storeBuf a v s).Agree (Alike stale free) (storeBuf a v t) := by
  obtain ⟨c, k, hcur, hcount⟩ := h
  unfold storeBuf
  split_ifs
  · exact .ok _ (.intro c k hcur hcount)
  · exact .fault _

/-! ### Commands in two runs -/

theorem symbolStep_alike (h : Alike stale free s t) (r : BitResult) :
    (symbolStep r s).Agree (Alike stale free) (symbolStep r t) := by
  cases r with
  | bit b => exact pushBit_alike h b
  | endOfInput =>
    have hsym : t.symbits = s.symbits := by cases h; rfl
    rw [symbolStep, symbolStep, hsym]
    exact .ok _ h
  | _ => exact .ok _ h

theorem symbolLoop_alike (fuel : Nat) (h : Alike stale free s t) :
    (symbolLoop fuel s).Agree (Alike stale free) (symbolLoop fuel t) := by
  induction fuel generalizing s t with
  | zero => exact .ok _ h
  | succ fuel ih =>
    refine (nextBit_alike h).andThen fun r s t h => (symbolStep_alike h r).andThen fun e s t h => ?_
    cases e with
    | some res => exact .ok _ h
    | none => exact ih h

theorem readByteStep_alike (h : Alike stale free s t) :
    (readByteStep s).Agree (Alike stale free) (readByteStep t) := by
  have hfuel : symbolFuel t = symbolFuel s := by cases h; rfl
  rw [readByteStep, readByteStep, hfuel]
  exact symbolLoop_alike _ h.freshSymbol

theorem finishByte_alike (h : Alike stale free s t) (res : SymbolResult) :
    OutcomesAgree (Alike stale free) (finishByte res s) (finishByte res t) := by
  cases res with
  | blocked | running => exact .next (h.suspend _)
  | _ => exact .next (h.respond _)

theorem bulkLoop_alike (offset count left n : Nat) (h : Alike stale free s t) :
    OutcomesAgree (Alike stale free) (bulkLoop offset count left n s) (bulkLoop offset count left n t) := by
  induction left generalizing n s t with
  | zero => exact .next (h.respond _)
  | succ left ih =>
    refine (readByteStep_alike h).finish fun res s t h => ?_
    cases res with
    | byte v =>
      simp only [bulkStep, Result.andThen_finish]
      exact (storeBuf_alike h _ v).finish fun _ _ _ h => ih (n + 1) h
    | blocked | running => exact .next (h.suspend _)
    | _ => exact .next (h.respond _)

/-- Two runs of a command from states that differ in the stale byte and the free count alone end so too. -/
theorem exec_alike (i : Instr) (h : Alike stale free s t) :
    OutcomesAgree (Alike stale free) (exec i s) (exec i t) :=
  exec_agree i h (by cases h; exact ⟨rfl, rfl, rfl, rfl⟩) (fun r _ _ h => h.respond r) h.beginSession h.closeSession
    ((readByteStep_alike h).finish fun res _ _ h => finishByte_alike h res)
    fun offset count => bulkLoop_alike offset count count 0 h

end

/-- Settles O56: without a limit the count is free, and `cur` is the same at every byte boundary. -/
theorem bitCountIsInertWithoutALimit : Obligations.BitCountIsInertWithoutALimit := by
  intro i s k hnone
  have h := exec_alike i (Alike.intro (stale := False) (free := True) s.cur k (.inr rfl) (.inl ⟨trivial, hnone⟩))
  generalize exec i s = x at h ⊢
  generalize exec i { s with bitcnt := k } = y at h ⊢
  cases h with
  | next h =>
    obtain ⟨c, k, ⟨⟨⟩, -⟩ | rfl, -⟩ := h
    rfl
  | fault | refused => rfl

/-- Settles O57: at a byte boundary `cur` is stale, and the count is the same with a limit and without one. -/
theorem staleByteIsNeverUsed : Obligations.StaleByteIsNeverUsed := by
  intro i s c hpos
  have h := exec_alike i (Alike.intro (stale := True) (free := False) c s.bitcnt (.inl ⟨trivial, hpos⟩) (.inr rfl))
  generalize exec i s = x at h ⊢
  generalize exec i { s with cur := c } = y at h ⊢
  cases h with
  | next h =>
    obtain ⟨c, k, hcur, ⟨⟨⟩, -⟩ | rfl⟩ := h
    exact ⟨rfl, fun hne => hcur.resolve_left fun hstale => hne hstale.2⟩
  | fault | refused => rfl

/-! ### The previous symbol -/

/-- Two states that are the same but for `node` and `symbits`. -/
inductive SameButSymbol (s : State) : State → Prop where
  | intro (n k : Nat) : SameButSymbol s { s with node := n, symbits := k }

theorem SameButSymbol.refl (s : State) : SameButSymbol s s := .intro s.node s.symbits

theorem SameButSymbol.respond {s t : State} (h : SameButSymbol s t) (r : Response) :
    SameButSymbol (respond r s) (respond r t) := by
  obtain ⟨n, k⟩ := h
  exact .intro n k

/-- A symbol's body starts anew whatever the previous symbol left (R115, R134). -/
theorem readByteStep_forgets (s : State) (n k : Nat) :
    readByteStep { s with node := n, symbits := k } = readByteStep s := rfl

/-- So does a READ of at least one symbol (R135). -/
theorem bulkLoop_forgets (offset count left m : Nat) (s : State) (n k : Nat) :
    bulkLoop offset count (left + 1) m { s with node := n, symbits := k } = bulkLoop offset count (left + 1) m s := by
  rw [bulkLoop, bulkLoop, readByteStep_forgets]

/-- A command that decodes a symbol forgets the previous one whole. -/
theorem exec_forgets {i : Instr} (s : State) (n k : Nat)
    (hi : (∃ a b, i = .readByte a b) ∨ ∃ offset count, i = .read offset count ∧ 1 ≤ count) :
    exec i { s with node := n, symbits := k } = exec i s := by
  rcases hi with ⟨a, b, rfl⟩ | ⟨offset, count, rfl, hcount⟩
  · simp only [exec, execReadByte, readByteStep_forgets]
  · obtain ⟨left, rfl⟩ : ∃ left, count = left + 1 := ⟨count - 1, by omega⟩
    simp only [exec, execRead, bulkLoop_forgets]

/-- No command looks at what the previous symbol left (R36). -/
theorem exec_sameButSymbol (i : Instr) (s : State) (n k : Nat) :
    OutcomesAgree SameButSymbol (exec i s) (exec i { s with node := n, symbits := k }) := by
  refine exec_agree i (.intro n k) ⟨rfl, rfl, rfl, rfl⟩ (fun r _ _ h => h.respond r) (.refl _) (.intro n k) ?_ ?_
  · rw [readByteStep_forgets]
    exact .refl SameButSymbol.refl _
  · intro offset count
    cases count with
    | zero => exact .next (.respond (.intro n k) _)
    | succ left =>
      rw [bulkLoop_forgets]
      exact .refl SameButSymbol.refl _

/-- Settles O58: where a symbol is decoded the two runs are one, and otherwise the two elements pass through. -/
theorem previousSymbolIsNeverUsed : Obligations.PreviousSymbolIsNeverUsed := by
  intro i s n k
  have h := exec_sameButSymbol i s n k
  have hsame := exec_forgets (i := i) s n k
  generalize exec i s = x at h hsame ⊢
  generalize exec i { s with node := n, symbits := k } = y at h hsame ⊢
  cases h with
  | next h =>
    refine ⟨?_, fun hi => Host.Outcome.next.inj (hsame hi)⟩
    obtain ⟨n, k⟩ := h
    rfl
  | fault | refused => rfl

end Sys2Proof.Machine
end

section
/-! PROOFS. The memories (20_memory.md): answer words, bits of a byte, and what the outside may write (R42, R44, R46,
R48). -/

namespace Sys2Proof

/-! ### Answer words (R74, R75) -/

/-- The fields of an answer word: the kind below, the payload above (R74). -/
theorem answerWord_fields {kind : Nat} (payload : Nat) (hkind : kind < 2 ^ 2) :
    (kind + 2 ^ 2 * payload) % 2 ^ 2 = kind ∧ (kind + 2 ^ 2 * payload) / 2 ^ 2 = payload := by
  omega

theorem decodeAnswer_byteWord (iow payload : Nat) :
    decodeAnswer iow (0 + 2 ^ 2 * payload) = some (.byte (BitVec.ofNat 8 payload)) := by
  obtain ⟨hkind, hpayload⟩ := answerWord_fields payload (kind := 0) (by decide)
  simp only [decodeAnswer, hkind, hpayload]

theorem decodeAnswer_endWord (iow payload : Nat) : decodeAnswer iow (1 + 2 ^ 2 * payload) = some .atEnd := by
  obtain ⟨hkind, -⟩ := answerWord_fields payload (kind := 1) (by decide)
  simp only [decodeAnswer, hkind]

theorem decodeAnswer_failWord (iow payload : Nat) :
    decodeAnswer iow (2 + 2 ^ 2 * payload) = some (.fail (payload % 2 ^ iow)) := by
  obtain ⟨hkind, hpayload⟩ := answerWord_fields payload (kind := 2) (by decide)
  simp only [decodeAnswer, hkind, hpayload]

/-- A byte takes the low eight bits of a payload (R74). -/
theorem byte_ofNat_payload (b : Byte) (upper : Nat) : BitVec.ofNat 8 (b.toNat + 2 ^ 8 * upper) = b := by
  apply BitVec.eq_of_toNat_eq
  rw [BitVec.toNat_ofNat, Nat.add_mul_mod_self_left, Nat.mod_eq_of_lt b.isLt]

/-- Settles O6: each decoder equation at its kind, the ignored bits cut off by the width of the field. -/
theorem answerWordsRoundTrip : Obligations.AnswerWordsRoundTrip := by
  intro iow
  have hfail : ∀ upper e : Nat, e < 2 ^ iow →
      decodeAnswer iow (2 + 2 ^ 2 * (e + 2 ^ iow * upper)) = some (.fail e) := fun upper e he => by
    rw [decodeAnswer_failWord, Nat.add_mul_mod_self_left, Nat.mod_eq_of_lt he]
  refine ⟨fun ans hans => ?_, fun upper b => ?_, decodeAnswer_endWord iow, hfail, fun payload => ?_⟩
  · cases ans with
    | byte b => exact Machine.decodeAnswer_encode_byte iow b
    | atEnd => exact Machine.decodeAnswer_encode_atEnd iow
    | fail e => exact hfail 0 e (of_decide_eq_true hans)
  · rw [decodeAnswer_byteWord, byte_ofNat_payload]
  · exact Machine.decodeAnswer_eq_none.2 (answerWord_fields payload (by decide)).1

/-! ### Bits of a source byte (R48, R49) -/

/-- One delivery order is the other from its far end (R48). -/
theorem bitOf_rev (m : Bool) (c : Byte) (k : Fin 8) : bitOf m c k.rev = bitOf (!m) c k := by
  have hrev : 7 - k.rev.val = k.val ∧ k.rev.val = 7 - k.val := by rw [Fin.val_rev]; omega
  cases m with
  | false => rw [bitOf, hrev.2]; rfl
  | true => rw [bitOf, hrev.1]; rfl

theorem byteBits_reverse (m : Bool) (c : Byte) : (byteBits m c).reverse = byteBits (!m) c := by
  rw [byteBits, ← List.map_reverse, List.finRange_reverse, List.map_map]
  exact List.map_congr_left fun k _ => bitOf_rev m c k

/-- No bit of a byte is lost: low bits first the positions are the bits, and the other order is that one reversed
(R48, R49). -/
theorem byteBits_injective (m : Bool) {c c' : Byte} (h : byteBits m c = byteBits m c') : c = c' := by
  have hlow : byteBits false c = byteBits false c' := by
    cases m with
    | false => exact h
    | true => simpa [byteBits_reverse] using congrArg List.reverse h
  exact BitVec.eq_of_getLsbD_eq fun i hi => List.map_inj_left.1 hlow ⟨i, hi⟩ (List.mem_finRange _)

/-- Settles O27: position `k` from the one end is position `7 - k` from the other. -/
theorem bitOrderWithinAByte : Obligations.BitOrderWithinAByte := fun c =>
  ⟨fun _ => ⟨rfl, rfl⟩, (byteBits_reverse false c).symm, fun m _ h => byteBits_injective m h⟩

end Sys2Proof

namespace Sys2Proof.Machine

/-! ### Inputs from outside (R44, R46, R57, R186) -/

/-- Settles O60: the input event looks at `sess` alone. -/
theorem treeLoadInASessionIsRefused : Obligations.TreeLoadInASessionIsRefused := fun words s =>
  ⟨fun hopen => by simp [applyInput, hopen], fun hclosed => by simp [applyInput, hclosed]⟩

/-- An arena loaded outside a session keeps the invariant, if it is legal where it is published (R44, R186). -/
theorem State.Inv.loadTree {s : State} (h : s.Inv) {words : List Nat} (hclosed : s.sess = .closed)
    (hlegal : s.treePresent = true → arenaWF s.cfg.iw words) : ({ s with tree := words } : State).Inv :=
  { h with
    published := hlegal
    sessionTree := fun hopen => by simp [hclosed] at hopen
    sessionNode := fun hopen => by simp [hclosed] at hopen }

/-- Settles O19: the invariant speaks of the tree and its level only, of which the builder publishes a legal one. -/
theorem lawfulInputsKeepTheInvariant : Obligations.LawfulInputsKeepTheInvariant := by
  intro e s t h hload hpublish ht
  cases e with
  | loadTree words =>
    obtain ⟨hrefused, hloaded⟩ := treeLoadInASessionIsRefused words s
    have hclosed : s.sess = .closed := by
      cases hsess : s.sess with
      | opened => simp [hrefused hsess] at ht
      | closed => rfl
    rw [hloaded hclosed] at ht
    exact Host.Outcome.next.inj ht ▸ h.loadTree hclosed (hload words rfl)
  | setTreePresent level =>
    exact Host.Outcome.next.inj ht ▸ { h with published := fun hlevel => hpublish (congrArg _ hlevel) }
  | _ => exact Host.Outcome.next.inj ht ▸ { h with }

end Sys2Proof.Machine
end

section
/-! PROOFS. The memories (20_memory.md): no step from the invariant accesses what does not exist (R45, R47). -/

namespace Sys2Proof.Machine

/-! ### Where a fault comes from -/

theorem Result.andThen_eq_fault {α β : Type} {x : Result α} {k : α → State → Result β} {f : Fault} :
    x.andThen k = .fault f ↔ x = .fault f ∨ ∃ a s, x = .ok a s ∧ k a s = .fault f := by
  cases x <;> simp [Result.andThen]

theorem Result.finish_eq_fault {α : Type} {x : Result α} {k : α → State → Host.Outcome State Fault Refusal}
    {f : Fault} : x.finish k = .fault f ↔ x = .fault f ∨ ∃ a s, x = .ok a s ∧ k a s = .fault f := by
  cases x <;> simp [Result.finish]

/-! ### One symbol -/

/-- The source's answers are no memory access. -/
theorem takeAnswer_ne_fault (s : State) (f : Fault) : takeAnswer s ≠ .fault f := by
  rcases takeAnswer_cases s with ⟨-, e⟩ | ⟨_, _, _, -, -, e⟩ | ⟨_, _, -, -, e⟩ | ⟨_, _, _, -, -, e⟩ |
    ⟨_, _, -, -, e⟩ <;> simp [e]

theorem awaitBit_ne_fault (s : State) (f : Fault) : awaitBit s ≠ .fault f := by
  intro h
  rcases Result.andThen_eq_fault.1 h with h | ⟨ans, t, -, h⟩
  · exact takeAnswer_ne_fault s f h
  · rcases ans with _ | _ | _ | _ <;> exact absurd h nofun

theorem nextBit_ne_fault (s : State) (f : Fault) : nextBit s ≠ .fault f := by
  unfold nextBit
  split_ifs
  · exact nofun
  · exact awaitBit_ne_fault _ f
  · exact nofun

section
variable {p : Params} {s : State}

/-- A pushed bit reads `node`, which is an index of the arena, and a child in range (R45, R101). -/
theorem pushBit_ne_fault (h : Reading p s) (b : Bool) (f : Fault) : pushBit b s ≠ .fault f := by
  obtain ⟨n, hn⟩ := nodeAt_of_lt h.node_lt
  cases hc : childIndex s.nodes b n with
  | none => rw [pushBit_noChild hn hc]; exact nofun
  | some c =>
    obtain ⟨v | ⟨c0, c1⟩, hcn⟩ := nodeAt_of_lt (childIndex_lt hc)
    · rw [pushBit_leaf hn hc hcn]; exact nofun
    · rw [pushBit_internal hn hc hcn]; exact nofun

theorem symbolStep_ne_fault (h : Reading p s) (r : BitResult) (f : Fault) : symbolStep r s ≠ .fault f := by
  cases r with
  | bit b => exact pushBit_ne_fault h b f
  | _ => exact nofun

/-- A bit and what follows it: no fault, when the rest of the body gives none where the symbol goes on. -/
theorem ne_fault_of_bit {x : Result BitResult} {rest : State → Result SymbolResult} {f : Fault}
    (hx : x ≠ .fault f) (hread : ∀ r t, x = .ok r t → Reading p t)
    (hrest : ∀ u, Reading p u → rest u ≠ .fault f) :
    (x.andThen fun r s1 => (symbolStep r s1).andThen fun e s2 =>
      match e with
      | some res => .ok res s2
      | none => rest s2) ≠ .fault f := by
  intro h
  rcases Result.andThen_eq_fault.1 h with h | ⟨r, s1, h1, h⟩
  · exact hx h
  have hs1 := hread r s1 h1
  rcases Result.andThen_eq_fault.1 h with h | ⟨e, s2, h2, h⟩
  · exact symbolStep_ne_fault hs1 r f h
  · cases e with
    | some res => exact absurd h nofun
    | none => exact hrest s2 (symbolStep_reading hs1 h2) h

theorem symbolLoop_ne_fault (fuel : Nat) (h : Reading p s) (f : Fault) : symbolLoop fuel s ≠ .fault f := by
  induction fuel generalizing s with
  | zero => exact nofun
  | succ fuel ih =>
    exact ne_fault_of_bit (nextBit_ne_fault s f) (fun _ _ ht => (nextBit_reading h ht).1) fun _ hu => ih hu

theorem resumeSymbol_ne_fault (h : Reading p s) (hwait : Waits s) (f : Fault) : resumeSymbol s ≠ .fault f :=
  ne_fault_of_bit (awaitBit_ne_fault s f) (fun _ _ ht => (awaitBit_reading h hwait ht).1)
    fun _ hu => symbolLoop_ne_fault _ hu f

/-! ### READ_BYTE and READ -/

theorem finishByte_ne_fault {x : Result SymbolResult} {f : Fault} (hx : x ≠ .fault f) :
    x.finish finishByte ≠ .fault f := by
  intro h
  rcases Result.finish_eq_fault.1 h with h | ⟨res, t, -, h⟩
  · exact hx h
  · cases res <;> exact absurd h nofun

/-- A READ with symbols to go stores inside the buffer (R47, R135). -/
theorem storeBuf_of_room {offset count n : Nat} (h : Reading p s) (hroom : ReadRoom p offset count n) (v : Byte) :
    ∃ t, storeBuf (storeAddress offset n) v s = .ok () t := by
  obtain ⟨hlt, -, hfit⟩ := hroom
  have haddr : storeAddress offset n < s.cfg.bufSize := by
    rw [h.cfg, storeAddress]
    omega
  rw [storeBuf, if_pos haddr]
  exact ⟨_, rfl⟩

/-- READ after a symbol's body: no fault, when the rounds that follow give none. -/
theorem continueBulk_ne_fault {offset count n : Nat} {x : Result SymbolResult} {f : Fault} (hx : x ≠ .fault f)
    (hread : SymbolKeeps p x) (hroom : ReadRoom p offset count n)
    (hloop : ∀ u, Reading p u → bulkLoop offset count (count - (n + 1)) (n + 1) u ≠ .fault f) :
    continueBulk offset count n x ≠ .fault f := by
  intro h
  rcases Result.finish_eq_fault.1 h with h | ⟨res, t, ht, h⟩
  · exact hx h
  cases res with
  | byte v =>
    obtain ⟨u, hu⟩ := storeBuf_of_room (hread _ _ ht).1 hroom v
    simp only [bulkStep, hu, Result.ok_andThen, Result.ok_finish] at h
    exact hloop u (storeBuf_reading (hread _ _ ht).1 hu) h
  | _ => exact absurd h nofun

theorem bulkLoop_ne_fault {offset count left n : Nat} (hleft : left = count - n) (h : Reading p s)
    (hop : count < 2 ^ p.aw) (hfit : offset + count ≤ p.bufSize) (f : Fault) :
    bulkLoop offset count left n s ≠ .fault f := by
  induction left generalizing n s with
  | zero => exact nofun
  | succ left ih =>
    obtain rfl : left = count - (n + 1) := by omega
    rw [bulkLoop_succ rfl]
    exact continueBulk_ne_fault (symbolLoop_ne_fault _ h.fresh f) (readByteStep_keeps h) ⟨by omega, hop, hfit⟩
      fun _ hu => ih rfl hu

/-- The rest of a command in progress: no fault, when the rest of its symbol gives none. -/
theorem continueBulk_ne_fault_of_pending {offset count n : Nat} {x : Result SymbolResult} {f : Fault}
    (hx : x ≠ .fault f) (hread : SymbolKeeps p x) (hroom : ReadRoom p offset count n) :
    continueBulk offset count n x ≠ .fault f :=
  continueBulk_ne_fault hx hread hroom fun _ hu => bulkLoop_ne_fault rfl hu hroom.operand hroom.fits f

end

/-! ### Commands -/

theorem State.Inv.readRoom {s : State} {offset count n : Nat} (h : s.Inv)
    (hact : s.activity = .running (.read offset count n) ∨ s.activity = .blocked (.read offset count n)) :
    ReadRoom s.cfg offset count n := by
  obtain ⟨hlt, hop, hfit⟩ := h.pendingRead offset count n hact
  exact ⟨hlt, hop, hfit⟩

theorem continueCommand_ne_fault {c : Pending} {s : State} (h : s.Inv) (hact : s.activity = .running c) (f : Fault) :
    continueCommand c s ≠ .fault f := by
  have hread := h.reading (h.busySession (by simp [hact]))
  have hsym : continueSymbol s ≠ .fault f := symbolLoop_ne_fault _ hread f
  cases c with
  | readByte => exact finishByte_ne_fault hsym
  | read offset count n =>
    exact continueBulk_ne_fault_of_pending hsym (continueSymbol_keeps hread) (h.readRoom (.inl hact))

theorem resumeCommand_ne_fault {c : Pending} {s : State} (h : s.Inv) (hact : s.activity = .blocked c) (f : Fault) :
    resumeCommand c s ≠ .fault f := by
  have hread := h.reading (h.busySession (by simp [hact]))
  have hwait : Waits s := h.blockedAtByte c hact
  have hsym := resumeSymbol_ne_fault hread hwait f
  cases c with
  | readByte => exact finishByte_ne_fault hsym
  | read offset count n =>
    exact continueBulk_ne_fault_of_pending hsym (resumeSymbol_keeps hread hwait) (h.readRoom (.inr hact))

theorem exec_ne_fault {i : Instr} {s : State} (h : s.Inv) (hwf : i.wf s.cfg.aw) (f : Fault) :
    exec i s ≠ .fault f := by
  cases i with
  | openStream a b =>
    rw [exec, execOpenStream]
    cases s.sess with
    | opened => exact nofun
    | closed => simp only; split_ifs <;> exact nofun
  | closeStream a b =>
    rw [exec, execCloseStream]
    cases s.sess <;> exact nofun
  | readByte a b =>
    cases hsess : s.sess with
    | closed => simp [exec, execReadByte, hsess]
    | opened =>
      rw [exec_readByte a b hsess]
      exact finishByte_ne_fault (symbolLoop_ne_fault _ (h.reading hsess).fresh f)
  | read offset count =>
    cases hsess : s.sess with
    | closed => simp [exec, execRead, hsess]
    | opened =>
      by_cases hfit : offset + count ≤ s.cfg.bufSize
      · rw [exec_read hsess hfit]
        exact bulkLoop_ne_fault (n := 0) rfl (h.reading hsess) hwf.2 hfit f
      · simp [exec, execRead, hsess, hfit]
  | _ => exact nofun

/-- Settles O17: a step that faults would be a command from its word or a command in progress. -/
theorem invariantRulesOutFaults : Obligations.InvariantRulesOutFaults := by
  intro s f h
  unfold step
  split_ifs
  · exact nofun
  split
  next c hact => exact continueCommand_ne_fault h hact f
  next c hact => exact resumeCommand_ne_fault h hact f
  next =>
    split
    next => exact nofun
    next w rest _ =>
      split
      next i hd => exact exec_ne_fault (h.acceptCommand w rest) (decode_wf hd) f
      next => exact nofun

end Sys2Proof.Machine
end

section
/-! PROOFS. The memories (20_memory.md): one response for a command (R54), and only a READ stores to BUF (R47). -/

namespace Sys2Proof.Machine

/-! ### One response, last of all transfers (R54 (c), R71) -/

/-- A step with a command in progress or a word at the port does a part of a command. -/
theorem step_commandEnd {s t : State} (hrst : s.rst = false) (hwork : s.activity ≠ .idle ∨ s.cmds ≠ [])
    (h : step s = .next t) : CommandEnd s t := by
  rcases step_cases h with ⟨hr, -⟩ | ⟨-, hidle, hnone, -⟩ | ⟨-, -, w, rest, i, -, -, he⟩ | ⟨-, -, w, rest, -, rfl⟩ |
    ⟨-, c, -, he⟩ | ⟨-, c, -, he⟩
  · simp [hrst] at hr
  · exact absurd hwork (by simp [hidle, hnone])
  · exact (exec_ends he).after (.ofAccept w rest s)
  · exact .responded _ (.ofAccept w rest s)
  · exact continueCommand_ends he
  · exact resumeCommand_ends he

/-- Settles O54: a command that ends has one response, its last transfer, and one that keeps its place has none. -/
theorem everyCommandGetsOneResponse : Obligations.EveryCommandGetsOneResponse := by
  intro s t hrst hwork h
  cases step_commandEnd hrst hwork h with
  | @responded u r hp =>
    obtain ⟨mid, hm, hresp, -⟩ := hp.transfers
    exact ⟨mid, hresp, .inl ⟨rfl, r, congrArg (· ++ [Event.respond r]) hm⟩⟩
  | running c hp | blocked c hp =>
    obtain ⟨mid, hm, hresp, -⟩ := hp.transfers
    exact ⟨mid, hresp, .inr ⟨nofun, hm⟩⟩

/-! ### Only a READ stores -/

theorem instrOfOp_opcode {op a b : Nat} {i : Instr} (h : instrOfOp op a b = some i) : i.opcode = op := by
  unfold instrOfOp at h
  split at h <;> cases h <;> rfl

/-- A decoded command has the operation code of its word (R67). -/
theorem opcode_of_decode {aw w : Nat} {i : Instr} (h : decode aw w = .ok i) : i.opcode = opField w := by
  unfold decode at h
  split at h
  · rename_i j hj
    cases h
    exact instrOfOp_opcode hj
  · simp at h

/-- READ_BYTE's answer to its body's end stores nothing. -/
theorem finishByte_buf {x : Result SymbolResult} {s t : State} (hx : ∀ res u, x = .ok res u → Advance s u)
    (h : x.finish finishByte = .next t) : t.buf = s.buf := by
  obtain ⟨res, u, hu, h⟩ := Result.finish_eq_next.1 h
  rw [← (hx res u hu).buf]
  cases res <;> exact Host.Outcome.next.inj h ▸ rfl

theorem exec_buf {i : Instr} {s t : State} (hi : ∀ offset count, i ≠ .read offset count)
    (h : exec i s = .next t) : t.buf = s.buf := by
  cases i with
  | openStream a b =>
    simp only [exec, execOpenStream] at h
    split at h
    · simp at h
    · split_ifs at h <;> exact Host.Outcome.next.inj h ▸ rfl
  | closeStream a b =>
    simp only [exec, execCloseStream] at h
    split at h
    · simp at h
    · exact Host.Outcome.next.inj h ▸ rfl
  | readByte a b =>
    simp only [exec, execReadByte] at h
    split at h
    · simp at h
    · exact finishByte_buf (fun _ _ => readByteStep_advance) h
  | read offset count => exact absurd rfl (hi offset count)
  | _ => exact Host.Outcome.next.inj h ▸ rfl

/-- Settles O53: a reset, a wait, and every command but READ leave BUF as it was. -/
theorem onlyReadStores : Obligations.OnlyReadStores := by
  intro s t h hbuf
  rcases step_cases h with ⟨-, rfl⟩ | ⟨-, -, -, rfl⟩ | ⟨-, hidle, w, rest, i, hcmds, hd, he⟩ |
    ⟨-, -, w, rest, -, rfl⟩ | ⟨-, c, hact, he⟩ | ⟨-, c, hact, he⟩
  · obtain ⟨answers, cursor, hab, -, -⟩ := abortFetch_frame s
    exact absurd (by rw [takeReset, hab]; rfl) hbuf
  · exact absurd rfl hbuf
  · have hread : ∃ offset count, i = .read offset count := by
      by_contra hother
      exact hbuf (exec_buf (s := acceptCommand w rest s) (fun offset count hi => hother ⟨offset, count, hi⟩) he)
    obtain ⟨offset, count, rfl⟩ := hread
    exact .inl ⟨hidle, w, rest, hcmds, (opcode_of_decode hd).symm⟩
  · exact absurd rfl hbuf
  · cases c with
    | readByte => exact absurd (finishByte_buf (fun _ _ => continueSymbol_advance) he) hbuf
    | read offset count n => exact .inr ⟨offset, count, n, .inl hact⟩
  · cases c with
    | readByte => exact absurd (finishByte_buf (fun _ _ => resumeSymbol_advance) he) hbuf
    | read offset count n => exact .inr ⟨offset, count, n, .inr hact⟩

end Sys2Proof.Machine
end

section
/-! PROOFS. The memories (20_memory.md): what READ stores, and what it leaves unchanged (R47, R96, R135). -/

namespace Sys2Proof.Machine

/-! ### Symbols stored one after the other -/

theorem writeBytes_append (m : List Host.Cell) (a : Nat) (vs vs' : List Byte) :
    writeBytes m a (vs ++ vs') = writeBytes (writeBytes m a vs) (a + vs.length) vs' := by
  induction vs generalizing m a with
  | nil => rfl
  | cons v vs ih =>
    rw [List.cons_append, writeBytes, ih, writeBytes, List.length_cons, Nat.add_assoc, Nat.add_comm 1]

theorem bulkStores_append (a : Nat) (vs vs' : List Byte) :
    bulkStores a (vs ++ vs') = bulkStores a vs ++ bulkStores (a + vs.length) vs' := by
  induction vs generalizing a with
  | nil => rfl
  | cons v vs ih =>
    rw [List.cons_append, bulkStores_cons, ih, bulkStores_cons, List.length_cons, Nat.add_assoc, Nat.add_comm 1,
      List.cons_append]

/-- From `s` to `t` a READ has stored the bytes `vs` from the address `a` on, with the transfers `mid` and without a
response. -/
structure Stored (a : Nat) (vs : List Byte) (mid : List Event) (s t : State) : Prop where
  advance : BulkAdvance s t
  buf : t.buf = writeBytes s.buf a vs
  trace : t.trace = s.trace ++ mid
  responses : responsesIn mid = []
  stores : storesIn mid = bulkStores a vs

theorem Stored.trans {a : Nat} {vs vs' : List Byte} {mid mid' : List Event} {s t u : State} (h : Stored a vs mid s t)
    (k : Stored (a + vs.length) vs' mid' t u) : Stored a (vs ++ vs') (mid ++ mid') s u where
  advance := h.advance.trans k.advance
  buf := by rw [k.buf, h.buf, writeBytes_append]
  trace := by rw [k.trace, h.trace, List.append_assoc]
  responses := by rw [responsesIn_append, h.responses, k.responses]; rfl
  stores := by rw [storesIn_append, h.stores, k.stores, bulkStores_append]

/-- A symbol's body stores nothing. -/
theorem Advance.stored {s t : State} (h : Advance s t) (a : Nat) : ∃ mid, Stored a [] mid s t := by
  obtain ⟨mid, hm, hr, hs, -⟩ := h.transfers
  exact ⟨mid, h.bulk, h.buf, hm, hr, hs⟩

/-- One store (R47). -/
theorem Stored.ofStore {a : Nat} {v : Byte} {s t : State} (h : storeBuf a v s = .ok () t) :
    Stored a [v] [.store a v] s t := by
  obtain ⟨-, rfl, -⟩ := storeBuf_eq_ok h
  exact ⟨.ofStore s a v, rfl, rfl, rfl, rfl⟩

/-! ### However READ ends -/

/-- READ ends, or keeps its place, after it has stored some of the `left` bytes from `a` on that were to come after the
first `n`; an OK response counts them all (R135). -/
inductive ReadEnd (a left n : Nat) (s : State) : State → Prop where
  | responded {vs : List Byte} {mid : List Event} {u : State} (r : Response) : Stored a vs mid s u →
      vs.length ≤ left → (r.status = .ok → r.data = n + vs.length) → ReadEnd a left n s (respond r u)
  | suspended {vs : List Byte} {mid : List Event} {u : State} (act : Activity) : Stored a vs mid s u →
      vs.length ≤ left → ReadEnd a left n s (suspend act u)

theorem ReadEnd.after {a left n : Nat} {v : Byte} {mid : List Event} {s t u : State} (h : Stored a [v] mid s t)
    (k : ReadEnd (a + 1) left (n + 1) t u) : ReadEnd a (left + 1) n s u := by
  cases k with
  | @responded vs _ _ r hs hle hr =>
    exact .responded r (h.trans hs) (Nat.succ_le_succ hle) fun hok => by
      rw [hr hok, List.length_append, List.length_singleton, Nat.add_assoc]
  | suspended act hs hle => exact .suspended act (h.trans hs) (Nat.succ_le_succ hle)

/-- Every round stores its symbol, or ends READ with nothing stored (R135). -/
theorem bulkLoop_readEnd {offset count left n : Nat} {s t : State} (h : bulkLoop offset count left n s = .next t) :
    ReadEnd (offset + n) left n s t := by
  induction left generalizing n s with
  | zero =>
    obtain rfl := Host.Outcome.next.inj h
    obtain ⟨mid, hs⟩ := (Advance.refl s).stored (offset + n)
    exact .responded _ hs (Nat.zero_le _) fun _ => rfl
  | succ left ih =>
    obtain ⟨res, u, hu, h⟩ := Result.finish_eq_next.1 h
    obtain ⟨mid, hs⟩ := (readByteStep_advance hu).stored (offset + n)
    obtain ⟨e, u', hstep, h⟩ := Result.finish_eq_next.1 h
    cases res with
    | byte v =>
      obtain ⟨⟨⟩, u1, hst, hok⟩ := Result.andThen_eq_ok.1 hstep
      obtain ⟨rfl, rfl⟩ := Result.ok.inj hok
      exact .after (hs.trans (.ofStore hst)) (ih h)
    | endOfStream =>
      obtain ⟨rfl, rfl⟩ := Result.ok.inj hstep
      exact Host.Outcome.next.inj h ▸ .responded _ hs (Nat.zero_le _) fun _ => rfl
    | error k =>
      obtain ⟨rfl, rfl⟩ := Result.ok.inj hstep
      exact Host.Outcome.next.inj h ▸ .responded _ hs (Nat.zero_le _) fun hok => by
        cases k <;> simp [errorResponse] at hok
    | blocked | running =>
      obtain ⟨rfl, rfl⟩ := Result.ok.inj hstep
      exact Host.Outcome.next.inj h ▸ .suspended _ hs (Nat.zero_le _)

theorem mem_responsesIn {tr : List Event} {r : Response} : r ∈ responsesIn tr ↔ .respond r ∈ tr := by
  simp only [responsesIn, List.mem_filterMap]
  constructor
  · rintro ⟨e, he, hr⟩
    cases e <;> cases hr
    exact he
  · exact fun he => ⟨_, he, rfl⟩

/-- Without a response among the transfers there is none among them to say a number. -/
theorem Stored.no_response {a : Nat} {vs : List Byte} {mid : List Event} {s t : State} (h : Stored a vs mid s t)
    (r : Response) : .respond r ∉ mid := fun hr => by
  simpa [h.responses] using mem_responsesIn.2 hr

/-- Settles O48: READ ends as its loop does, and the end adds at most the response. -/
theorem readFrame : Obligations.ReadFrame := by
  intro offset count s t h
  have hend : ReadEnd offset count 0 s t := by
    simp only [exec, execRead] at h
    split at h
    · simp at h
    · split_ifs at h
      exact bulkLoop_readEnd (n := 0) h
  cases hend with
  | @responded vs mid u r hs hle hr =>
    refine ⟨by rw [hs.advance.frame]; rfl, hs.advance.forward, mid ++ [.respond r], vs, ?_, hle, ?_, fun m hm => ?_,
      fun addr => ?_⟩
    · rw [respond_trace, hs.trace, List.append_assoc]
    · rw [storesIn_append, hs.stores]
      exact List.append_nil _
    · rcases List.mem_append.1 hm with hm | hm
      · exact absurd hm (hs.no_response _)
      · obtain rfl := Event.respond.inj (List.mem_singleton.1 hm)
        simpa using hr rfl
    · rw [respond_buf, hs.buf, Memory.read_writeBytes]
  | @suspended vs mid u act hs hle =>
    refine ⟨by rw [hs.advance.frame]; rfl, hs.advance.forward, mid, vs, hs.trace, hle, hs.stores,
      fun m hm => absurd hm (hs.no_response _), fun addr => ?_⟩
    rw [suspend_buf, hs.buf, Memory.read_writeBytes]

/-! ### READ over bits that begin with codes -/

/-- `c.1` is the bit path of a leaf with the symbol `c.2`, below the root (R13). -/
def State.hasCode (s : State) (c : List Bool × Byte) : Prop :=
  c.1 ≠ [] ∧ ∃ j, s.walk root c.1 = some j ∧ s.nodeAt j = some (.leaf c.2)

/-- The codes are the arena's. -/
theorem State.hasCode.congr {s t : State} {c : List Bool × Byte} (h : s.hasCode c) (htree : t.tree = s.tree)
    (hcfg : t.cfg = s.cfg) : t.hasCode c := by
  obtain ⟨hne, j, hw, hj⟩ := h
  exact ⟨hne, j, by rw [walk_congr htree hcfg, hw], by rw [nodeAt_congr htree hcfg, hj]⟩

/-- A symbol's body over bits that begin with a code answers its symbol and takes its bits (R134, R121). -/
theorem readByteStep_code {s : State} {c : List Bool × Byte} {rest : List Bool} (hd : s.deliverable = c.1 ++ rest)
    (hc : s.hasCode c) :
    ∃ t, readByteStep s = .ok (.byte c.2) t ∧
      Walked (freshSymbol s) t c.1.length (2 * c.1.length + 1) rest := by
  obtain ⟨hne, j, hw, hj⟩ := hc
  obtain ⟨f, hf⟩ := symbolFuel_split hd
  obtain ⟨t, ht, hwalked, -⟩ := symbolLoop_code (s := freshSymbol s) (f + 1)
    (by rw [(freshSymbol_deliverable s).1, hd]) ((freshSymbol_advance s).walk root c.1 ▸ hw) hj hne
  exact ⟨t, by rw [readByteStep, hf, ht], hwalked⟩

/-- From `s` to `t` a READ has taken the bits of `codes` and stored their symbols from the address `a` on, each fetch
having got a byte, and `rest` is left (R96, R135). -/
structure CodesRead (a : Nat) (codes : List (List Bool × Byte)) (rest : List Bool) (mid : List Event) (s t : State) :
    Prop where
  stored : Stored a (codes.map Prod.snd) mid s t
  deliverable : t.deliverable = rest
  bitsEnd : t.bitsEnd = s.bitsEnd
  bitcnt : t.bitcnt = s.bitcnt + (codes.flatMap Prod.fst).length
  requests : requestsIn mid = (bytesIn mid).length

theorem CodesRead.nil {a : Nat} (s : State) : CodesRead a [] s.deliverable [] s s :=
  ⟨⟨.refl s, rfl, by simp, rfl, rfl⟩, rfl, rfl, rfl, rfl⟩

theorem CodesRead.cons {a : Nat} {c : List Bool × Byte} {codes : List (List Bool × Byte)} {x rest : List Bool}
    {mid mid' : List Event} {s t u : State} (h : CodesRead a [c] x mid s t)
    (k : CodesRead (a + 1) codes rest mid' t u) :
    CodesRead a (c :: codes) rest (mid ++ mid') s u where
  stored := h.stored.trans k.stored
  deliverable := k.deliverable
  bitsEnd := k.bitsEnd.trans h.bitsEnd
  bitcnt := by rw [k.bitcnt, h.bitcnt]; simp [Nat.add_assoc]
  requests := by simp [h.requests, k.requests]

/-- One round of READ over bits that begin with a code: its symbol is stored at `offset + n` (R135, R153). -/
theorem bulkLoop_code {offset count left n : Nat} {s : State} {c : List Bool × Byte} {rest : List Bool}
    (hroom : offset + n < s.cfg.bufSize) (hd : s.deliverable = c.1 ++ rest) (hc : s.hasCode c) :
    ∃ t mid, bulkLoop offset count (left + 1) n s = bulkLoop offset count left (n + 1) t ∧
      CodesRead (offset + n) [c] rest mid s t := by
  obtain ⟨t, ht, hw⟩ := readByteStep_code hd hc
  have hadv : Advance s t := (freshSymbol_advance s).trans hw.advance
  obtain ⟨mid, hs⟩ := hadv.stored (offset + n)
  obtain ⟨mid', hm', -, hreq⟩ := hw.accesses
  obtain rfl : mid' = mid := List.append_cancel_left (hm'.symm.trans hs.trace)
  have hstore : storeBuf (offset + n) c.2 t = .ok ()
      ({ t with buf := Memory.write t.buf (offset + n) c.2 }.log (.store (offset + n) c.2)) := by
    rw [storeBuf, hadv.cfg, if_pos hroom]
  refine ⟨_, _, bulkLoop_byte ht (by rw [hadv.cfg]; exact hroom), hs.trans (.ofStore hstore), ?_, ?_, ?_, ?_⟩
  · exact (deliverable_congr rfl rfl rfl rfl rfl).1.trans hw.deliverable
  · exact (deliverable_congr rfl rfl rfl rfl rfl).2.trans (hw.bitsEnd.trans (freshSymbol_deliverable s).2)
  · simpa using hw.bitcnt
  · rw [requestsIn_append, bytesIn_append, List.length_append, hreq]
    rfl

/-- READ's loop over bits that begin with codes goes on after them, their symbols stored (R135). -/
theorem bulkLoop_codes {offset count : Nat} (left n : Nat) {s : State} {codes : List (List Bool × Byte)}
    {rest : List Bool} (hroom : offset + n + codes.length ≤ s.cfg.bufSize)
    (hd : s.deliverable = codes.flatMap Prod.fst ++ rest) (hcodes : ∀ c ∈ codes, s.hasCode c) :
    ∃ t mid, bulkLoop offset count (codes.length + left) n s = bulkLoop offset count left (n + codes.length) t ∧
      CodesRead (offset + n) codes rest mid s t := by
  induction codes generalizing n s with
  | nil =>
    obtain rfl : s.deliverable = rest := hd
    exact ⟨s, [], by simp, .nil s⟩
  | cons c codes ih =>
    rw [List.length_cons] at hroom
    rw [List.flatMap_cons, List.append_assoc] at hd
    obtain ⟨t, mid, hloop, hone⟩ := bulkLoop_code (offset := offset) (n := n) (count := count)
      (left := codes.length + left) (by omega) hd (hcodes c List.mem_cons_self)
    have hadv := hone.stored.advance
    obtain ⟨u, mid', hloop', hmany⟩ := ih (n + 1) (s := t) (by rw [hadv.cfg]; omega) hone.deliverable
      fun c' hc' => (hcodes c' (List.mem_cons_of_mem c hc')).congr hadv.tree hadv.cfg
    refine ⟨u, mid ++ mid', ?_, hone.cons hmany⟩
    rw [List.length_cons, Nat.add_right_comm, hloop, hloop', Nat.add_assoc, Nat.add_comm 1]

/-- Settles O45: after the rounds of the codes READ has no symbol to go and responds their number. -/
theorem readStoresTheDecodedSymbols : Obligations.ReadStoresTheDecodedSymbols := by
  intro offset s codes rest hsess hroom hd hcodes
  obtain ⟨t, mid, hloop, h⟩ := bulkLoop_codes (count := codes.length) 0 0 hroom hd hcodes
  refine ⟨respond (okResponse codes.length) t, mid, ?_, rfl, ?_, h.stored.responses, h.stored.stores, h.requests, ?_,
    h.bitcnt, fun addr => ?_⟩
  · rw [exec_read hsess hroom]
    simpa [bulkLoop] using hloop
  · rw [respond_trace, h.stored.trace]
    rfl
  · exact (deliverable_congr rfl rfl rfl rfl rfl).1.trans h.deliverable
  · rw [respond_buf, h.stored.buf, Memory.read_writeBytes, List.length_map]
    rfl

end Sys2Proof.Machine
end

section
/-! PROOFS. The encodings (30_encoding.md): command, node and response words stand for what they encode (R65 to R72,
R76). -/

namespace Sys2Proof

/-! ### Command words (R66 to R69) -/

theorem Instr.opcode_lt (i : Instr) : i.opcode < 2 ^ 8 := by cases i <;> simp [Instr.opcode]

/-- A command is the one its operation code and its operands stand for (R67). -/
theorem instrOfOp_opcode_operands (i : Instr) : instrOfOp i.opcode i.operands.1 i.operands.2 = some i := by
  cases i <;> rfl

/-- The codes without a command (R69). -/
theorem instrOfOp_eq_none {op a b : Nat} : instrOfOp op a b = none ↔ op = 0x07 ∨ 0x0F ≤ op := by
  unfold instrOfOp
  split <;> simp_all
  omega

theorem decode_eq_ok {aw w : Nat} {i : Instr} :
    decode aw w = .ok i ↔ instrOfOp (opField w) (aField aw w) (bField aw w) = some i := by
  unfold decode
  cases instrOfOp (opField w) (aField aw w) (bField aw w) <;> simp

theorem decode_eq_error {aw w : Nat} :
    decode aw w = .error (.reservedOp (BitVec.ofNat 8 w)) ↔
      instrOfOp (opField w) (aField aw w) (bField aw w) = none := by
  unfold decode
  cases instrOfOp (opField w) (aField aw w) (bField aw w) <;> simp

/-- Settles O1: the word's fields are the operation code and the operands, which stand for the command. -/
theorem decodeOfEncodeIsTheCommand : Obligations.DecodeOfEncodeIsTheCommand := by
  intro aw i hwf
  obtain ⟨hop, ha, hb⟩ := Laws.CommandWordFields.holds i aw hwf
  refine ⟨commandWord_lt i.opcode_lt hwf.1 hwf.2, decode_eq_ok.2 ?_⟩
  rw [hop, ha, hb, instrOfOp_opcode_operands]

/-- Settles O2: the command has the word's fields, and the word is put together again from them. -/
theorem encodeOfDecodeIsTheWord : Obligations.EncodeOfDecodeIsTheWord := by
  intro aw w i hw hd
  refine ⟨Machine.decode_wf hd, ?_⟩
  rw [encode, Machine.opcode_of_decode hd, Machine.instrOfOp_operands (decode_eq_ok.1 hd), commandWord_fields aw hw]

/-- Settles O3: the decoder looks at the operation code alone, and has no command for these. -/
theorem reservedCodesHaveNoCommand : Obligations.ReservedCodesHaveNoCommand := fun _ _ =>
  decode_eq_error.trans instrOfOp_eq_none

/-- Settles O4: each word is run through the decoder. -/
theorem sampleWordsDecode : Obligations.SampleWordsDecode := ⟨rfl, rfl, rfl, rfl, rfl, rfl⟩

/-! ### Node words (R76) -/

/-- Two fields of `n` bits side by side fit in `2 * n` bits. -/
theorem two_fields_lt {n x y : Nat} (hx : x < 2 ^ n) (hy : y < 2 ^ n) : x + 2 ^ n * y < 2 ^ (2 * n) := by
  calc x + 2 ^ n * y < 2 ^ n * (y + 1) := by rw [Nat.mul_add_one]; omega
    _ ≤ 2 ^ n * 2 ^ n := Nat.mul_le_mul_left _ hy
    _ = 2 ^ (2 * n) := by rw [← pow_add, Nat.two_mul]

/-- A word with the leaf bit set is a leaf with the symbol of its low eight bits, which lie below the leaf bit (R76). -/
theorem decodeNode_leafWord {iw low : Nat} (hiw : 4 ≤ iw) (hlow : low < 2 ^ (2 * iw)) :
    decodeNode iw (2 ^ (2 * iw) + low) = .leaf (BitVec.ofNat 8 low) := by
  have hbit : (2 ^ (2 * iw) + low) / 2 ^ (2 * iw) % 2 = 1 := by
    rw [Nat.add_div_left _ (Nat.two_pow_pos _), Nat.div_eq_of_lt hlow]
  have hsym : BitVec.ofNat 8 (2 ^ (2 * iw) + low) = BitVec.ofNat 8 low := by
    obtain ⟨m, hm⟩ : 2 ^ 8 ∣ 2 ^ (2 * iw) := pow_dvd_pow 2 (by omega)
    apply BitVec.eq_of_toNat_eq
    rw [BitVec.toNat_ofNat, BitVec.toNat_ofNat, hm, Nat.mul_add_mod]
  rw [decodeNode, if_pos hbit, hsym]

/-- A word without the leaf bit is an internal node with its two child indices (R76). -/
theorem decodeNode_internalWord {iw c0 c1 : Nat} (h0 : c0 < 2 ^ iw) (h1 : c1 < 2 ^ iw) :
    decodeNode iw (c0 + 2 ^ iw * c1) = .internal c0 c1 := by
  have hbit : ¬(c0 + 2 ^ iw * c1) / 2 ^ (2 * iw) % 2 = 1 := by
    rw [Nat.div_eq_of_lt (two_fields_lt h0 h1)]
    decide
  rw [decodeNode, if_neg hbit, Nat.add_mul_mod_self_left, Nat.add_mul_div_left _ _ (Nat.two_pow_pos iw),
    Nat.div_eq_of_lt h0, Nat.zero_add, Nat.mod_eq_of_lt h0, Nat.mod_eq_of_lt h1]

/-- Settles O5: a leaf is the leaf bit above its symbol, an internal node the two indices below that bit. -/
theorem nodeWordsRoundTrip : Obligations.NodeWordsRoundTrip := by
  intro iw hiw
  have hwidth : 2 ^ (1 + 2 * iw) = 2 ^ (2 * iw) + 2 ^ (2 * iw) := by rw [pow_add, pow_one, Nat.two_mul]
  refine ⟨fun n hn => ?_, fun unused sym hlow => ?_⟩
  · cases n with
    | leaf sym =>
      have hsym : sym.toNat < 2 ^ (2 * iw) := sym.isLt.trans_le (Nat.pow_le_pow_right (by decide) (by omega))
      refine ⟨by rw [encodeNode]; omega, ?_⟩
      rw [encodeNode, decodeNode_leafWord hiw hsym, BitVec.ofNat_toNat, BitVec.setWidth_eq]
    | internal c0 c1 =>
      obtain ⟨h0, h1⟩ : c0 < 2 ^ iw ∧ c1 < 2 ^ iw := by simpa [Node.wf] using hn
      have hlt := two_fields_lt h0 h1
      exact ⟨by rw [encodeNode]; omega, decodeNode_internalWord h0 h1⟩
  · rw [decodeNode_leafWord hiw hlow, Nat.add_comm, byte_ofNat_payload]

/-! ### Response words (R71, R72) -/

/-- Settles O7: the status code is the low four bits, which stand for the status, and the data what is above. -/
theorem responseWordsRoundTrip : Obligations.ResponseWordsRoundTrip := by
  intro p r
  have hcode := r.status.code_lt
  have hlow : r.word % 2 ^ 4 = r.status.code := by rw [Response.word]; omega
  have hhigh : r.word / 2 ^ 4 = r.data := by rw [Response.word]; omega
  refine ⟨by rw [decodeResponse, hlow, hhigh, Status.ofCode_code], fun hwf => ?_⟩
  have hdata : r.data < 2 ^ p.dw := hwf
  rw [Response.word, pow_add]
  omega

end Sys2Proof
end

section
/-! PROOFS. The encodings (30_encoding.md): with a lawful host and source no step is refused (R75, R130, R133, R135). -/

namespace Sys2Proof.Machine

/-! ### The source -/

/-- A lawful source stays lawful as its answers are taken. -/
theorem sourceLawful.of_suffix {s t : State} (h : sourceLawful s) (hsuf : t.answers <:+ s.answers) : sourceLawful t :=
  fun w hw => h w (hsuf.subset hw)

/-- A lawful source is silent or answers one of the three kinds (R75). -/
theorem takeAnswer_ok {s : State} (h : sourceLawful s) : ∃ ans t, takeAnswer s = .ok ans t := by
  rcases takeAnswer_cases s with ⟨-, e⟩ | ⟨_, _, _, -, -, e⟩ | ⟨_, _, -, -, e⟩ | ⟨_, _, _, -, -, e⟩ |
    ⟨w, rest, ha, hd, -⟩
  iterate 4 exact ⟨_, _, e⟩
  exact absurd (decodeAnswer_eq_none.1 hd) (h w (by simp [ha]))

theorem awaitBit_ok {s : State} (h : sourceLawful s) : ∃ r t, awaitBit s = .ok r t := by
  obtain ⟨ans, t, ht⟩ := takeAnswer_ok h
  rw [awaitBit, ht]
  rcases ans with _ | _ | _ | _ <;> exact ⟨_, _, rfl⟩

theorem nextBit_ok {s : State} (h : sourceLawful s) : ∃ r t, nextBit s = .ok r t := by
  unfold nextBit
  split_ifs
  · exact ⟨_, _, rfl⟩
  · exact awaitBit_ok (h.of_suffix (List.suffix_refl _))
  · exact ⟨_, _, rfl⟩

/-! ### One symbol -/

section
variable {p : Params} {s : State}

/-- A pushed bit finds its nodes in the arena, and asks a leaf alone for its symbol (R45, R103, R134). -/
theorem pushBit_ok (h : Reading p s) (b : Bool) : ∃ e t, pushBit b s = .ok e t := by
  obtain ⟨n, hn⟩ := nodeAt_of_lt h.node_lt
  cases hc : childIndex s.nodes b n with
  | none => exact ⟨_, _, pushBit_noChild hn hc⟩
  | some c =>
    obtain ⟨v | ⟨c0, c1⟩, hcn⟩ := nodeAt_of_lt (childIndex_lt hc)
    · exact ⟨_, _, pushBit_leaf hn hc hcn⟩
    · exact ⟨_, _, pushBit_internal hn hc hcn⟩

theorem symbolStep_ok (h : Reading p s) (r : BitResult) : ∃ e t, symbolStep r s = .ok e t := by
  cases r with
  | bit b => exact pushBit_ok h b
  | _ => exact ⟨_, _, rfl⟩

/-- What READ_BYTE and READ work in: the invariant of a session, and a source that is lawful. -/
structure LawfulReading (p : Params) (s : State) : Prop where
  reading : Reading p s
  source : sourceLawful s

/-- A symbol's body comes to an end of its own, or keeps its place, in a state to go on from. -/
def SymbolProceeds (p : Params) (x : Result SymbolResult) : Prop :=
  ∃ res t, x = .ok res t ∧ LawfulReading p t

/-- A bit and what follows it proceed, when the rest of the body does where the symbol goes on. -/
theorem symbolProceeds_of_bit {x : Result BitResult} {rest : State → Result SymbolResult}
    (hx : ∃ r t, x = .ok r t ∧ LawfulReading p t) (hrest : ∀ u, LawfulReading p u → SymbolProceeds p (rest u)) :
    SymbolProceeds p (x.andThen fun r s1 => (symbolStep r s1).andThen fun e s2 =>
      match e with
      | some res => .ok res s2
      | none => rest s2) := by
  obtain ⟨r, t, rfl, ht⟩ := hx
  obtain ⟨e, u, hu⟩ := symbolStep_ok ht.reading r
  have hlawful : LawfulReading p u :=
    ⟨symbolStep_reading ht.reading hu, ht.source.of_suffix (symbolStep_advance hu).forward⟩
  simp only [Result.ok_andThen, hu]
  cases e with
  | some res => exact ⟨res, u, rfl, hlawful⟩
  | none => exact hrest u hlawful

theorem symbolLoop_proceeds (fuel : Nat) (h : LawfulReading p s) : SymbolProceeds p (symbolLoop fuel s) := by
  induction fuel generalizing s with
  | zero => exact ⟨_, s, rfl, h⟩
  | succ fuel ih =>
    obtain ⟨r, t, ht⟩ := nextBit_ok h.source
    exact symbolProceeds_of_bit
      ⟨r, t, ht, (nextBit_reading h.reading ht).1, h.source.of_suffix (nextBit_advance ht).forward⟩ fun _ => ih

theorem readByteStep_proceeds (h : LawfulReading p s) : SymbolProceeds p (readByteStep s) :=
  symbolLoop_proceeds _ (s := freshSymbol s) ⟨h.reading.fresh, h.source.of_suffix (freshSymbol_advance s).forward⟩

theorem resumeSymbol_proceeds (h : LawfulReading p s) (hwait : Waits s) : SymbolProceeds p (resumeSymbol s) := by
  obtain ⟨r, t, ht⟩ := awaitBit_ok h.source
  exact symbolProceeds_of_bit
    ⟨r, t, ht, (awaitBit_reading h.reading hwait ht).1, h.source.of_suffix (awaitBit_advance ht).forward⟩
    fun _ => symbolLoop_proceeds _

/-! ### READ_BYTE and READ -/

theorem finishByte_proceeds {x : Result SymbolResult} (hx : SymbolProceeds p x) :
    ∃ t, x.finish finishByte = .next t := by
  obtain ⟨res, t, rfl, -⟩ := hx
  cases res <;> exact ⟨_, rfl⟩

/-- READ after a symbol's body, when the rounds that follow answer a next state. -/
theorem continueBulk_proceeds {offset count n : Nat} {x : Result SymbolResult} (hx : SymbolProceeds p x)
    (hroom : ReadRoom p offset count n)
    (hloop : ∀ u, LawfulReading p u → ∃ t, bulkLoop offset count (count - (n + 1)) (n + 1) u = .next t) :
    ∃ t, continueBulk offset count n x = .next t := by
  obtain ⟨res, t, rfl, ht⟩ := hx
  cases res with
  | byte v =>
    obtain ⟨u, hu⟩ := storeBuf_of_room ht.reading hroom v
    have hread := storeBuf_reading ht.reading hu
    simp only [continueBulk, Result.ok_finish, bulkStep, hu, Result.ok_andThen]
    obtain ⟨-, rfl, -⟩ := storeBuf_eq_ok hu
    exact hloop _ ⟨hread, ht.source⟩
  | _ => exact ⟨_, rfl⟩

theorem bulkLoop_proceeds {offset count left n : Nat} (hleft : left = count - n) (h : LawfulReading p s)
    (hcount : count < 2 ^ p.aw) (hfit : offset + count ≤ p.bufSize) :
    ∃ t, bulkLoop offset count left n s = .next t := by
  induction left generalizing n s with
  | zero => exact ⟨_, rfl⟩
  | succ left ih =>
    obtain rfl : left = count - (n + 1) := by omega
    rw [bulkLoop_succ rfl]
    exact continueBulk_proceeds (readByteStep_proceeds h) ⟨by omega, hcount, hfit⟩ fun _ hu => ih rfl hu

/-- The rest of a READ in progress. -/
theorem continueBulk_proceeds_of_pending {offset count n : Nat} {x : Result SymbolResult} (hx : SymbolProceeds p x)
    (hroom : ReadRoom p offset count n) : ∃ t, continueBulk offset count n x = .next t :=
  continueBulk_proceeds hx hroom fun _ hu => bulkLoop_proceeds rfl hu hroom.operand hroom.fits

end

/-! ### Commands -/

section
variable {s : State} (h : s.Inv) (hsource : sourceLawful s)
include h hsource

theorem continueCommand_proceeds {c : Pending} (hact : s.activity = .running c) :
    ∃ t, continueCommand c s = .next t := by
  have hsym : SymbolProceeds s.cfg (continueSymbol s) :=
    symbolLoop_proceeds _ ⟨h.reading (h.busySession (by simp [hact])), hsource⟩
  cases c with
  | readByte => exact finishByte_proceeds hsym
  | read offset count n => exact continueBulk_proceeds_of_pending hsym (h.readRoom (.inl hact))

theorem resumeCommand_proceeds {c : Pending} (hact : s.activity = .blocked c) : ∃ t, resumeCommand c s = .next t := by
  have hsym : SymbolProceeds s.cfg (resumeSymbol s) :=
    resumeSymbol_proceeds ⟨h.reading (h.busySession (by simp [hact])), hsource⟩ (h.blockedAtByte c hact)
  cases c with
  | readByte => exact finishByte_proceeds hsym
  | read offset count n => exact continueBulk_proceeds_of_pending hsym (h.readRoom (.inr hact))

/-- A command that may be issued, with operands that fit their fields, is not refused (R130, R133, R135). -/
theorem exec_proceeds {i : Instr} (hwf : i.wf s.cfg.aw) (hlawful : commandLawful i s) : ∃ t, exec i s = .next t := by
  cases i with
  | openStream a b =>
    have hclosed : s.sess = .closed := hlawful
    rw [exec, execOpenStream, hclosed]
    simp only
    split_ifs <;> exact ⟨_, rfl⟩
  | closeStream a b =>
    have hopen : s.sess = .opened := hlawful
    rw [exec, execCloseStream, hopen]
    exact ⟨_, rfl⟩
  | readByte a b =>
    have hopen : s.sess = .opened := hlawful
    rw [exec, execReadByte, hopen]
    exact finishByte_proceeds (readByteStep_proceeds ⟨h.reading hopen, hsource⟩)
  | read offset count =>
    obtain ⟨hopen, hfit⟩ := hlawful
    rw [exec_read hopen hfit]
    exact bulkLoop_proceeds (n := 0) rfl ⟨h.reading hopen, hsource⟩ hwf.2 hfit
  | _ => exact ⟨_, rfl⟩

end

/-- Settles O18: a reset and a wait always answer a next state, and each part of a command proceeds. -/
theorem lawfulStepsProceed : Obligations.LawfulStepsProceed := by
  intro s h hsource hhost
  unfold step
  split_ifs
  · exact ⟨_, rfl⟩
  split
  next c hact => exact continueCommand_proceeds h hsource hact
  next c hact => exact resumeCommand_proceeds h hsource hact
  next =>
    split
    next => exact ⟨_, rfl⟩
    next w rest hcmds =>
      split
      next i hd =>
        exact exec_proceeds (s := acceptCommand w rest s) (h.acceptCommand w rest) hsource (decode_wf hd)
          (hhost w rest i hcmds hd)
      next => exact ⟨_, rfl⟩

end Sys2Proof.Machine
end

section
/-! PROOFS. The encodings (30_encoding.md): every response fits its word (R71, R73). -/

namespace Sys2Proof.Machine

/-! ### The responses of R73 -/

section
variable {p : Params}

/-- Data of a byte's, an operand's or a failure code's width fits the response's data field (R6, R71). -/
theorem Response.wf_of_width {r : Response} {n : Nat} (hn : n ≤ p.dw) (h : r.data < 2 ^ n) : r.wf p :=
  h.trans_le (Nat.pow_le_pow_right (by decide) hn)

theorem le_dw (p : Params) : p.aw ≤ p.dw ∧ p.iow ≤ p.dw ∧ 8 ≤ p.dw := by
  unfold Params.dw
  omega

theorem okResponse_wf {n : Nat} (h : n < 2 ^ p.aw) : (okResponse n).wf p := Response.wf_of_width (le_dw p).1 h

theorem byteResponse_wf (v : Byte) : (byteResponse v).wf p := Response.wf_of_width (le_dw p).2.2 v.isLt

theorem flagResponse_wf (flag : Bool) : (flagResponse flag).wf p :=
  Response.wf_of_width (le_dw p).2.2 (by cases flag <;> decide)

theorem endOfStreamResponse_wf : endOfStreamResponse.wf p := Nat.two_pow_pos _

/-- An error's data is 0, or the code of the source (R161, R162). -/
theorem errorResponse_wf {k : ErrorKind} (hk : ∀ e, k = .ioFailure e → e < 2 ^ p.iow) : (errorResponse k).wf p := by
  cases k with
  | ioFailure e => exact Response.wf_of_width (le_dw p).2.1 (hk e rfl)
  | _ => exact Nat.two_pow_pos _

/-! ### The end of a command -/

/-- If the core is idle with a response as its last transfer, that response fits its word. -/
def EndFits (p : Params) (t : State) : Prop :=
  t.activity = .idle → ∀ r, t.trace.getLast? = some (.respond r) → r.wf p

theorem endFits_respond {r : Response} (hr : r.wf p) (s : State) : EndFits p (respond r s) := by
  intro _ r' hlast
  rw [respond_trace, List.getLast?_concat] at hlast
  obtain ⟨⟩ := hlast
  exact hr

theorem endFits_suspend {a : Activity} (ha : a ≠ .idle) (s : State) : EndFits p (suspend a s) := fun h => absurd h ha

/-- A command's one response is its last transfer, so all it gives fit when that one does (R54 (c)). -/
theorem EndFits.responses {s t : State} {new : List Event} (hfit : EndFits p t) (hend : CommandEnd s t)
    (hnew : t.trace = s.trace ++ new) : ∀ r ∈ responsesIn new, r.wf p := by
  intro r hr
  cases hend with
  | @responded u r' hp =>
    obtain ⟨mid, hm, hresp, -⟩ := hp.transfers
    obtain rfl : new = mid ++ [.respond r'] :=
      List.append_cancel_left (hnew.symm.trans (by rw [respond_trace, hm, List.append_assoc]))
    rw [responsesIn_append, hresp] at hr
    obtain rfl : r = r' := List.mem_singleton.1 hr
    exact hfit rfl r (by rw [respond_trace, List.getLast?_concat])
  | running c hp | blocked c hp =>
    obtain ⟨mid, hm, hresp, -⟩ := hp.transfers
    obtain rfl : new = mid := List.append_cancel_left (hnew.symm.trans hm)
    simp [hresp] at hr

/-! ### One symbol -/

theorem awaitBit_failure_lt {s t : State} {e : Nat} (h : awaitBit s = .ok (.ioFailure e) t) : e < 2 ^ s.cfg.iow := by
  rcases takeAnswer_cases s with ⟨-, ht⟩ | ⟨_, _, _, -, -, ht⟩ | ⟨_, _, -, -, ht⟩ | ⟨w, rest, k, -, hd, ht⟩ |
    ⟨_, _, -, -, ht⟩ <;> rw [awaitBit, ht] at h <;> simp [deliverBit] at h
  exact h.1 ▸ decodeAnswer_fail_lt hd

theorem nextBit_failure_lt {s t : State} {e : Nat} (h : nextBit s = .ok (.ioFailure e) t) : e < 2 ^ s.cfg.iow := by
  unfold nextBit at h
  split_ifs at h
  · simp at h
  · exact awaitBit_failure_lt (s := s.log .fetchRequest) h
  · simp [deliverBit] at h

/-- A symbol's failure code is the one NEXTBIT answered (R134, R167). -/
theorem symbolStep_failure {s t : State} {r : BitResult} {e : Nat}
    (h : symbolStep r s = .ok (some (.error (.ioFailure e))) t) : r = .ioFailure e := by
  cases r with
  | bit b => rcases pushBit_eq_some h with ⟨v, hv⟩ | hv <;> simp at hv
  | endOfInput => simp only [symbolStep] at h; split_ifs at h <;> simp at h
  | ioFailure k => simp_all [symbolStep]
  | blocked => simp [symbolStep] at h

/-- How a symbol's body may end: under the parameters `p`, and with a failure code of `IOW` bits (R42). -/
def SymbolFits (p : Params) (x : Result SymbolResult) : Prop :=
  ∀ res t, x = .ok res t → t.cfg = p ∧ ∀ e, res = .error (.ioFailure e) → e < 2 ^ p.iow

/-- A bit and what follows it: the code is the bit's, or of the rest of the body. -/
theorem symbolFits_of_bit {x : Result BitResult} {rest : State → Result SymbolResult}
    (hx : ∀ r t, x = .ok r t → t.cfg = p ∧ ∀ e, r = .ioFailure e → e < 2 ^ p.iow)
    (hrest : ∀ u, u.cfg = p → SymbolFits p (rest u)) :
    SymbolFits p (x.andThen fun r s1 => (symbolStep r s1).andThen fun e s2 =>
      match e with
      | some res => .ok res s2
      | none => rest s2) := by
  intro res t ht
  obtain ⟨r, s1, h1, ht⟩ := Result.andThen_eq_ok.1 ht
  obtain ⟨e, s2, h2, ht⟩ := Result.andThen_eq_ok.1 ht
  obtain ⟨hcfg, hcode⟩ := hx r s1 h1
  have hs2 : s2.cfg = p := (symbolStep_advance h2).cfg.trans hcfg
  cases e with
  | none => exact hrest s2 hs2 res t ht
  | some e =>
    obtain ⟨rfl, rfl⟩ := Result.ok.inj ht
    exact ⟨hs2, fun k hk => hcode k (symbolStep_failure (hk ▸ h2))⟩

theorem symbolLoop_fits (fuel : Nat) {s : State} (h : s.cfg = p) : SymbolFits p (symbolLoop fuel s) := by
  induction fuel generalizing s with
  | zero =>
    intro res t ht
    obtain ⟨rfl, rfl⟩ := Result.ok.inj ht
    exact ⟨h, nofun⟩
  | succ fuel ih =>
    exact symbolFits_of_bit
      (fun _ _ ht => ⟨(nextBit_advance ht).cfg.trans h, fun _ hr => h ▸ nextBit_failure_lt (hr ▸ ht)⟩) fun _ hu => ih hu

theorem readByteStep_fits {s : State} (h : s.cfg = p) : SymbolFits p (readByteStep s) :=
  symbolLoop_fits _ (s := freshSymbol s) h

theorem resumeSymbol_fits {s : State} (h : s.cfg = p) : SymbolFits p (resumeSymbol s) :=
  symbolFits_of_bit
    (fun _ _ ht => ⟨(awaitBit_advance ht).cfg.trans h, fun _ hr => h ▸ awaitBit_failure_lt (hr ▸ ht)⟩)
    fun _ hu => symbolLoop_fits _ hu

/-! ### READ_BYTE and READ -/

theorem finishByte_fits {x : Result SymbolResult} {t : State} (hx : SymbolFits p x)
    (ht : x.finish finishByte = .next t) : EndFits p t := by
  obtain ⟨res, u, hu, ht⟩ := Result.finish_eq_next.1 ht
  obtain ⟨-, hcode⟩ := hx res u hu
  cases res <;> obtain rfl := Host.Outcome.next.inj ht
  case byte v => exact endFits_respond (byteResponse_wf _) u
  case endOfStream => exact endFits_respond endOfStreamResponse_wf u
  case error k => exact endFits_respond (errorResponse_wf fun e hk => hcode e (congrArg _ hk)) u
  case blocked => exact endFits_suspend (by nofun) u
  case running => exact endFits_suspend (by nofun) u

/-- READ after a symbol's body, when the rounds that follow end with a response that fits. -/
theorem continueBulk_fits {offset count n : Nat} {x : Result SymbolResult} {t : State} (hx : SymbolFits p x)
    (hn : n < 2 ^ p.aw)
    (hloop : ∀ u, u.cfg = p → bulkLoop offset count (count - (n + 1)) (n + 1) u = .next t → EndFits p t)
    (ht : continueBulk offset count n x = .next t) : EndFits p t := by
  obtain ⟨res, u, hu, ht⟩ := Result.finish_eq_next.1 ht
  obtain ⟨hcfg, hcode⟩ := hx res u hu
  obtain ⟨e, u', hstep, ht⟩ := Result.finish_eq_next.1 ht
  cases res
  case byte v =>
    obtain ⟨⟨⟩, u1, hst, hok⟩ := Result.andThen_eq_ok.1 hstep
    obtain ⟨rfl, rfl⟩ := Result.ok.inj hok
    obtain ⟨-, hu1, -⟩ := storeBuf_eq_ok hst
    exact hloop u1 (by rw [hu1]; exact hcfg) ht
  all_goals
    obtain ⟨rfl, rfl⟩ := Result.ok.inj hstep
    obtain rfl := Host.Outcome.next.inj ht
  case endOfStream => exact endFits_respond (okResponse_wf hn) u
  case error k => exact endFits_respond (errorResponse_wf fun e hk => hcode e (congrArg _ hk)) u
  case blocked => exact endFits_suspend (by nofun) u
  case running => exact endFits_suspend (by nofun) u

/-- The count of a READ is at most its operand (R68, R135). -/
theorem bulkLoop_fits {offset count left n : Nat} {s t : State} (hleft : left = count - n) (hn : n ≤ count)
    (hcount : count < 2 ^ p.aw) (h : s.cfg = p) (ht : bulkLoop offset count left n s = .next t) : EndFits p t := by
  induction left generalizing n s with
  | zero => exact Host.Outcome.next.inj ht ▸ endFits_respond (okResponse_wf (hn.trans_lt hcount)) s
  | succ left ih =>
    obtain rfl : left = count - (n + 1) := by omega
    rw [bulkLoop_succ rfl] at ht
    exact continueBulk_fits (readByteStep_fits h) (by omega) (fun u hu => ih rfl (by omega) hu) ht

/-- The rest of a READ in progress. -/
theorem continueBulk_fits_of_pending {offset count n : Nat} {x : Result SymbolResult} {t : State}
    (hx : SymbolFits p x) (hroom : ReadRoom p offset count n) (ht : continueBulk offset count n x = .next t) :
    EndFits p t := by
  obtain ⟨hlt, hcount, -⟩ := hroom
  exact continueBulk_fits hx (hlt.trans hcount) (fun u hu => bulkLoop_fits rfl (by omega) hcount hu) ht

end

/-! ### Commands -/

theorem continueCommand_fits {c : Pending} {s t : State} (h : s.Inv) (hact : s.activity = .running c)
    (ht : continueCommand c s = .next t) : EndFits s.cfg t := by
  have hsym : SymbolFits s.cfg (continueSymbol s) := symbolLoop_fits _ rfl
  cases c with
  | readByte => exact finishByte_fits hsym ht
  | read offset count n => exact continueBulk_fits_of_pending hsym (h.readRoom (.inl hact)) ht

theorem resumeCommand_fits {c : Pending} {s t : State} (h : s.Inv) (hact : s.activity = .blocked c)
    (ht : resumeCommand c s = .next t) : EndFits s.cfg t := by
  have hsym : SymbolFits s.cfg (resumeSymbol s) := resumeSymbol_fits rfl
  cases c with
  | readByte => exact finishByte_fits hsym ht
  | read offset count n => exact continueBulk_fits_of_pending hsym (h.readRoom (.inr hact)) ht

theorem exec_fits {i : Instr} {s t : State} (hwf : i.wf s.cfg.aw) (ht : exec i s = .next t) : EndFits s.cfg t := by
  have hok : (okResponse 0).wf s.cfg := okResponse_wf (Nat.two_pow_pos _)
  cases i with
  | openStream a b =>
    simp only [exec, execOpenStream] at ht
    split at ht
    · simp at ht
    · split_ifs at ht <;> obtain rfl := Host.Outcome.next.inj ht
      · exact endFits_respond hok _
      · exact endFits_respond (errorResponse_wf (by nofun)) _
  | closeStream a b =>
    simp only [exec, execCloseStream] at ht
    split at ht
    · simp at ht
    · exact Host.Outcome.next.inj ht ▸ endFits_respond hok _
  | readByte a b =>
    simp only [exec, execReadByte] at ht
    split at ht
    · simp at ht
    · exact finishByte_fits (readByteStep_fits rfl) ht
  | read offset count =>
    simp only [exec, execRead] at ht
    split at ht
    · simp at ht
    · split_ifs at ht
      exact bulkLoop_fits (n := 0) rfl (Nat.zero_le _) hwf.2 rfl ht
  | canRead a b | canWrite a b | canSeek a b => exact Host.Outcome.next.inj ht ▸ endFits_respond (flagResponse_wf _) s
  | _ => exact Host.Outcome.next.inj ht ▸ endFits_respond (errorResponse_wf (by nofun)) s

theorem takeReset_trace (s : State) : (takeReset s).trace = s.trace ++ [.reset s.busy] := by
  obtain ⟨answers, cursor, hab, -, -⟩ := abortFetch_frame s
  rw [takeReset, hab]
  rfl

/-- Settles O59: a reset and a wait give no response, and a command ends with one that fits. -/
theorem responsesFitTheirWord : Obligations.ResponsesFitTheirWord := by
  intro s t new h ht hnew
  rcases step_cases ht with ⟨-, rfl⟩ | ⟨-, -, -, rfl⟩ | ⟨-, -, w, rest, i, -, hd, he⟩ | ⟨-, -, w, rest, -, rfl⟩ |
    ⟨-, c, hact, he⟩ | ⟨-, c, hact, he⟩
  · obtain rfl : new = [.reset s.busy] := List.append_cancel_left (hnew.symm.trans (takeReset_trace s))
    exact nofun
  · obtain rfl : new = [] := List.self_eq_append_right.1 hnew
    exact nofun
  · exact (exec_fits (s := acceptCommand w rest s) (decode_wf hd) he).responses
      ((exec_ends he).after (.ofAccept w rest s)) hnew
  · exact (endFits_respond (errorResponse_wf (by nofun)) _).responses (.responded _ (.ofAccept w rest s)) hnew
  · exact (continueCommand_fits h hact he).responses (continueCommand_ends he) hnew
  · exact (resumeCommand_fits h hact he).responses (resumeCommand_ends he) hnew

end Sys2Proof.Machine
end

section
/-! PROOFS. The bit reader (40_bitreader.md): NEXTBIT case by case, and the bits of a session in stream order (R90 to
R93, R95). -/

namespace Sys2Proof.Machine

/-! ### NEXTBIT, case by case (R90) -/

/-- The bit limit comes first, without an access (R95). -/
theorem nextBit_at_limit {s : State} (h : s.cfg.bitLimit = some s.bitcnt) : nextBit s = .ok .endOfInput s := by
  rw [nextBit, if_pos (limitReached_iff.2 h)]

/-- Inside a byte there is no fetch (R92). -/
theorem nextBit_inside_byte {s : State} (hlimit : s.cfg.bitLimit ≠ some s.bitcnt) (hpos : s.bitpos ≠ 0) :
    nextBit s = deliverBit s := by
  rw [nextBit, limitReached_false_iff.2 hlimit, if_neg (by decide), if_neg hpos]

/-- At a byte boundary there is one fetch (R92). -/
theorem nextBit_at_boundary {s : State} (hlimit : s.cfg.bitLimit ≠ some s.bitcnt) (hpos : s.bitpos = 0) :
    nextBit s = awaitBit (s.log .fetchRequest) := by
  rw [nextBit, limitReached_false_iff.2 hlimit, if_neg (by decide), if_pos hpos]

section
variable {s : State} {w : Nat} {rest : List Nat} (ha : s.answers = w :: rest)
include ha

theorem awaitBit_byte {b : Byte} (hd : decodeAnswer s.cfg.iow w = some (.byte b)) :
    awaitBit s = deliverBit { s with
      cur := b, answers := rest, srcCursor := s.srcCursor + 1, trace := s.trace ++ [.fetchAnswer (.byte b)] } := by
  simp [awaitBit, takeAnswer, ha, hd, State.log]

theorem awaitBit_atEnd (hd : decodeAnswer s.cfg.iow w = some .atEnd) :
    awaitBit s = .ok .endOfInput { s with answers := rest, trace := s.trace ++ [.fetchAnswer .atEnd] } := by
  simp [awaitBit, takeAnswer, ha, hd, State.log]

/-- The failure code is passed on verbatim (R93). -/
theorem awaitBit_fail {e : Nat} (hd : decodeAnswer s.cfg.iow w = some (.fail e)) :
    awaitBit s = .ok (.ioFailure e) { s with answers := rest, trace := s.trace ++ [.fetchAnswer (.fail e)] } := by
  simp [awaitBit, takeAnswer, ha, hd, State.log]

end

/-- Settles O28: the limit, the inside of a byte, and a byte boundary with each answer to its one request. -/
theorem nextBitCases : Obligations.NextBitCases := by
  refine fun s => ⟨nextBit_at_limit, nextBit_inside_byte, fun hlimit hpos w rest ha => ?_⟩
  rw [nextBit_at_boundary hlimit hpos]
  refine ⟨fun b hd => ?_, fun hd => ?_, fun e hd => ?_⟩
  · rw [awaitBit_byte (s := s.log .fetchRequest) ha hd]
    simp [deliverBit, State.log, hpos]
  · rw [awaitBit_atEnd (s := s.log .fetchRequest) ha hd]
    simp [State.log]
  · rw [awaitBit_fail (s := s.log .fetchRequest) ha hd]
    simp [State.log]

/-! ### The bits of a session in stream order (R91, R92) -/

/-- One more bit after `k` calls that delivered a bit each. -/
theorem nextBits_succ_last {k : Nat} {s t u : State} {bs : List Bool} {b : Bool} (h : nextBits k s = .ok bs t)
    (hlen : bs.length = k) (hb : nextBit t = .ok (.bit b) u) : nextBits (k + 1) s = .ok (bs ++ [b]) u := by
  induction k generalizing s bs with
  | zero =>
    obtain ⟨rfl, rfl⟩ := Result.ok.inj h
    simp [nextBits, hb]
  | succ k ih =>
    obtain ⟨r, s1, h1, h2⟩ := Result.andThen_eq_ok.1 h
    rw [nextBits, h1, Result.ok_andThen]
    cases r
    case bit c =>
      obtain ⟨cs, t1, h3, h4⟩ := Result.andThen_eq_ok.1 h2
      obtain ⟨rfl, rfl⟩ := Result.ok.inj h4
      have hrest := ih h3 (Nat.succ.inj hlen)
      simp only [hrest, Result.ok_andThen, List.cons_append]
    all_goals
      obtain ⟨rfl, -⟩ := Result.ok.inj h2
      simp at hlen

/-! The delivery position of bit `k` of a session is `k mod 8`. -/

theorem ofNat_eight_eq_zero_iff (k : Nat) : Fin.ofNat 8 k = 0 ↔ k % 8 = 0 := by simp [Fin.ext_iff]

theorem ofNat_eight_succ (k : Nat) : Fin.ofNat 8 k + 1 = Fin.ofNat 8 (k + 1) :=
  Fin.ext (by simp [Fin.val_add])

/-- `t` stands `k` bits after `s`, a state at a byte boundary whose source gives the bytes `d` first: `ceil(k / 8)` of
them are taken, with the transfers `new`, and an unfinished one is in `cur`. -/
structure BitsOn (s : State) (d : List Byte) (tail : List Nat) (k : Nat) (new : List Event) (t : State) : Prop where
  cfg : t.cfg = s.cfg
  bitcnt : t.bitcnt = s.bitcnt + k
  bitpos : t.bitpos = Fin.ofNat 8 k
  cur : k % 8 ≠ 0 → t.cur = d.getD (k / 8) 0
  answers : t.answers = (d.drop ((k + 7) / 8)).map (fun b => encodeAnswer (.byte b)) ++ tail
  srcCursor : t.srcCursor = s.srcCursor + (k + 7) / 8
  trace : t.trace = s.trace ++ new
  bytes : bytesIn new = d.take ((k + 7) / 8)
  requests : requestsIn new = (k + 7) / 8

section
variable {s t : State} {d : List Byte} {tail : List Nat} {k : Nat} {new : List Event}

/-- At a byte boundary the next bit is the first one of the source's next byte. -/
theorem BitsOn.next_at_boundary (h : BitsOn s d tail k new t) (hlimit : s.cfg.bitLimit = none)
    (hk : k < 8 * d.length) (hmod : k % 8 = 0) :
    ∃ u, nextBit t = .ok (.bit (bitOf s.cfg.msbFirst (d.getD (k / 8) 0) (Fin.ofNat 8 k))) u ∧
      BitsOn s d tail (k + 1) (new ++ [.fetchRequest, .fetchAnswer (.byte (d.getD (k / 8) 0))]) u := by
  have hlt : k / 8 < d.length := by omega
  have htaken : (k + 7) / 8 = k / 8 := by omega
  have htaken' : (k + 1 + 7) / 8 = k / 8 + 1 := by omega
  have hzero : Fin.ofNat 8 k = 0 := (ofNat_eight_eq_zero_iff k).2 hmod
  have hget : d.getD (k / 8) 0 = d[k / 8] := (List.getElem_eq_getD 0).symm
  have hanswers := h.answers
  rw [htaken, List.drop_eq_getElem_cons hlt, List.map_cons, List.cons_append] at hanswers
  obtain ⟨-, -, hboundary⟩ := nextBitCases t
  obtain ⟨hbyte, -, -⟩ := hboundary (by simp [h.cfg, hlimit]) (h.bitpos.trans hzero) _ _ hanswers
  have hnext := hbyte _ (decodeAnswer_encode_byte _ _)
  rw [h.cfg, ← hget, ← hzero] at hnext
  exact ⟨_, hnext, {
    cfg := rfl
    bitcnt := by rw [h.bitcnt, Nat.add_assoc]
    bitpos := by rw [← ofNat_eight_succ, hzero]; rfl
    cur := fun _ => by rw [show (k + 1) / 8 = k / 8 by omega]
    answers := by rw [htaken']
    srcCursor := by rw [h.srcCursor, htaken, htaken', Nat.add_assoc]
    trace := by rw [h.trace, List.append_assoc]
    bytes := by rw [bytesIn_append, h.bytes, htaken, htaken', ← List.take_append_getElem hlt, hget]; rfl
    requests := by rw [requestsIn_append, h.requests, htaken, htaken']; rfl }⟩

/-- Inside a byte the next bit comes from `cur`, without a transfer. -/
theorem BitsOn.next_inside_byte (h : BitsOn s d tail k new t) (hlimit : s.cfg.bitLimit = none) (hmod : k % 8 ≠ 0) :
    ∃ u, nextBit t = .ok (.bit (bitOf s.cfg.msbFirst (d.getD (k / 8) 0) (Fin.ofNat 8 k))) u ∧
      BitsOn s d tail (k + 1) new u := by
  have htaken : (k + 1 + 7) / 8 = (k + 7) / 8 := by omega
  have hpos : t.bitpos ≠ 0 := h.bitpos ▸ (ofNat_eight_eq_zero_iff k).not.2 hmod
  have hnext := nextBit_inside_byte (by simp [h.cfg, hlimit]) hpos
  rw [deliverBit, h.cfg, h.cur hmod, h.bitpos] at hnext
  exact ⟨_, hnext, {
    cfg := rfl
    bitcnt := by rw [h.bitcnt, Nat.add_assoc]
    bitpos := ofNat_eight_succ k
    cur := fun hmod' => by rw [show (k + 1) / 8 = k / 8 by omega]
    answers := by rw [htaken, h.answers]
    srcCursor := by rw [htaken, h.srcCursor]
    trace := h.trace
    bytes := by rw [htaken, h.bytes]
    requests := by rw [htaken, h.requests] }⟩

theorem BitsOn.next (h : BitsOn s d tail k new t) (hlimit : s.cfg.bitLimit = none) (hk : k < 8 * d.length) :
    ∃ u new', nextBit t = .ok (.bit (bitOf s.cfg.msbFirst (d.getD (k / 8) 0) (Fin.ofNat 8 k))) u ∧
      BitsOn s d tail (k + 1) new' u := by
  by_cases hmod : k % 8 = 0
  · obtain ⟨u, hu⟩ := h.next_at_boundary hlimit hk hmod
    exact ⟨u, _, hu⟩
  · obtain ⟨u, hu⟩ := h.next_inside_byte hlimit hmod
    exact ⟨u, _, hu⟩

/-- `k` calls deliver the first `k` bits of the source's bytes. -/
theorem nextBits_bitsOn (hlimit : s.cfg.bitLimit = none) (hpos : s.bitpos = 0)
    (hanswers : s.answers = d.map (fun b => encodeAnswer (.byte b)) ++ tail) (hk : k ≤ 8 * d.length) :
    ∃ t new, nextBits k s =
        .ok ((List.range k).map fun j => bitOf s.cfg.msbFirst (d.getD (j / 8) 0) (Fin.ofNat 8 j)) t ∧
      BitsOn s d tail k new t := by
  induction k with
  | zero =>
    exact ⟨s, [], rfl, {
      cfg := rfl
      bitcnt := rfl
      bitpos := hpos
      cur := nofun
      answers := hanswers
      srcCursor := rfl
      trace := (List.append_nil _).symm
      bytes := rfl
      requests := rfl }⟩
  | succ k ih =>
    obtain ⟨t, new, ht, hon⟩ := ih (by omega)
    obtain ⟨u, new', hu, hon'⟩ := hon.next hlimit (by omega)
    refine ⟨u, new', ?_, hon'⟩
    rw [nextBits_succ_last ht (by simp) hu, List.range_succ, List.map_append]
    rfl

end

/-- Settles O29: one call after the other, each at a byte boundary or inside a byte. -/
theorem nextBitsComeInStreamOrder : Obligations.NextBitsComeInStreamOrder := by
  intro s d tail k hlimit hpos hanswers hk
  obtain ⟨t, new, ht, hon⟩ := nextBits_bitsOn hlimit hpos hanswers hk
  exact ⟨t, new, ht, hon.bitcnt, by rw [hon.bitpos]; rfl, hon.trace, hon.bytes, hon.requests, hon.srcCursor⟩

end Sys2Proof.Machine
end

section
/-! PROOFS. The PrefixTree (41_prefixtree.md): the arena against the tree it represents, its codes, and the check a
builder can run (R101 to R106). -/

namespace Sys2Proof.Machine

/-! ### Walks and the unfolding (R104) -/

/-- A walk that starts at a leaf goes nowhere (R101). -/
theorem walk_leaf {s : State} {i j : Nat} {v : Byte} {p : List Bool} (hi : s.nodeAt i = some (.leaf v))
    (h : s.walk i p = some j) : p = [] := by
  cases p with
  | nil => rfl
  | cons b p =>
    obtain ⟨n, c, hn, hc, -⟩ := walk_cons_inv h
    obtain ⟨c0, c1, rfl⟩ := internal_of_childIndex hc
    simp [hi] at hn

/-- A bit at an internal node goes to the child it selects, when that is in range (R101). -/
theorem walk_internal {s : State} {i c0 c1 : Nat} {b : Bool} (p : List Bool)
    (hn : s.nodeAt i = some (.internal c0 c1)) (hlt : (if b then c1 else c0) < s.nodes) :
    s.walk i (b :: p) = s.walk (if b then c1 else c0) p :=
  walk_cons p hn (if_pos hlt)

/-- Where the unfolding has two subtrees, each bit leads to the index of one of them. -/
theorem treeAt_child {s : State} {f i c0 c1 : Nat} {t0 t1 : Tree} (hn : s.nodeAt i = some (.internal c0 c1))
    (h0 : s.treeAt f c0 = some t0) (h1 : s.treeAt f c1 = some t1) (b : Bool) :
    ∃ c, (∀ p, s.walk i (b :: p) = s.walk c p) ∧ s.treeAt f c = some (if b then t1 else t0) := by
  have hc : s.treeAt f (if b then c1 else c0) = some (if b then t1 else t0) := by
    cases b
    · exact h0
    · exact h1
  exact ⟨_, fun p => walk_internal p hn (lt_of_treeAt hc), hc⟩

/-- The codes of an unfolding are the walks to a leaf from its index. -/
theorem isCode_treeAt_iff {s : State} {fuel i : Nat} {T : Tree} (h : s.treeAt fuel i = some T) (code : List Bool)
    (v : Byte) : IsCode T code v ↔ ∃ j : Nat, s.walk i code = some j ∧ s.nodeAt j = some (.leaf v) := by
  induction code generalizing fuel i T with
  | nil =>
    rcases treeAt_cases h with ⟨f, w, -, hn, rfl⟩ | ⟨f, c0, c1, t0, t1, -, hn, -, -, rfl⟩
    · simp [IsCode, follow, State.walk, hn]
    · simp [IsCode, follow, State.walk, hn]
  | cons b code ih =>
    rcases treeAt_cases h with ⟨f, w, -, hn, rfl⟩ | ⟨f, c0, c1, t0, t1, -, hn, h0, h1, rfl⟩
    · refine iff_of_false (by simp [IsCode, follow]) ?_
      rintro ⟨j, hw, -⟩
      exact absurd (walk_leaf hn hw) (by simp)
    · obtain ⟨c, hwalk, hc⟩ := treeAt_child hn h0 h1 b
      rw [hwalk]
      exact ih hc

/-- Settles O33: by induction on the bit path, over the unfolding at any index. -/
theorem arenaWalksAreTreePaths : Obligations.ArenaWalksAreTreePaths := fun _ _ h => isCode_treeAt_iff h

/-! ### Every long enough bit sequence begins with a code (R105, R106, R121) -/

/-- An unfolding of at most `f + 1` levels has a leaf within the first `f` bits of any path. -/
theorem exists_code_of_treeAt {s : State} {f i : Nat} {T : Tree} {bits : List Bool} (h : s.treeAt (f + 1) i = some T)
    (hlen : f ≤ bits.length) :
    ∃ (code rest : List Bool) (j : Nat) (v : Byte),
      bits = code ++ rest ∧ code.length ≤ f ∧ s.walk i code = some j ∧ s.nodeAt j = some (.leaf v) := by
  induction f generalizing i T bits with
  | zero =>
    rcases treeAt_cases h with ⟨g, v, -, hn, -⟩ | ⟨g, c0, c1, t0, t1, hg, -, h0, -, -⟩
    · exact ⟨[], bits, i, v, rfl, le_rfl, rfl, hn⟩
    · obtain rfl : g = 0 := by omega
      simp [State.treeAt] at h0
  | succ f ih =>
    rcases treeAt_cases h with ⟨g, v, -, hn, -⟩ | ⟨g, c0, c1, t0, t1, hg, hn, h0, h1, -⟩
    · exact ⟨[], bits, i, v, rfl, Nat.zero_le _, rfl, hn⟩
    · obtain rfl : g = f + 1 := by omega
      cases bits with
      | nil => simp at hlen
      | cons b bits =>
        obtain ⟨c, hwalk, hc⟩ := treeAt_child hn h0 h1 b
        obtain ⟨code, rest, j, v, rfl, hcode, hw, hj⟩ := ih hc (Nat.le_of_succ_le_succ hlen)
        exact ⟨b :: code, rest, j, v, rfl, Nat.succ_le_succ hcode, (hwalk code).trans hw, hj⟩

/-- Settles O31: the unfolding has at most `NODES` levels, and its root is no leaf. -/
theorem wellFormedTreesResolveEveryStream : Obligations.WellFormedTreesResolveEveryStream := by
  rintro s bits ⟨htree, -⟩ hroot hlen
  obtain ⟨T, hT⟩ := Option.isSome_iff_exists.1 htree
  have hpos : 1 ≤ s.nodes := Nat.zero_lt_of_lt (lt_of_treeAt hT)
  obtain ⟨code, rest, j, v, hbits, hcode, hw, hj⟩ :=
    exists_code_of_treeAt (f := s.nodes - 1) (by rw [Nat.sub_add_cancel hpos]; exact hT) hlen
  refine ⟨code, rest, j, v, hbits, List.length_pos_iff.2 ?_, hcode, hw, hj⟩
  rintro rfl
  obtain rfl := Option.some.inj hw
  simp [State.rootInternal, hj, isLeafNode] at hroot

/-! ### No code begins with another code (R105) -/

/-- Settles O32: what is left of the longer walk starts at the leaf of the shorter one. -/
theorem codesArePrefixFree : Obligations.CodesArePrefixFree := by
  rintro s p _ i j v w hp hi hq hj ⟨r, rfl⟩
  rw [walk_append, hp, Option.bind_some] at hq
  obtain rfl := walk_leaf hi hq
  obtain rfl := Option.some.inj hq
  exact ⟨(List.append_nil p).symm, by simpa [hi] using hj⟩

/-! ### Indices reached by one walk only (clause 2 of `TreeWF`, R105) -/

/-- No index is reached from `i` by two walks. -/
def State.uniqueWalks (s : State) (i : Nat) : Prop :=
  ∀ p q x, s.walk i p = some x → s.walk i q = some x → p = q

/-- Only an index of the arena reaches anything. -/
theorem lt_of_mem_reachAt {s : State} {f c x : Nat} (h : x ∈ s.reachAt f c) : c < s.nodes := by
  by_contra hge
  simp [reachAt_absent f (nodeAt_of_ge (Nat.le_of_not_lt hge))] at h

/-- Every index the unfolding lists is reached by a walk. -/
theorem walk_of_mem_reachAt {s : State} {f i x : Nat} (h : x ∈ s.reachAt f i) : ∃ p, s.walk i p = some x := by
  induction f generalizing i with
  | zero => simp [State.reachAt] at h
  | succ f ih =>
    rcases hn : s.nodeAt i with _ | (v | ⟨c0, c1⟩)
    · simp [reachAt_absent _ hn] at h
    · rw [reachAt_leaf f hn, List.mem_singleton] at h
      exact ⟨[], h ▸ rfl⟩
    · rw [reachAt_internal f hn, List.mem_cons, List.mem_append] at h
      rcases h with rfl | h | h
      · exact ⟨[], rfl⟩
      · obtain ⟨p, hp⟩ := ih h
        exact ⟨false :: p, (walk_internal p hn (lt_of_mem_reachAt h)).trans hp⟩
      · obtain ⟨p, hp⟩ := ih h
        exact ⟨true :: p, (walk_internal p hn (lt_of_mem_reachAt h)).trans hp⟩

/-- What an internal node's child reaches, the node reaches by a walk that begins with the child's bit. -/
theorem walk_of_mem_reachAt_child {s : State} {f i c0 c1 x : Nat} {b : Bool}
    (hn : s.nodeAt i = some (.internal c0 c1)) (h : x ∈ s.reachAt f (if b then c1 else c0)) :
    ∃ p, s.walk i (b :: p) = some x := by
  obtain ⟨p, hp⟩ := walk_of_mem_reachAt h
  exact ⟨p, (walk_internal p hn (lt_of_mem_reachAt h)).trans hp⟩

/-- Walks that are unique from an internal node are unique from each of its children. -/
theorem State.uniqueWalks.child {s : State} {i c0 c1 : Nat} (h : s.uniqueWalks i)
    (hn : s.nodeAt i = some (.internal c0 c1)) {b : Bool} (hlt : (if b then c1 else c0) < s.nodes) :
    s.uniqueWalks (if b then c1 else c0) := fun p q x hp hq =>
  List.tail_eq_of_cons_eq
    (h (b :: p) (b :: q) x ((walk_internal p hn hlt).trans hp) ((walk_internal q hn hlt).trans hq))

/-- Where no index is reached by two walks, the unfolding lists none twice. -/
theorem State.uniqueWalks.reachAt_nodup {s : State} {i : Nat} (h : s.uniqueWalks i) (f : Nat) :
    (s.reachAt f i).Nodup := by
  induction f generalizing i with
  | zero => exact List.nodup_nil
  | succ f ih =>
    rcases hn : s.nodeAt i with _ | (v | ⟨c0, c1⟩)
    · rw [reachAt_absent _ hn]
      exact List.nodup_nil
    · rw [reachAt_leaf f hn]
      exact List.nodup_singleton i
    · have hself : ∀ b : Bool, i ∉ s.reachAt f (if b then c1 else c0) := fun b hi => by
        obtain ⟨p, hp⟩ := walk_of_mem_reachAt_child hn hi
        exact absurd (h _ [] i hp rfl) (by simp)
      have hsub : ∀ b : Bool, (s.reachAt f (if b then c1 else c0)).Nodup := fun b => by
        by_cases hlt : (if b then c1 else c0) < s.nodes
        · exact ih (h.child hn hlt)
        · rw [reachAt_absent f (nodeAt_of_ge (Nat.le_of_not_lt hlt))]
          exact List.nodup_nil
      have hdisj : (s.reachAt f c0).Disjoint (s.reachAt f c1) := fun x hx0 hx1 => by
        obtain ⟨p, hp⟩ := walk_of_mem_reachAt_child (b := false) hn hx0
        obtain ⟨q, hq⟩ := walk_of_mem_reachAt_child (b := true) hn hx1
        exact absurd (h _ _ x hp hq) (by simp)
      rw [reachAt_internal f hn, List.nodup_cons, List.mem_append, not_or]
      exact ⟨⟨hself false, hself true⟩, (hsub false).append (hsub true) hdisj⟩

/-! ### The check a builder can run (R105) -/

/-- The last bit of a walk goes from a reached index to one of its children. -/
theorem walk_concat_inv {s : State} {i x : Nat} {p : List Bool} {b : Bool} (h : s.walk i (p ++ [b]) = some x) :
    ∃ y c0 c1, s.walk i p = some y ∧ s.nodeAt y = some (.internal c0 c1) ∧ (if b then c1 else c0) = x := by
  rw [walk_append] at h
  obtain ⟨y, hy, hlast⟩ := Option.bind_eq_some_iff.1 h
  obtain ⟨n, c, hn, hc, hcx⟩ := walk_cons_inv hlast
  obtain rfl := Option.some.inj hcx
  obtain ⟨c0, c1, rfl⟩ := internal_of_childIndex hc
  obtain ⟨-, hsel⟩ := Option.ite_none_right_eq_some.1 hc
  exact ⟨y, c0, c1, hy, hn, Option.some.inj hsel⟩

/-- The child that a bit selects is a child. -/
theorem selected_mem_childrenOf {s : State} {i c0 c1 : Nat} (hn : s.nodeAt i = some (.internal c0 c1)) (b : Bool) :
    (if b then c1 else c0) ∈ s.childrenOf i := by
  rw [childrenOf_internal hn]
  cases b <;> simp

/-- Two different children are selected by different bits. -/
theorem selected_injective {c0 c1 : Nat} (h : c0 ≠ c1) : Function.Injective fun b : Bool => if b then c1 else c0 :=
  Bool.injective_iff.2 h

section
variable {s : State} (h : s.builderCheck)
include h

/-- The root, being the lowest index, is no child, so only the empty walk returns to it. -/
theorem State.builderCheck.walk_root {p : List Bool} (hp : s.walk root p = some root) : p = [] := by
  rcases List.eq_nil_or_concat' p with rfl | ⟨q, b, rfl⟩
  · rfl
  · obtain ⟨y, c0, c1, hy, hn, hsel⟩ := walk_concat_inv hp
    have hlater := (h.childrenLater y ⟨q, hy⟩ _ (selected_mem_childrenOf hn b)).1
    rw [hsel] at hlater
    exact absurd hlater (Nat.not_lt_zero y)

/-- An index has one parent, and stands in it for one bit, so its walk from the root is unique. -/
theorem State.builderCheck.uniqueWalks : s.uniqueWalks root := by
  intro p
  induction p using List.reverseRecOn with
  | nil =>
    intro q x hp hq
    obtain rfl := Option.some.inj hp
    exact (h.walk_root hq).symm
  | append_singleton p b ih =>
    intro q x hp hq
    rcases List.eq_nil_or_concat' q with rfl | ⟨q, b', rfl⟩
    · obtain rfl := Option.some.inj hq
      exact h.walk_root hp
    · obtain ⟨y, c0, c1, hy, hn, hsel⟩ := walk_concat_inv hp
      obtain ⟨y', d0, d1, hy', hn', hsel'⟩ := walk_concat_inv hq
      obtain rfl : y = y' := h.oneParent y y' ⟨p, hy⟩ ⟨q, hy'⟩ x (hsel ▸ selected_mem_childrenOf hn b)
        (hsel' ▸ selected_mem_childrenOf hn' b')
      obtain ⟨rfl, rfl⟩ : c0 = d0 ∧ c1 = d1 := by simpa [hn] using hn'
      have hne : c0 ≠ c1 := by simpa [childrenOf_internal hn] using h.childrenDistinct y ⟨p, hy⟩
      obtain rfl : b = b' := selected_injective hne (hsel.trans hsel'.symm)
      rw [ih q y hy hy']

theorem State.builderCheck.reachable_lt {i : Nat} (hi : s.reachable i) : i < s.nodes := by
  obtain ⟨p, hp⟩ := hi
  exact walk_lt h.notEmpty hp

/-- Children lie above their parents, so the unfolding at an index needs no more levels than there are indices from it
to the end of the arena. -/
theorem State.builderCheck.exists_treeAt {fuel i : Nat} (hi : s.reachable i) (hfuel : s.nodes ≤ i + fuel) :
    ∃ T, s.treeAt fuel i = some T := by
  induction fuel generalizing i with
  | zero => exact absurd (h.reachable_lt hi) (Nat.not_lt.2 hfuel)
  | succ f ih =>
    obtain ⟨v | ⟨c0, c1⟩, hn⟩ := nodeAt_of_lt (h.reachable_lt hi)
    · exact ⟨_, treeAt_leaf f hn⟩
    · have hsub : ∀ c ∈ s.childrenOf i, ∃ t, s.treeAt f c = some t := fun c hc => by
        obtain ⟨hgt, hcn⟩ := h.childrenLater i hi c hc
        exact ih (hi.child hc hcn) (by omega)
      obtain ⟨t0, h0⟩ := hsub c0 (selected_mem_childrenOf hn false)
      obtain ⟨t1, h1⟩ := hsub c1 (selected_mem_childrenOf hn true)
      exact ⟨_, treeAt_internal hn h0 h1⟩

end

/-- Settles O34: rising children bound the unfolding, and one parent for each index makes its walk unique. -/
theorem builderCheckEnsuresTreeWF : Obligations.BuilderCheckEnsuresTreeWF := fun s h =>
  ⟨Option.isSome_iff_exists.2 (h.exists_treeAt (reachable_root s) (Nat.le_add_left _ _)),
    h.uniqueWalks.reachAt_nodup _⟩

/-! ### READ_BYTE on a bit without a transition (R108, R116, R168) -/

/-- Settles O39: the body walks the tree along `p`, takes the next bit, and finds no child for it. -/
theorem readByteDecodeError : Obligations.ReadByteDecodeError := by
  intro a b s p rest bit j n hsess hd hwalk hn hleaf hchild
  have hint : p ≠ [] → ∃ c0 c1, s.nodeAt j = some (.internal c0 c1) := fun hp => by
    cases n with
    | leaf v => exact absurd (hleaf hp) (by simp [isLeafNode])
    | internal c0 c1 => exact ⟨c0, c1, hn⟩
  obtain ⟨t, f, hloop, hw, hnode⟩ := freshSymbol_walk hd hwalk hint
  obtain ⟨u, hbit, hud, -, ⟨raw, htaken⟩, -⟩ := nextBit_of_deliverable hw.deliverable
  have hadv : Advance s u := (freshSymbol_advance s).trans (hw.advance.trans htaken.advance)
  have hunode : u.node = j := htaken.node.trans hnode
  have hpush : pushBit bit u = .ok (some (.error .decodeError)) (u.log (.treeRead u.node)) :=
    pushBit_noChild (by rw [hadv.nodeAt, hunode, hn]) (by rw [hadv.nodes, hchild])
  have hall : Advance s (u.log (.treeRead u.node)) := hadv.trans (.ofTreeRead u u.node)
  obtain ⟨mid, hmid, hresp, hstores, -⟩ := hall.transfers
  refine ⟨raise .decodeError (u.log (.treeRead u.node)), mid, ?_, ?_, ?_, hresp, hstores⟩
  · rw [exec_readByte a b hsess, hloop, symbolLoop, hbit, Result.ok_andThen]
    simp only [symbolStep, hpush, Result.ok_andThen, Result.ok_finish, finishByte]
  · have hcnt : u.bitcnt = s.bitcnt + p.length + 1 := by rw [htaken.bitcnt, hw.bitcnt]; rfl
    have hsym : u.symbits = p.length := by rw [htaken.symbits, hw.symbits]; simp
    rw [raise, respond, hmid, hall.frame]
    simp [State.log, errorResponse, isError, hunode, hcnt, hsym]
  · exact (deliverable_congr rfl rfl rfl rfl rfl).1.trans hud

end Sys2Proof.Machine
end

section
/-! PROOFS. The IncrementalDecoder (42_incremental_decoder.md): its two states and every transition (R119). -/

namespace Sys2Proof.Machine

/-! ### The state and the operations at the current node (R25, R116, R118) -/

/-- The decoder is Resolved at a leaf and Traversing at an internal node (R25). -/
theorem decoderState_of_nodeAt {s : State} {n : Node} (h : s.nodeAt s.node = some n) :
    s.decoderState = some (if isLeafNode n = true then .resolved else .traversing) := by
  cases n <;> simp [State.decoderState, h, isLeafNode]

/-- The cursor stays where CHILD answers NoChild (R116). -/
theorem push_noChild {s : State} {n : Node} {b : Bool} (hn : s.nodeAt s.node = some n)
    (hc : childIndex s.nodes b n = none) : push b s = .ok .decodeError (s.log (.treeRead s.node)) := by
  simp [push, child_of_nodeAt hn, hc]

/-- An internal node has no symbol to give (R103, R118, U13). -/
theorem value_of_internal {s : State} {c0 c1 : Nat} (h : s.nodeAt s.node = some (.internal c0 c1)) :
    value s = .refused .notALeaf := by
  simp [value, symbol, readTree_of_nodeAt h]

/-! ### The two rows of the table (R119) -/

section
variable {s : State} {c0 c1 : Nat} {b : Bool}

/-- From Traversing a PUSH to a populated child resolves the decoder exactly if that child is a leaf. -/
theorem push_populated (hn : s.nodeAt s.node = some (.internal c0 c1)) (hlt : (if b then c1 else c0) < s.nodes) :
    ∃ (n : Node) (t : State), s.nodeAt (if b then c1 else c0) = some n ∧ push b s = .ok .moved t ∧
      t = { s with node := (if b then c1 else c0), trace := s.trace ++ [.treeRead s.node] } ∧
      t.decoderState = some (if isLeafNode n = true then .resolved else .traversing) := by
  obtain ⟨n, hchild⟩ := nodeAt_of_lt hlt
  exact ⟨n, _, hchild, push_moved hn (if_pos hlt), rfl, decoderState_of_nodeAt hchild⟩

/-- From Traversing a PUSH to an absent child is a DecodeError: its index is no index of the arena (R77). -/
theorem push_absent (hn : s.nodeAt s.node = some (.internal c0 c1)) (hge : s.nodes ≤ if b then c1 else c0) :
    push b s = .ok .decodeError (s.log (.treeRead s.node)) :=
  push_noChild hn (if_neg (Nat.not_lt.2 hge))

end

/-- Settles O30: the kind of the current node is the decoder's state, and says what each operation does. -/
theorem decoderTransitions : Obligations.DecoderTransitions := by
  intro s
  refine ⟨rfl, fun c0 c1 hinternal => ?traversing, fun v hleaf => ?resolved⟩
  case traversing =>
    exact ⟨decoderState_of_nodeAt hinternal, fun _ => push_populated hinternal, fun _ => push_absent hinternal,
      hasValue_of_nodeAt hinternal, value_of_internal hinternal⟩
  case resolved =>
    exact ⟨decoderState_of_nodeAt hleaf, fun _ => push_noChild hleaf rfl, hasValue_of_nodeAt hleaf,
      value_of_leaf hleaf⟩

end Sys2Proof.Machine
end

section
/-! PROOFS. The DecodeStream (43_decodestream.md): the dispatch, the session, the flags and the unsupported commands
(R130 to R133, R135 to R147). -/

namespace Sys2Proof.Machine

/-! ### Responses that change nothing else -/

theorem respond_ok (d : Nat) (s : State) :
    respond (okResponse d) s = { s with activity := .idle, trace := s.trace ++ [.respond ⟨.ok, d⟩] } := by
  simp [respond, okResponse, isError, State.log]

theorem raise_unsupported (s : State) : raise .unsupportedOperation s =
    { s with activity := .idle, errored := true, trace := s.trace ++ [.respond ⟨.unsupportedOperation, 0⟩] } := by
  simp [raise, respond, errorResponse, isError, State.log]

/-! ### The dispatch (R130, R147) -/

section
variable {s : State} {w : Nat} {rest : List Nat} (hrst : s.rst = false) (hidle : s.activity = .idle)
  (hcmds : s.cmds = w :: rest)
include hrst hidle hcmds

/-- An idle core runs the command its next word decodes to. -/
theorem step_command {i : Instr} (hd : decode s.cfg.aw w = .ok i) : step s = exec i (acceptCommand w rest s) := by
  simp [step, hrst, hidle, hcmds, hd]

theorem step_reserved {e : Reject} (hd : decode s.cfg.aw w = .error e) :
    step s = .next (execReserved (acceptCommand w rest s)) := by
  simp [step, hrst, hidle, hcmds, hd]

end

/-- Settles O8: the state the command runs in is the one that has accepted its word. -/
theorem stepRunsTheDecodedCommand : Obligations.StepRunsTheDecodedCommand := fun _ _ _ _ hrst hidle hcmds hd =>
  step_command hrst hidle hcmds hd

/-! ### Commands that are not supported (R139 to R147) -/

/-- Every command from the code 0x08 on is one of the seven. -/
theorem exec_unsupported {i : Instr} (hi : 0x08 ≤ i.opcode) (s : State) :
    exec i s = .next (raise .unsupportedOperation s) := by
  cases i with
  | flush | getLength | getPosition | setPosition | seek | setLength | write => rfl
  | _ => exact absurd hi (by simp [Instr.opcode])

/-- No command has the code 0x07 (R69). -/
theorem opcode_ne_seven (i : Instr) : i.opcode ≠ 0x07 := by cases i <;> simp [Instr.opcode]

/-- A step that takes a word from the code 0x07 on answers UnsupportedOperation, whether the word is a command or
reserved. -/
theorem step_unsupported {s : State} {w : Nat} {rest : List Nat} (hrst : s.rst = false) (hidle : s.activity = .idle)
    (hcmds : s.cmds = w :: rest) (hw : 0x07 ≤ w % 2 ^ 8) :
    step s = .next { s with
      cmds := rest, errored := true, trace := s.trace ++ [.command w, .respond ⟨.unsupportedOperation, 0⟩] } := by
  have hraise : step s = .next (raise .unsupportedOperation (acceptCommand w rest s)) := by
    cases hd : decode s.cfg.aw w with
    | error e => exact step_reserved hrst hidle hcmds hd
    | ok i =>
      have hop : i.opcode = w % 2 ^ 8 := opcode_of_decode hd
      have hne := opcode_ne_seven i
      rw [step_command hrst hidle hcmds hd, exec_unsupported (by omega)]
  rw [hraise, raise_unsupported]
  simp [acceptCommand, State.log, hidle]

/-- Settles O9: the reserved codes are among those from 0x07 on. -/
theorem reservedCodeAnswersUnsupported : Obligations.ReservedCodeAnswersUnsupported :=
  ⟨fun _ _ _ hrst hidle hcmds hw => step_unsupported hrst hidle hcmds (by omega), rfl, rfl⟩

/-- The decoder looks at the operation code for the command and at the fields for its operands (R66, R67). -/
theorem decode_of_opField {aw w op : Nat} {i : Instr} (hw : w % 2 ^ 8 = op)
    (hi : instrOfOp op (aField aw w) (bField aw w) = some i) : decode aw w = .ok i :=
  decode_eq_ok.2 (by rw [opField, hw, hi])

/-- Settles O25: the seven have the codes 0x08 to 0x0E. -/
theorem unsupportedCommandsFail : Obligations.UnsupportedCommandsFail := by
  refine ⟨fun a b s i hi => ?_, fun aw w => ?_, rfl⟩
  · have hop : 0x08 ≤ i.opcode := by
      rcases hi with rfl | rfl | rfl | rfl | rfl | rfl | rfl <;> simp [Instr.opcode]
    rw [exec_unsupported hop, raise_unsupported]
  · refine ⟨?_, ?_, ?_, ?_, ?_, ?_, ?_⟩ <;> exact fun hw => ⟨_, _, decode_of_opField hw rfl⟩

theorem run_succ {k : Nat} {s t : State} (h : step s = .next t) :
    Host.Core.run core (k + 1) s = Host.Core.run core k t := by
  have hcore : core.step s = .next t := h
  simp only [Host.Core.run, hcore]

/-- A run over words from the code 0x07 on leaves the queue, the record and the trace changed, and nothing else. -/
theorem run_unsupported (ws rest : List Nat) {s : State} (hrst : s.rst = false) (hidle : s.activity = .idle)
    (hws : ∀ w ∈ ws, 0x07 ≤ w % 2 ^ 8) :
    Host.Core.run core ws.length { s with cmds := ws ++ rest } = .next { s with
      cmds := rest, errored := s.errored || !ws.isEmpty,
      trace := s.trace ++ ws.flatMap fun w => [.command w, .respond ⟨.unsupportedOperation, 0⟩] } := by
  induction ws generalizing s with
  | nil => simp [Host.Core.run]
  | cons w ws ih =>
    have hstep := step_unsupported (s := { s with cmds := w :: ws ++ rest }) hrst hidle rfl (hws w List.mem_cons_self)
    rw [List.length_cons, run_succ hstep]
    refine (ih (s := { s with errored := true, trace := s.trace ++ [.command w, .respond ⟨.unsupportedOperation, 0⟩] })
      hrst hidle fun w' hw' => hws w' (List.mem_cons_of_mem w hw')).trans ?_
    simp

/-- Settles O26: one such word after the other, and at least one sets the fault record. -/
theorem unsupportedBurstLeavesTheStream : Obligations.UnsupportedBurstLeavesTheStream := by
  intro ws rest s hrst hidle hws hne
  have hcodes : ∀ w ∈ ws, 0x07 ≤ w % 2 ^ 8 := fun w hw => by
    have := hws w hw
    omega
  have herr : (s.errored || !ws.isEmpty) = true := by simp [hne]
  exact herr ▸ run_unsupported ws rest hrst hidle hcodes

/-! ### The capability flags (R136 to R138) -/

/-- Settles O24: each flag is a constant, and each command has its code. -/
theorem capabilityCommandsAnswerTheFlags : Obligations.CapabilityCommandsAnswerTheFlags := by
  refine ⟨fun a b s => ?_, fun aw w => ?_, rfl, rfl⟩
  · exact ⟨congrArg _ (respond_ok 1 s), congrArg _ (respond_ok 0 s), congrArg _ (respond_ok 0 s)⟩
  · refine ⟨?_, ?_, ?_⟩ <;> exact fun hw => ⟨_, _, decode_of_opField hw rfl⟩

/-! ### The session (R131 to R133) -/

/-- Settles O20: both inputs are present, and the session begins. -/
theorem openBeginsASession : Obligations.OpenBeginsASession := by
  intro a b s hclosed hsrc htree
  rw [exec, execOpenStream, hclosed]
  exact if_pos (by rw [hsrc, htree]; rfl)

/-- Settles O22: each command looks at `sess` first. -/
theorem wrongSessionIsRefused : Obligations.WrongSessionIsRefused := by
  refine fun a b s => ⟨fun hclosed => ⟨?_, ?_, ?_⟩, fun hopened => ?_⟩
  · simp only [exec, execReadByte, hclosed]
  · simp only [exec, execRead, hclosed]
  · simp only [exec, execCloseStream, hclosed]
  · simp only [exec, execOpenStream, hopened]

/-- Settles O23: the session is closed and the response changes nothing else. -/
theorem closeEndsTheSession : Obligations.CloseEndsTheSession := by
  intro a b s hopened
  simp only [exec, execCloseStream, hopened, respond_ok]

/-! ### A READ without symbols and one without room (R135 (a), (d)) -/

/-- Settles O43: the loop of READ has no round. -/
theorem readOfCountZero : Obligations.ReadOfCountZero := by
  intro offset s hopened hroom
  rw [exec_read hopened hroom, bulkLoop, respond_ok]

/-- Settles O44: READ looks at the room before its loop. -/
theorem readWithoutRoomIsRefused : Obligations.ReadWithoutRoomIsRefused := by
  intro offset count s hopened hover
  have hroom : ¬ fitsBuffer s.cfg.bufSize offset count := Nat.not_le.2 hover
  simp only [exec, execRead, hopened, if_neg hroom]

end Sys2Proof.Machine
end

section
/-! PROOFS. The DecodeStream (43_decodestream.md): READ_BYTE on a code, at the end of the bits, and what it leaves
unchanged (R134, R148, R149, R165 to R168). -/

namespace Sys2Proof.Machine

/-! ### What READ_BYTE leaves unchanged -/

/-- Settles O42: the body advances, and every end of the command sets the activity, the record and the trace only. -/
theorem readByteFrame : Obligations.ReadByteFrame := by
  intro a b s t h
  simp only [exec, execReadByte] at h
  split at h
  · simp at h
  · obtain ⟨res, u, hu, hfin⟩ := Result.finish_eq_next.1 h
    have hadv := readByteStep_advance hu
    have hbuf (addr : Nat) : Memory.read u.buf addr = Memory.read s.buf addr := by rw [hadv.buf]
    cases res <;> obtain rfl := Host.Outcome.next.inj hfin <;>
      exact ⟨by rw [hadv.frame]; rfl, hadv.forward, hbuf⟩

/-! ### A code at hand (R121, R134, R200) -/

/-- The transfers of a walk, all counted. -/
theorem Walked.transfers {s t : State} {k reads : Nat} {rest : List Bool} (h : Walked s t k reads rest) :
    ∃ mid, t.trace = s.trace ++ mid ∧ responsesIn mid = [] ∧ storesIn mid = [] ∧
      t.srcCursor = s.srcCursor + (bytesIn mid).length ∧ treeReadsIn mid = reads ∧
      requestsIn mid = (bytesIn mid).length := by
  obtain ⟨mid, hmid, hresp, hstores, hcursor⟩ := h.advance.transfers
  obtain ⟨mid', hmid', hreads, hreq⟩ := h.accesses
  obtain rfl : mid = mid' := List.append_cancel_left (hmid.symm.trans hmid')
  exact ⟨mid, hmid, hresp, hstores, hcursor, hreads, hreq⟩

/-- Settles O35: the body walks to the leaf, and the response changes neither the bits nor the decoder. -/
theorem readByteDecodesOneCode : Obligations.ReadByteDecodesOneCode := by
  intro a b s code rest j v hsess hd hne hwalk hj
  obtain ⟨f, hfuel⟩ := symbolFuel_split hd
  obtain ⟨t, hloop, hw, hnode⟩ := symbolLoop_code (s := freshSymbol s) (f + 1)
    ((freshSymbol_deliverable s).1.trans hd) (((freshSymbol_advance s).walk root code).trans hwalk) hj hne
  obtain ⟨mid, hmid, hresp, hstores, hcursor, hreads, hreq⟩ := hw.transfers
  have hcongr := deliverable_congr (s := t) (t := respond (byteResponse v) t) rfl rfl rfl rfl rfl
  refine ⟨respond (byteResponse v) t, mid, ?_, ?_, hw.bitpos, hcongr.1.trans hw.deliverable,
    hcongr.2.trans (hw.bitsEnd.trans (freshSymbol_deliverable s).2), hresp, hstores, hreads, hreq⟩
  · rw [exec_readByte a b hsess, hfuel, hloop]
    rfl
  · have hcnt : t.bitcnt = s.bitcnt + code.length := hw.bitcnt
    have hsym : t.symbits = code.length := by simpa using hw.symbits
    have htrace : t.trace = s.trace ++ mid := hmid
    have hsrc : t.srcCursor = s.srcCursor + (bytesIn mid).length := hcursor
    rw [byteResponse, respond_ok, hw.advance.frame]
    simp [hnode, hcnt, hsym, htrace, hsrc]

/-! ### No bit left -/

/-- What ends the loop when no bit is left, for each end that answers the command (R90, R93, R134). -/
theorem symbolLoop_end_cases (f : Nat) {s : State} (hlim : ∀ n, s.cfg.bitLimit = some n → s.bitcnt ≤ n)
    (hd : s.deliverable = []) :
    (s.bitsEnd = .limit → symbolLoop (f + 1) s = .ok (endResult s) s) ∧
    (s.bitsEnd = .sourceEnd → symbolLoop (f + 1) s = .ok (endResult s)
      { s with answers := s.answers.tail, trace := s.trace ++ [.fetchRequest, .fetchAnswer .atEnd] }) ∧
    ∀ e, s.bitsEnd = .sourceFail e → s.bitpos = 0 ∧ symbolLoop (f + 1) s = .ok (.error (.ioFailure e))
      { s with answers := s.answers.tail, trace := s.trace ++ [.fetchRequest, .fetchAnswer (.fail e)] } := by
  rcases symbolLoop_at_end f hlim hd with ⟨he, hl⟩ | ⟨hpos, ⟨he, -, hl⟩ | ⟨he, hl⟩ | ⟨e, he, hl⟩ | ⟨he, hl⟩⟩
  · exact ⟨fun _ => hl, by simp [he], by simp [he]⟩
  · exact ⟨by simp [he], by simp [he], by simp [he]⟩
  · exact ⟨by simp [he], fun _ => hl, by simp [he]⟩
  · exact ⟨by simp [he], by simp [he], by simp [he, hpos, hl]⟩
  · exact ⟨by simp [he], by simp [he], by simp [he]⟩

/-- Settles O36: the fresh symbol has no bit to take, and `End` is the one transfer where the limit is not reached. -/
theorem readByteAtTheCleanEnd : Obligations.ReadByteAtTheCleanEnd := by
  intro a b s hsess hlim hd
  obtain ⟨f, hfuel⟩ := symbolFuel_split (s := s) (p := []) (rest := []) hd
  rw [List.length_nil, Nat.zero_add] at hfuel
  obtain ⟨hlimit, hsource, -⟩ := symbolLoop_end_cases f (s := freshSymbol s) hlim
    ((freshSymbol_deliverable s).1.trans hd)
  rw [(freshSymbol_deliverable s).2] at hlimit hsource
  rw [exec_readByte a b hsess, hfuel]
  refine ⟨fun he => ?_, fun he => ?_⟩
  · rw [hlimit he]
    simp [endResult, finishByte, endOfStreamResponse, respond, isError, State.log, decReset, root]
  · rw [hsource he]
    simp [endResult, finishByte, endOfStreamResponse, respond, isError, State.log, decReset, root]

/-- The limit is met without a transfer, the source's `End` with one request. -/
theorem symbolLoop_ended (f : Nat) {s : State} (hlim : ∀ n, s.cfg.bitLimit = some n → s.bitcnt ≤ n)
    (hd : s.deliverable = []) (hend : s.bitsEnd = .limit ∨ s.bitsEnd = .sourceEnd) :
    ∃ answers ev, symbolLoop (f + 1) s = .ok (endResult s) { s with answers := answers, trace := s.trace ++ ev } ∧
      responsesIn ev = [] ∧ storesIn ev = [] ∧ bytesIn ev = [] ∧
      requestsIn ev = if s.bitsEnd = .limit then 0 else 1 := by
  obtain ⟨hlimit, hsource, -⟩ := symbolLoop_end_cases f hlim hd
  rcases hend with he | he
  · exact ⟨s.answers, [], by simp [hlimit he], rfl, rfl, rfl, by rw [he]; rfl⟩
  · exact ⟨s.answers.tail, [.fetchRequest, .fetchAnswer .atEnd], hsource he, rfl, rfl, rfl, by rw [he]; rfl⟩

/-- Settles O37: the body walks the tree along all the bits there are and then meets their end inside the symbol. -/
theorem readByteTruncatedInsideASymbol : Obligations.ReadByteTruncatedInsideASymbol := by
  intro a b s j c0 c1 hsess hlim hne hwalk hj hend
  obtain ⟨u, f, hloop, hw, hnode⟩ := freshSymbol_walk (rest := []) (by simp) hwalk fun _ => ⟨c0, c1, hj⟩
  obtain ⟨mid, hmid, hresp, hstores, -, -, hreq⟩ := hw.transfers
  have hue : u.bitsEnd = s.bitsEnd := hw.bitsEnd.trans (freshSymbol_deliverable s).2
  obtain ⟨answers, ev, hl, hevr, hevs, hevb, hevq⟩ :=
    symbolLoop_ended f (hw.limit (by rw [(freshSymbol_deliverable s).1]) hlim) hw.deliverable (by rwa [hue])
  have hsym : u.symbits = s.deliverable.length := by simpa using hw.symbits
  have htrunc : endResult u = .error .truncatedStream := if_neg (by simpa [hsym] using hne)
  refine ⟨raise .truncatedStream { u with answers := answers, trace := u.trace ++ ev }, mid ++ ev, ?_, ?_,
    by simp [hresp, hevr], by simp [hstores, hevs], ?_⟩
  · rw [exec_readByte a b hsess, hloop, hl, htrunc]
    rfl
  · have hcnt : u.bitcnt = s.bitcnt + s.deliverable.length := hw.bitcnt
    have htrace : u.trace = s.trace ++ mid := hmid
    rw [raise, respond, State.log, hw.advance.frame]
    simp [errorResponse, isError, hnode, hcnt, hsym, htrace]
  · rw [requestsIn_append, bytesIn_append, hreq, hevq, hevb, hue, List.append_nil]

/-- Settles O38: the body walks the tree along all the bits there are and then meets the failure. -/
theorem readBytePassesSourceFailure : Obligations.ReadBytePassesSourceFailure := by
  intro a b s j e hsess hlim hwalk hint hend
  obtain ⟨u, f, hloop, hw, hnode⟩ := freshSymbol_walk (rest := []) (by simp) hwalk hint
  obtain ⟨mid, hmid, hresp, hstores, -⟩ := hw.transfers
  obtain ⟨-, -, hfail⟩ :=
    symbolLoop_end_cases f (hw.limit (by rw [(freshSymbol_deliverable s).1]) hlim) hw.deliverable
  obtain ⟨hpos, hl⟩ := hfail e (hw.bitsEnd.trans ((freshSymbol_deliverable s).2.trans hend))
  refine ⟨raise (.ioFailure e)
    { u with answers := u.answers.tail, trace := u.trace ++ [.fetchRequest, .fetchAnswer (.fail e)] }, mid, ?_, ?_,
    hresp, hstores⟩
  · rw [exec_readByte a b hsess, hloop, hl]
    rfl
  · have hcnt : u.bitcnt = s.bitcnt + s.deliverable.length := hw.bitcnt
    have hsym : u.symbits = s.deliverable.length := by simpa using hw.symbits
    have htrace : u.trace = s.trace ++ mid := hmid
    rw [raise, respond, State.log, hw.advance.frame]
    simp [errorResponse, isError, hnode, hpos, hcnt, hsym, htrace]

/-! ### READ_BYTE over a well-formed tree (R106, R134 (a)) -/

/-- Over an unfolding the bits begin with a code or lead to an internal node. -/
theorem code_or_internal {s : State} {fuel i : Nat} {T : Tree} (h : s.treeAt fuel i = some T) (bits : List Bool) :
    (∃ (code rest : List Bool) (j : Nat) (v : Byte), bits = code ++ rest ∧ s.walk i code = some j ∧
      s.nodeAt j = some (.leaf v)) ∨
    ∃ j c0 c1, s.walk i bits = some j ∧ s.nodeAt j = some (.internal c0 c1) := by
  induction bits generalizing fuel i T with
  | nil =>
    rcases treeAt_cases h with ⟨f, v, -, hn, -⟩ | ⟨f, c0, c1, t0, t1, -, hn, -⟩
    · exact .inl ⟨[], [], i, v, rfl, rfl, hn⟩
    · exact .inr ⟨i, c0, c1, rfl, hn⟩
  | cons b bits ih =>
    rcases treeAt_cases h with ⟨f, v, -, hn, -⟩ | ⟨f, c0, c1, t0, t1, -, hn, h0, h1, -⟩
    · exact .inl ⟨[], b :: bits, i, v, rfl, rfl, hn⟩
    · obtain ⟨c, hwalk, hc⟩ := treeAt_child hn h0 h1 b
      rcases ih hc with ⟨code, rest, j, v, rfl, hw, hj⟩ | ⟨j, d0, d1, hw, hj⟩
      · exact .inl ⟨b :: code, rest, j, v, rfl, (hwalk code).trans hw, hj⟩
      · exact .inr ⟨j, d0, d1, (hwalk bits).trans hw, hj⟩

/-- Below an internal root no code is empty (R108). -/
theorem code_ne_nil {s : State} {code : List Bool} {j : Nat} {v : Byte} (hroot : s.rootInternal = true)
    (hw : s.walk root code = some j) (hj : s.nodeAt j = some (.leaf v)) : code ≠ [] := by
  rintro rfl
  obtain rfl := Option.some.inj hw
  simp [State.rootInternal, hj, isLeafNode] at hroot

/-- READ_BYTE ends with the response `r`. -/
def ReadByteAnswers (a b : Nat) (s : State) (r : Response) : Prop :=
  ∃ (t : State) (mid : List Event), exec (.readByte a b) s = .next t ∧ t.activity = .idle ∧
    t.trace = s.trace ++ mid ++ [.respond r] ∧ responsesIn mid = []

section
variable {a b : Nat} {s : State} (hsess : s.sess = .opened)
include hsess

theorem readByteAnswers_code {code rest : List Bool} {j : Nat} {v : Byte} (hd : s.deliverable = code ++ rest)
    (hne : code ≠ []) (hw : s.walk root code = some j) (hj : s.nodeAt j = some (.leaf v)) :
    ReadByteAnswers a b s ⟨.ok, v.toNat⟩ := by
  obtain ⟨t, mid, hexec, ht, -, -, -, hresp, -⟩ := readByteDecodesOneCode a b s code rest j v hsess hd hne hw hj
  exact ⟨t, mid, hexec, congrArg State.activity ht, congrArg State.trace ht, hresp⟩

variable (hlim : ∀ n, s.cfg.bitLimit = some n → s.bitcnt ≤ n)
include hlim

/-- At the end of the data READ_BYTE answers END_OF_STREAM or TRUNCATED_STREAM. -/
theorem readByteAnswers_ended {j c0 c1 : Nat} (hw : s.walk root s.deliverable = some j)
    (hj : s.nodeAt j = some (.internal c0 c1)) (hend : s.bitsEnd = .limit ∨ s.bitsEnd = .sourceEnd) :
    ReadByteAnswers a b s ⟨.endOfStream, 0⟩ ∨ ReadByteAnswers a b s ⟨.truncatedStream, 0⟩ := by
  by_cases hd : s.deliverable = []
  · obtain ⟨hlimit, hsource⟩ := readByteAtTheCleanEnd a b s hsess hlim hd
    rcases hend with he | he
    · exact .inl ⟨_, [], hlimit he, rfl, by simp, rfl⟩
    · exact .inl ⟨_, [.fetchRequest, .fetchAnswer .atEnd], hsource he, rfl, by simp, rfl⟩
  · obtain ⟨t, mid, hexec, ht, hresp, -⟩ :=
      readByteTruncatedInsideASymbol a b s j c0 c1 hsess hlim hd hw hj hend
    exact .inr ⟨t, mid, hexec, congrArg State.activity ht, congrArg State.trace ht, hresp⟩

theorem readByteAnswers_failed {j c0 c1 e : Nat} (hw : s.walk root s.deliverable = some j)
    (hj : s.nodeAt j = some (.internal c0 c1)) (hend : s.bitsEnd = .sourceFail e) :
    ReadByteAnswers a b s ⟨.ioFailure, e⟩ := by
  obtain ⟨t, mid, hexec, ht, hresp, -⟩ :=
    readBytePassesSourceFailure a b s j e hsess hlim hw (fun _ => ⟨c0, c1, hj⟩) hend
  refine ⟨t, mid ++ [.fetchRequest, .fetchAnswer (.fail e)], hexec, congrArg State.activity ht, ?_, ?_⟩
  · simpa using congrArg State.trace ht
  · rw [responsesIn_append, hresp]
    rfl

end

/-- Settles O41: the bits begin with a code, or they all lead to an internal node and what ends them is answered. -/
theorem readByteRespondsOverAWellFormedTree : Obligations.ReadByteRespondsOverAWellFormedTree := by
  rintro a b s hinv hsess ⟨htree, -⟩ hroot hends
  obtain ⟨T, hT⟩ := Option.isSome_iff_exists.1 htree
  suffices hanswer : ∃ r, ReadByteAnswers a b s r ∧ r.status ≠ .decodeError by
    obtain ⟨r, ⟨t, mid, hexec, hidle, htrace, hresp⟩, hr⟩ := hanswer
    exact ⟨t, mid, r, hexec, hidle, htrace, hresp, hr⟩
  have hcases : (∃ (code rest : List Bool) (j : Nat) (v : Byte), s.deliverable = code ++ rest ∧
      s.walk root code = some j ∧ s.nodeAt j = some (.leaf v)) ∨
      ((s.bitsEnd ≠ .silence ∧ s.bitsEnd ≠ .reserved) ∧
        ∃ j c0 c1, s.walk root s.deliverable = some j ∧ s.nodeAt j = some (.internal c0 c1)) :=
    hends.elim .inl fun he => (code_or_internal hT s.deliverable).imp_right fun hi => ⟨he, hi⟩
  rcases hcases with ⟨code, rest, j, v, hd, hw, hj⟩ | ⟨⟨hsilence, hreserved⟩, j, c0, c1, hw, hj⟩
  · exact ⟨_, readByteAnswers_code hsess hd (code_ne_nil hroot hw hj) hw hj, nofun⟩
  · have hended (he : s.bitsEnd = .limit ∨ s.bitsEnd = .sourceEnd) :
        ∃ r, ReadByteAnswers a b s r ∧ r.status ≠ .decodeError :=
      (readByteAnswers_ended hsess hinv.limit hw hj he).elim (fun h => ⟨_, h, nofun⟩) fun h => ⟨_, h, nofun⟩
    cases he : s.bitsEnd with
    | limit => exact hended (.inl he)
    | sourceEnd => exact hended (.inr he)
    | sourceFail e => exact ⟨_, readByteAnswers_failed hsess hinv.limit hw hj he, nofun⟩
    | silence => exact absurd he hsilence
    | reserved => exact absurd he hreserved

end Sys2Proof.Machine
end

section
/-! PROOFS. The DecodeStream (43_decodestream.md): READ that ends early, and READ against READ_BYTE (R135, R148, R161,
R168, R169, R196). -/

namespace Sys2Proof.Machine

/-! ### The response a symbol's body leads READ_BYTE to -/

/-- What READ_BYTE responds at the end of its body; none where the command is not finished (R134). -/
def SymbolResult.response : SymbolResult → Option Response
  | .byte v => some (byteResponse v)
  | .endOfStream => some endOfStreamResponse
  | .error k => some (errorResponse k)
  | .blocked | .running => none

/-- What READ responds at the end of a body that gives no byte, after `n` symbols (R135, R161). -/
def bulkResponse (n : Nat) (r : Response) : Response := if r.status = .endOfStream then okResponse n else r

theorem finishByte_response {res : SymbolResult} {r : Response} (hr : res.response = some r) (s : State) :
    finishByte res s = .next (respond r s) := by
  cases res <;> cases hr <;> rfl

/-- A body that ends without a byte ends READ (R135). -/
theorem bulkStep_response {offset count n : Nat} {res : SymbolResult} {r : Response} (hr : res.response = some r)
    (hstatus : r.status ≠ .ok) (s : State) :
    bulkStep offset count n res s = .ok (some (.next (respond (bulkResponse n r) s))) s := by
  cases res with
  | byte v => cases hr; exact absurd rfl hstatus
  | endOfStream => cases hr; rfl
  | error k => cases hr; cases k <;> rfl
  | blocked | running => cases hr

theorem bulkLoop_response {offset count left n : Nat} {s t : State} {res : SymbolResult} {r : Response}
    (h : readByteStep s = .ok res t) (hr : res.response = some r) (hstatus : r.status ≠ .ok) :
    bulkLoop offset count (left + 1) n s = .next (respond (bulkResponse n r) t) := by
  simp only [bulkLoop, h, Result.ok_finish, bulkStep_response hr hstatus]

/-- A READ_BYTE that responds is the end of its body and its response. -/
theorem exec_readByte_responded {a b : Nat} {s t : State} {mid : List Event} {r : Response}
    (hsess : s.sess = .opened) (h : exec (.readByte a b) s = .next t)
    (htrace : t.trace = s.trace ++ mid ++ [.respond r]) :
    ∃ res u, readByteStep s = .ok res u ∧ res.response = some r ∧ t = respond r u ∧ Advance s u ∧
      u.trace = s.trace ++ mid := by
  rw [exec_readByte a b hsess] at h
  obtain ⟨res, u, hu, hfin⟩ := Result.finish_eq_next.1 h
  have hadv : Advance s u := readByteStep_advance hu
  obtain ⟨mid', hmid', hresp, -⟩ := hadv.transfers
  cases hres : res.response with
  | some r' =>
    obtain rfl := Host.Outcome.next.inj ((finishByte_response hres u).symm.trans hfin)
    rw [respond_trace] at htrace
    obtain ⟨hu', hr⟩ := List.append_inj' htrace rfl
    obtain rfl : r' = r := by simpa using hr
    exact ⟨res, u, hu, hres, rfl, hadv, hu'⟩
  | none =>
    have hsame : t.trace = u.trace := by
      cases res <;> cases hres <;> exact Host.Outcome.next.inj hfin ▸ rfl
    have hmem : mid' = mid ++ [.respond r] :=
      List.append_cancel_left (hmid'.symm.trans (hsame.symm.trans (by rw [htrace, List.append_assoc])))
    rw [hmem, responsesIn_append] at hresp
    simp [responsesIn] at hresp

/-! ### READ that ends early after some symbols (R135 (b), (c), R161) -/

/-- Delivered bits do not pass the bit limit (R95). -/
theorem CodesRead.limit {a : Nat} {codes : List (List Bool × Byte)} {rest : List Bool} {mid : List Event} {s t : State}
    (h : CodesRead a codes rest mid s t) (hd : s.deliverable = codes.flatMap Prod.fst ++ rest)
    (hlim : ∀ n, s.cfg.bitLimit = some n → s.bitcnt ≤ n) : ∀ n, t.cfg.bitLimit = some n → t.bitcnt ≤ n := by
  intro n hn
  rw [h.stored.advance.cfg] at hn
  have hle := hlim n hn
  have hlen := congrArg List.length hd
  simp only [State.deliverable, hn, List.length_take, List.length_append] at hlen
  rw [h.bitcnt]
  omega

/-- READ takes the codes that stand first; a READ_BYTE that then responds without a byte ends READ too. -/
theorem exec_read_ended {offset count : Nat} {s : State} {codes : List (List Bool × Byte)} {rest : List Bool}
    (hsess : s.sess = .opened) (hroom : offset + count ≤ s.cfg.bufSize) (hcount : codes.length < count)
    (hd : s.deliverable = codes.flatMap Prod.fst ++ rest) (hcodes : ∀ c ∈ codes, s.hasCode c) :
    ∃ t mid, CodesRead offset codes rest mid s t ∧ t.sess = .opened ∧
      ∀ x mid' r, exec (.readByte 0 0) t = .next x → x.trace = t.trace ++ mid' ++ [.respond r] → r.status ≠ .ok →
        ∃ u, Stored offset (codes.map Prod.snd) (mid ++ mid') s u ∧ x = respond r u ∧
          exec (.read offset count) s = .next (respond (bulkResponse codes.length r) u) := by
  obtain ⟨left, rfl⟩ : ∃ left, count = codes.length + (left + 1) := ⟨count - codes.length - 1, by omega⟩
  obtain ⟨t, mid, hloop, h⟩ :=
    bulkLoop_codes (count := codes.length + (left + 1)) (left + 1) 0 (offset := offset) (by omega) hd hcodes
  have hopen : t.sess = .opened := h.stored.advance.sess.trans hsess
  refine ⟨t, mid, h, hopen, fun x mid' r hx htrace hstatus => ?_⟩
  obtain ⟨res, u, hu, hr, rfl, hadv, hmid'⟩ := exec_readByte_responded hopen hx htrace
  obtain ⟨mid'', hs⟩ := hadv.stored (offset + (codes.map Prod.snd).length)
  obtain rfl : mid'' = mid' := List.append_cancel_left (hs.trace.symm.trans hmid')
  refine ⟨u, ?_, rfl, ?_⟩
  · simpa using h.stored.trans hs
  · rw [exec_read hsess hroom, hloop, bulkLoop_response hu hr hstatus, Nat.zero_add]

/-- The bytes READ has stored, and the others, are read so (R47). -/
theorem Stored.read {a : Nat} {codes : List (List Bool × Byte)} {mid : List Event} {s t : State}
    (h : Stored a (codes.map Prod.snd) mid s t) (addr : Nat) :
    Memory.read t.buf addr =
      if a ≤ addr ∧ addr < a + codes.length then (codes.map Prod.snd)[addr - a]? else Memory.read s.buf addr := by
  rw [h.buf, Memory.read_writeBytes, List.length_map]

/-- Settles O46: the READ_BYTE after the codes meets the clean end, at the limit or with one request. -/
theorem readStopsAtEndOfStream : Obligations.ReadStopsAtEndOfStream := by
  intro offset count s codes hsess hroom hcount hlim hd hend hcodes
  have hd' : s.deliverable = codes.flatMap Prod.fst ++ [] := by rw [hd, List.append_nil]
  obtain ⟨t, mid, hread, hopen, hended⟩ := exec_read_ended hsess hroom hcount hd' hcodes
  obtain ⟨hlimit, hsource⟩ := readByteAtTheCleanEnd 0 0 t hopen (hread.limit hd' hlim) hread.deliverable
  rw [hread.bitsEnd] at hlimit hsource
  obtain ⟨x, ev, hx, htrace, hreq⟩ : ∃ x ev, exec (.readByte 0 0) t = .next x ∧
      x.trace = t.trace ++ ev ++ [.respond endOfStreamResponse] ∧
      requestsIn ev = (bytesIn ev).length + if s.bitsEnd = .limit then 0 else 1 := by
    rcases hend with he | he
    · exact ⟨_, [], hlimit he, by simp [endOfStreamResponse], by rw [he]; rfl⟩
    · exact ⟨_, [.fetchRequest, .fetchAnswer .atEnd], hsource he, by simp [endOfStreamResponse], by rw [he]; rfl⟩
  obtain ⟨u, hs, -, hexec⟩ := hended x ev _ hx htrace nofun
  refine ⟨_, mid ++ ev, hexec, rfl, ?_, hs.responses, hs.stores, ?_, ?_, hs.read⟩
  · rw [respond_trace, hs.trace]
    rfl
  · rw [requestsIn_append, bytesIn_append, List.length_append, hread.requests, hreq, Nat.add_assoc]
  · rw [respond_errored, hs.advance.errored]
    exact Bool.or_false _

/-- A READ_BYTE that ends in an error, each of its three kinds: `part` are the bits it takes along the tree and `more`
those after them (R149, R167, R168). -/
theorem readByte_error {s : State} {part more : List Bool} {j : Nat} {r : Response} (hsess : s.sess = .opened)
    (hlim : ∀ n, s.cfg.bitLimit = some n → s.bitcnt ≤ n) (hd : s.deliverable = part ++ more)
    (hwalk : s.walk root part = some j) (hint : part ≠ [] → ∃ c0 c1, s.nodeAt j = some (.internal c0 c1))
    (herr : (more = [] ∧ part ≠ [] ∧ (s.bitsEnd = .limit ∨ s.bitsEnd = .sourceEnd) ∧ r = ⟨.truncatedStream, 0⟩) ∨
      (more = [] ∧ ∃ e : Nat, s.bitsEnd = .sourceFail e ∧ r = ⟨.ioFailure, e⟩) ∨
      ∃ (bit : Bool) (rest : List Bool) (n : Node), more = bit :: rest ∧ s.nodeAt j = some n ∧
        childIndex s.nodes bit n = none ∧ r = ⟨.decodeError, 0⟩) :
    ∃ t mid, exec (.readByte 0 0) s = .next t ∧ t.trace = s.trace ++ mid ++ [.respond r] ∧
      t.bitcnt = s.bitcnt + part.length + (more.take 1).length ∧ t.errored = true ∧
      r.status ≠ .ok ∧ r.status ≠ .endOfStream := by
  rcases herr with ⟨rfl, hne, hend, rfl⟩ | ⟨rfl, e, hend, rfl⟩ | ⟨bit, rest, n, rfl, hn, hchild, rfl⟩
  · obtain ⟨c0, c1, hj⟩ := hint hne
    obtain rfl : s.deliverable = part := hd.trans (List.append_nil _)
    obtain ⟨t, mid, hexec, ht, -⟩ := readByteTruncatedInsideASymbol 0 0 s j c0 c1 hsess hlim hne hwalk hj hend
    exact ⟨t, mid, hexec, congrArg State.trace ht, congrArg State.bitcnt ht, congrArg State.errored ht, nofun, nofun⟩
  · obtain rfl : s.deliverable = part := hd.trans (List.append_nil _)
    obtain ⟨t, mid, hexec, ht, -⟩ := readBytePassesSourceFailure 0 0 s j e hsess hlim hwalk hint hend
    exact ⟨t, mid ++ [.fetchRequest, .fetchAnswer (.fail e)], hexec, by simpa using congrArg State.trace ht,
      congrArg State.bitcnt ht, congrArg State.errored ht, nofun, nofun⟩
  · have hleaf : part ≠ [] → isLeafNode n = false := fun hne => by
      obtain ⟨c0, c1, hj⟩ := hint hne
      obtain rfl : n = .internal c0 c1 := Option.some.inj (hn.symm.trans hj)
      rfl
    obtain ⟨t, mid, hexec, ht, -⟩ := readByteDecodeError 0 0 s part rest bit j n hsess hd hwalk hn hleaf hchild
    exact ⟨t, mid, hexec, congrArg State.trace ht, congrArg State.bitcnt ht, congrArg State.errored ht, nofun, nofun⟩

/-- Settles O47: the READ_BYTE after the codes answers the error, and READ passes it on. -/
theorem readErrorKeepsTheStoredBytes : Obligations.ReadErrorKeepsTheStoredBytes := by
  intro offset count s codes part more j r hsess hroom hcount hlim hd hcodes hwalk hint herr
  obtain ⟨t, mid, hread, hopen, hended⟩ := exec_read_ended hsess hroom hcount hd hcodes
  have htree := hread.stored.advance.tree
  have hcfg := hread.stored.advance.cfg
  have hnode : t.nodeAt j = s.nodeAt j := nodeAt_congr htree hcfg j
  have hnodes : t.nodes = s.nodes := congrArg List.length htree
  rw [← walk_congr htree hcfg] at hwalk
  rw [← hread.bitsEnd, ← hnode, ← hnodes] at herr
  obtain ⟨x, ev, hx, htrace, hcnt, hxerr, hnotOk, hnotEnd⟩ :=
    readByte_error hopen (hread.limit hd hlim) hread.deliverable hwalk (hnode ▸ hint) herr
  obtain ⟨u, hs, rfl, hexec⟩ := hended x ev r hx htrace hnotOk
  rw [bulkResponse, if_neg hnotEnd] at hexec
  refine ⟨_, mid ++ ev, hexec, rfl, hxerr, ?_, hs.responses, hs.stores, ?_, hs.read⟩
  · rw [respond_trace, hs.trace]
  · rw [hcnt, hread.bitcnt]

end Sys2Proof.Machine
end

section
/-! PROOFS. The DecodeStream (43_decodestream.md): a READ against as many READ_BYTE commands (R135 (b), (e), R161). -/

namespace Sys2Proof.Machine

/-! ### What a symbol's body writes without reading -/

/-- The state with another activity and another BUF, and with its transfers after those of `past`. -/
def State.elsewhere (a : Activity) (m : List Host.Cell) (past : List Event) (s : State) : State :=
  { s with activity := a, buf := m, trace := past ++ s.trace }

/-- What an operation leaves, elsewhere. -/
def Result.elsewhere {α : Type} (a : Activity) (m : List Host.Cell) (past : List Event) (x : Result α) : Result α :=
  x.andThen fun r t => .ok r (t.elsewhere a m past)

section
variable (a : Activity) (m : List Host.Cell) (past : List Event)

@[simp] theorem elsewhere_log (s : State) (e : Event) :
    (s.elsewhere a m past).log e = (s.log e).elsewhere a m past := by
  simp [State.elsewhere, State.log]

theorem awaitBit_elsewhere (s : State) : awaitBit (s.elsewhere a m past) = (awaitBit s).elsewhere a m past := by
  cases hs : s.answers with
  | nil => simp [awaitBit, takeAnswer, State.elsewhere, Result.elsewhere, hs]
  | cons w rest =>
    cases hd : decodeAnswer s.cfg.iow w with
    | none => simp [awaitBit, takeAnswer, State.elsewhere, Result.elsewhere, hs, hd]
    | some ans =>
      cases ans <;> simp [awaitBit, takeAnswer, State.elsewhere, Result.elsewhere, hs, hd, deliverBit, State.log]

theorem nextBit_elsewhere (s : State) : nextBit (s.elsewhere a m past) = (nextBit s).elsewhere a m past := by
  by_cases hlimit : s.cfg.bitLimit = some s.bitcnt
  · rw [nextBit_at_limit hlimit, nextBit_at_limit (s := s.elsewhere a m past) hlimit]
    rfl
  · by_cases hpos : s.bitpos = 0
    · rw [nextBit_at_boundary hlimit hpos, nextBit_at_boundary (s := s.elsewhere a m past) hlimit hpos, elsewhere_log,
        awaitBit_elsewhere]
    · rw [nextBit_inside_byte hlimit hpos, nextBit_inside_byte (s := s.elsewhere a m past) hlimit hpos]
      rfl

theorem pushBit_elsewhere (b : Bool) (s : State) :
    pushBit b (s.elsewhere a m past) = (pushBit b s).elsewhere a m past := by
  cases hn : s.nodeAt s.node with
  | none =>
    have habsent (u : State) (hu : u.nodeAt u.node = none) : pushBit b u = .fault (.treeIndexAbsent u.node) := by
      simp [pushBit, push, child, readTree_of_absent hu]
    rw [habsent s hn, habsent (s.elsewhere a m past) hn]
    rfl
  | some n =>
    cases hc : childIndex s.nodes b n with
    | none =>
      rw [pushBit_noChild hn hc, pushBit_noChild (s := s.elsewhere a m past) hn hc, elsewhere_log]
      rfl
    | some c =>
      obtain ⟨k, hk⟩ := nodeAt_of_lt (childIndex_lt hc)
      cases k with
      | leaf v =>
        rw [pushBit_leaf hn hc hk, pushBit_leaf (s := s.elsewhere a m past) hn hc hk]
        simp [Result.elsewhere, State.elsewhere]
      | internal c0 c1 =>
        rw [pushBit_internal hn hc hk, pushBit_internal (s := s.elsewhere a m past) hn hc hk]
        simp [Result.elsewhere, State.elsewhere]

theorem symbolStep_elsewhere (r : BitResult) (s : State) :
    symbolStep r (s.elsewhere a m past) = (symbolStep r s).elsewhere a m past := by
  cases r with
  | bit b => exact pushBit_elsewhere a m past b s
  | _ => rfl

theorem symbolLoop_elsewhere (fuel : Nat) (s : State) :
    symbolLoop fuel (s.elsewhere a m past) = (symbolLoop fuel s).elsewhere a m past := by
  induction fuel generalizing s with
  | zero => rfl
  | succ fuel ih =>
    rw [symbolLoop, symbolLoop, nextBit_elsewhere]
    cases nextBit s with
    | fault r => rfl
    | refused r => rfl
    | ok r t =>
      simp only [Result.elsewhere, Result.ok_andThen, symbolStep_elsewhere]
      cases symbolStep r t with
      | fault r => rfl
      | refused r => rfl
      | ok e u =>
        cases e with
        | some res => rfl
        | none => exact ih u

/-- A symbol's body looks at none of the three (R134). -/
theorem readByteStep_elsewhere (s : State) :
    readByteStep (s.elsewhere a m past) = (readByteStep s).elsewhere a m past :=
  symbolLoop_elsewhere a m past (symbolFuel s) (freshSymbol s)

end

/-! ### Two states that a symbol's body does not tell apart -/

/-- Two states that are the same but for the activity, BUF and the trace. -/
inductive SameReader (s : State) : State → Prop where
  | intro (a : Activity) (m : List Host.Cell) (past : List Event) :
      SameReader s { s with activity := a, buf := m, trace := past }

theorem SameReader.refl (s : State) : SameReader s s := .intro s.activity s.buf s.trace

theorem SameReader.restore {s u : State} (h : SameReader s u) :
    { u with activity := s.activity, buf := s.buf, trace := s.trace } = s := by
  cases h
  rfl

theorem SameReader.sess {s u : State} (h : SameReader s u) : u.sess = s.sess := by
  cases h
  rfl

/-- A store on the one side and an OK response on the other go unnoticed. -/
theorem SameReader.store_respond {s u : State} (h : SameReader s u) (addr : Nat) (v : Byte) (d : Nat) :
    SameReader ({ s with buf := Memory.write s.buf addr v }.log (.store addr v)) (respond (okResponse d) u) := by
  obtain ⟨a, m, past⟩ := h
  rw [respond_ok]
  exact .intro _ m _

/-- So do responses that record alike. -/
theorem SameReader.respond {s u : State} (h : SameReader s u) {r r' : Response}
    (hr : isError r.status = isError r'.status) : SameReader (respond r s) (respond r' u) := by
  obtain ⟨a, m, past⟩ := h
  simp only [Machine.respond, ← hr]
  exact .intro _ m _

/-- From two such states a symbol's body ends alike, with the same transfers. -/
theorem readByteStep_same {s u t : State} {res : SymbolResult} (h : SameReader s u)
    (ht : readByteStep s = .ok res t) :
    ∃ v mid, readByteStep u = .ok res v ∧ SameReader t v ∧ t.trace = s.trace ++ mid ∧ v.trace = u.trace ++ mid ∧
      responsesIn mid = [] ∧ storesIn mid = [] := by
  obtain ⟨mid, hmid, hresp, hstores, -⟩ := (readByteStep_advance ht).transfers
  obtain ⟨a, m, past⟩ := h
  have hs : ({ s with trace := [] } : State).elsewhere s.activity s.buf s.trace = s := by simp [State.elsewhere]
  have hu : ({ s with trace := [] } : State).elsewhere a m past =
      { s with activity := a, buf := m, trace := past } := by
    simp [State.elsewhere]
  rw [← hs, readByteStep_elsewhere] at ht
  obtain ⟨res', t0, ht0, hok⟩ := Result.andThen_eq_ok.1 ht
  obtain ⟨rfl, rfl⟩ := Result.ok.inj hok
  obtain rfl : t0.trace = mid := List.append_cancel_left hmid
  refine ⟨t0.elsewhere a m past, t0.trace, ?_, .intro a m _, hmid, rfl, hresp, hstores⟩
  rw [← hu, readByteStep_elsewhere, ht0]
  rfl

/-! ### READ's rounds and the READ_BYTE commands -/

theorem repeatReadByte_succ {k : Nat} {s t : State} {res : SymbolResult} {r : Response} (hsess : s.sess = .opened)
    (h : readByteStep s = .ok res t) (hr : res.response = some r) :
    repeatReadByte (k + 1) s = repeatReadByte k (respond r t) := by
  have hexec : exec (.readByte 0 0) s = .next (respond r t) := by
    rw [exec_readByte 0 0 hsess]
    exact (congrArg (·.finish finishByte) h).trans (finishByte_response hr t)
  simp only [repeatReadByte, hexec]

/-- The responses READ_BYTE gives for the bytes `vs`, and the end `r` of a READ of `left` symbols (R135, R161). -/
def byteResponses (left : Nat) (vs : List Byte) (r : Response) : List Response :=
  vs.map byteResponse ++ if vs.length = left then [] else [if r.status = .ok then endOfStreamResponse else r]

/-- From `s` READ has ended in `t` with the transfers `new` and the response `r`, after it stored `vs` from `a` on, `n`
symbols before them and `left` to go; from `u` the READ_BYTE commands for the same symbols end in `v` with `new'`. -/
structure ReadMatch (a left n : Nat) (s u t v : State) (vs : List Byte) (new new' : List Event) (r : Response) :
    Prop where
  length : vs.length ≤ left
  count : r = ⟨.ok, n + vs.length⟩ ∨ (vs.length < left ∧ isError r.status = true)
  run : repeatReadByte (min left (vs.length + 1)) u = .next v
  trace : t.trace = s.trace ++ new ++ [.respond r]
  trace' : v.trace = u.trace ++ new'
  stores : storesIn new = bulkStores a vs
  stores' : storesIn new' = []
  responses' : responsesIn new' = byteResponses left vs r
  bytes : bytesIn new = bytesIn new'
  requests : requestsIn new = requestsIn new'
  same : SameReader t v

/-- READ has no symbol to go, and no READ_BYTE is needed. -/
theorem ReadMatch.zero {s u : State} (h : SameReader s u) (a n : Nat) :
    ReadMatch a 0 n s u (respond (okResponse n) s) u [] [] [] (okResponse n) where
  length := le_rfl
  count := .inl rfl
  run := rfl
  trace := by simp
  trace' := by simp
  stores := rfl
  stores' := rfl
  responses' := rfl
  bytes := rfl
  requests := rfl
  same := by
    obtain ⟨act, m, past⟩ := h
    rw [respond_ok]
    exact .intro act m past

/-- READ reports an end of data as a count and any error as it is (R135). -/
theorem bulkResponse_cases (n : Nat) {res : SymbolResult} {r : Response} (hr : res.response = some r)
    (hstatus : r.status ≠ .ok) :
    (bulkResponse n r = okResponse n ∧ r = endOfStreamResponse) ∨ (bulkResponse n r = r ∧ isError r.status = true) := by
  cases res with
  | byte v => cases hr; exact absurd rfl hstatus
  | endOfStream => cases hr; exact .inl ⟨rfl, rfl⟩
  | error k => cases hr; cases k <;> exact .inr ⟨rfl, rfl⟩
  | blocked | running => cases hr

section
variable {a left n : Nat} {s u s1 u1 : State} {mid : List Event} (hopen : u.sess = .opened)
  (hs : s1.trace = s.trace ++ mid) (hu : u1.trace = u.trace ++ mid) (hresp : responsesIn mid = [])
  (hstores : storesIn mid = [])
include hopen hs hu hresp hstores

/-- A body that ends without a byte ends READ and is the last READ_BYTE. -/
theorem ReadMatch.ended {res : SymbolResult} {r : Response} (hstep : readByteStep u = .ok res u1)
    (hsame : SameReader s1 u1) (hr : res.response = some r) (hstatus : r.status ≠ .ok) :
    ReadMatch a (left + 1) n s u (respond (bulkResponse n r) s1) (respond r u1) [] mid (mid ++ [.respond r])
      (bulkResponse n r) where
  length := Nat.zero_le _
  count := (bulkResponse_cases n hr hstatus).imp And.left fun ⟨hbulk, herr⟩ => ⟨Nat.succ_pos _, by rwa [hbulk]⟩
  run := by
    rw [List.length_nil, Nat.add_min_add_right, Nat.min_zero, repeatReadByte_succ hopen hstep hr]
    rfl
  trace := by rw [respond_trace, hs]
  trace' := by rw [respond_trace, hu, List.append_assoc]
  stores := hstores
  stores' := by
    rw [storesIn_append, hstores]
    rfl
  responses' := by
    rw [responsesIn_append, hresp]
    rcases bulkResponse_cases n hr hstatus with ⟨hbulk, rfl⟩ | ⟨hbulk, -⟩ <;> rw [hbulk]
    · rfl
    · simp [byteResponses, responsesIn, hstatus]
  bytes := by rw [bytesIn_append]; exact (List.append_nil _).symm
  requests := by rw [requestsIn_append]; rfl
  same := hsame.respond (by
    rcases bulkResponse_cases n hr hstatus with ⟨hbulk, rfl⟩ | ⟨hbulk, -⟩ <;> rw [hbulk]
    rfl)

/-- A body that gives a byte is one store of READ and one response of READ_BYTE. -/
theorem ReadMatch.byte {b : Byte} {t v : State} {vs : List Byte} {new new' : List Event} {r : Response}
    (hstep : readByteStep u = .ok (.byte b) u1)
    (h : ReadMatch (a + 1) left (n + 1) ({ s1 with buf := Memory.write s1.buf a b }.log (.store a b))
      (respond (byteResponse b) u1) t v vs new new' r) :
    ReadMatch a (left + 1) n s u t v (b :: vs) (mid ++ .store a b :: new)
      (mid ++ .respond (byteResponse b) :: new') r where
  length := Nat.succ_le_succ h.length
  count := h.count.imp (fun hr => by rw [hr, List.length_cons, Nat.add_assoc, Nat.add_comm 1])
    (·.imp_left Nat.succ_lt_succ)
  run := by rw [List.length_cons, Nat.add_min_add_right, repeatReadByte_succ hopen hstep rfl, h.run]
  trace := by simp [h.trace, hs]
  trace' := by simp [h.trace', hu]
  stores := by
    rw [storesIn_append, hstores, bulkStores_cons, ← h.stores]
    rfl
  stores' := by
    rw [storesIn_append, hstores]
    exact h.stores'
  responses' := by
    have hcons : byteResponses (left + 1) (b :: vs) r = byteResponse b :: byteResponses left vs r := by
      simp [byteResponses]
    rw [responsesIn_append, hresp, hcons, ← h.responses']
    rfl
  bytes := by
    rw [bytesIn_append, bytesIn_append]
    exact congrArg (bytesIn mid ++ ·) h.bytes
  requests := by
    rw [requestsIn_append, requestsIn_append]
    exact congrArg (requestsIn mid + ·) h.requests
  same := h.same

end

theorem errorResponse_status_ne_ok (k : ErrorKind) : (errorResponse k).status ≠ .ok := by cases k <;> nofun

/-- Every READ that responds has its READ_BYTE commands, from any state a body does not tell apart. -/
theorem bulkLoop_match {offset count left n : Nat} {s u t : State} (hsame : SameReader s u) (hopen : u.sess = .opened)
    (h : bulkLoop offset count left n s = .next t) (hidle : t.activity = .idle) :
    ∃ v vs new new' r, ReadMatch (offset + n) left n s u t v vs new new' r := by
  induction left generalizing n s u with
  | zero =>
    obtain rfl := Host.Outcome.next.inj h
    exact ⟨_, _, _, _, _, .zero hsame _ _⟩
  | succ left ih =>
    obtain ⟨res, s1, hs1, hfin⟩ := Result.finish_eq_next.1 h
    obtain ⟨u1, mid, hu1, hsame1, hs, hu, hresp, hstores⟩ := readByteStep_same hsame hs1
    have hended (r : Response) (hr : res.response = some r) (hstatus : r.status ≠ .ok) :
        ∃ v vs new new' r, ReadMatch (offset + n) (left + 1) n s u t v vs new new' r := by
      obtain rfl := Host.Outcome.next.inj ((bulkLoop_response hs1 hr hstatus).symm.trans h)
      exact ⟨_, _, _, _, _, .ended hopen hs hu hresp hstores hu1 hsame1 hr hstatus⟩
    obtain ⟨e, s2, hstep, hnext⟩ := Result.finish_eq_next.1 hfin
    cases res with
    | byte b =>
      obtain ⟨⟨⟩, s3, hst, hok⟩ := Result.andThen_eq_ok.1 hstep
      obtain ⟨rfl, rfl⟩ := Result.ok.inj hok
      obtain ⟨-, rfl, -⟩ := storeBuf_eq_ok hst
      have hopen1 : u1.sess = .opened := (readByteStep_advance hu1).sess.trans hopen
      obtain ⟨v, vs, new, new', r, hmatch⟩ := ih (hsame1.store_respond _ b b.toNat) hopen1 hnext
      exact ⟨_, _, _, _, _, .byte hopen hs hu hresp hstores hu1 hmatch⟩
    | endOfStream => exact hended _ rfl nofun
    | error k => exact hended _ rfl (errorResponse_status_ne_ok k)
    | blocked | running =>
      obtain ⟨rfl, rfl⟩ := Result.ok.inj hstep
      obtain rfl := Host.Outcome.next.inj hnext
      cases hidle

/-- A command that ends its transfers with a response leaves the core idle. -/
theorem CommandEnd.idle_of_response {s t : State} {new : List Event} {r : Response} (h : CommandEnd s t)
    (htrace : t.trace = s.trace ++ new ++ [.respond r]) : t.activity = .idle := by
  cases h with
  | responded r hp => rfl
  | running c hp | blocked c hp =>
    obtain ⟨mid, hm, hresp, -⟩ := hp.transfers
    obtain rfl : mid = new ++ [.respond r] :=
      List.append_cancel_left (hm.symm.trans (htrace.trans (List.append_assoc _ _ _)))
    simp [responsesIn] at hresp

/-- Settles O49: the two runs begin in the same state, and READ's transfers end with its response. -/
theorem readAgreesWithReadBytes : Obligations.ReadAgreesWithReadBytes := by
  intro offset count s t new r h htrace
  have hidle := (exec_ends h).idle_of_response htrace
  have hloop : s.sess = .opened ∧ bulkLoop offset count count 0 s = .next t := by
    simp only [exec, execRead] at h
    split at h
    · simp at h
    · rename_i hopen
      split_ifs at h
      exact ⟨hopen, h⟩
  obtain ⟨v, vs, new₁, new', r₁, hm⟩ := bulkLoop_match (n := 0) (.refl s) hloop.1 hloop.2 hidle
  obtain ⟨hnew, hr⟩ := List.append_inj' (hm.trace.symm.trans htrace) rfl
  obtain rfl : new₁ = new := List.append_cancel_left hnew
  obtain rfl : r₁ = r := by simpa using hr
  have hcount := hm.count
  rw [Nat.zero_add] at hcount
  exact ⟨v, new', vs, hm.length, hcount, hm.run, hm.trace', hm.stores, hm.stores', hm.responses', hm.bytes,
    hm.requests, hm.same.restore⟩

end Sys2Proof.Machine
end

section
/-! PROOFS. The DecodeStream (43_decodestream.md): a text packed under its code table is read back (R78, R79, R91,
R150). -/

namespace Sys2Proof.Machine

/-! ### The encoder's bytes carry its bits (R48, R78) -/

/-- The bits of a packed byte in delivery order are those it was packed from, and zeros past their end (R48; log 21). -/
theorem byteBits_packByte (msbFirst : Bool) (bits : List Bool) :
    byteBits msbFirst (packByte msbFirst bits) = (List.finRange 8).map fun k => bits.getD k.val false := by
  refine List.map_congr_left fun k _ => ?_
  have hk := k.isLt
  obtain ⟨hlt, hrev⟩ : 7 - k.val < 8 ∧ 7 - (7 - k.val) = k.val := by omega
  cases msbFirst
  · simp [bitOf, packByte, hk]
  · simp [bitOf, packByte, hlt, hrev]

theorem prefix_byteBits_packByte (msbFirst : Bool) {bits : List Bool} (hlen : bits.length ≤ 8) :
    bits <+: byteBits msbFirst (packByte msbFirst bits) := by
  rw [byteBits_packByte, List.prefix_iff_getElem]
  refine ⟨by simpa using hlen, fun i hi => ?_⟩
  simp [hi]

/-- Packed bits are delivered again, before whatever fills the last byte (R78). -/
theorem prefix_packBits (msbFirst : Bool) {fuel : Nat} {bits : List Bool} (hfuel : bits.length ≤ fuel) :
    bits <+: (packBits msbFirst fuel bits).flatMap (byteBits msbFirst) := by
  induction fuel generalizing bits with
  | zero => simp [List.length_eq_zero_iff.1 (Nat.le_zero.1 hfuel)]
  | succ fuel ih =>
    cases bits with
    | nil => exact List.nil_prefix
    | cons b rest =>
      rw [List.length_cons] at hfuel
      have hbyte : b :: rest.take 7 <+: byteBits msbFirst (packByte msbFirst (b :: rest.take 7)) :=
        prefix_byteBits_packByte msbFirst (by simp)
      rw [packBits, List.flatMap_cons]
      by_cases hfull : 7 ≤ rest.length
      · rw [← hbyte.eq_of_length (by simp [hfull]), List.cons_append, List.cons_prefix_cons]
        refine ⟨rfl, ?_⟩
        conv_lhs => rw [← List.take_append_drop 7 rest]
        exact (List.prefix_append_right_inj _).2 (ih (by simp; omega))
      · rw [List.take_of_length_le (by omega)] at hbyte ⊢
        exact hbyte.trans (List.prefix_append _ _)

/-- A source that gives a list of bytes first has them among its leading bytes (R43). -/
theorem leadingBytes_bytes_append (iow : Nat) (d : List Byte) (more : List Nat) :
    leadingBytes iow (d.map (fun b => encodeAnswer (.byte b)) ++ more) = d ++ leadingBytes iow more := by
  induction d with
  | nil => rfl
  | cons b d ih => rw [List.map_cons, List.cons_append, leadingBytes_cons _ (decodeAnswer_encode_byte iow b), ih]; rfl

/-- The first raw bits are delivered, where the bit limit admits them (R91, R95). -/
theorem prefix_deliverable {s : State} {bits : List Bool} (hraw : bits <+: s.rawBits)
    (hlimit : ∀ n, s.cfg.bitLimit = some n → s.bitcnt + bits.length ≤ n) : bits <+: s.deliverable := by
  unfold State.deliverable
  cases hn : s.cfg.bitLimit with
  | none => exact hraw
  | some n =>
    have := hlimit n hn
    exact List.prefix_take_iff.2 ⟨hraw, by omega⟩

/-! ### The round trip (R150) -/

/-- Settles O50: the packed codes stand first in the deliverable bits, and READ stores the symbols of such codes. -/
theorem packedTextRoundTrips : Obligations.PackedTextRoundTrips := by
  intro offset s T text pad more hsess hpos htree hroot hcodes hroom hlimit hans
  have hraw : text.flatMap Prod.fst <+: s.rawBits := by
    rw [State.rawBits, State.bitsInHand, if_pos hpos, List.nil_append, hans, leadingBytes_bytes_append,
      List.flatMap_append]
    calc text.flatMap Prod.fst <+: text.flatMap Prod.fst ++ pad := List.prefix_append _ _
      _ <+: (packed s.cfg.msbFirst (text.flatMap Prod.fst ++ pad)).flatMap (byteBits s.cfg.msbFirst) :=
        prefix_packBits _ le_rfl
      _ <+: _ := List.prefix_append _ _
  obtain ⟨rest, hrest⟩ := prefix_deliverable hraw hlimit
  have harena : ∀ c ∈ text, c.1 ≠ [] ∧ ∃ j, s.walk root c.1 = some j ∧ s.nodeAt j = some (.leaf c.2) := fun c hc => by
    obtain ⟨j, hw, hj⟩ := (arenaWalksAreTreePaths s T htree c.1 c.2).1 (hcodes c hc)
    exact ⟨code_ne_nil hroot hw hj, j, hw, hj⟩
  obtain ⟨t, mid, hexec, hidle, htrace, -, -, -, -, hcnt, hread⟩ :=
    readStoresTheDecodedSymbols offset s text rest hsess hroom hrest.symm harena
  refine ⟨t, mid, hexec, hidle, htrace, hcnt, fun k c hk => ?_⟩
  have hlt : k < text.length := (List.getElem?_eq_some_iff.1 hk).1
  rw [hread, if_pos (by omega), Nat.add_sub_cancel_left, List.getElem?_map, hk]
  rfl

end Sys2Proof.Machine
end

section
/-! PROOFS. The exceptions (60_exceptions.md): who answers InvalidArgument, and the record of the errors (R163, R181). -/

namespace Sys2Proof.Machine

/-! ### The response of a step -/

/-- A response says which it is by the last transfer of the state it leaves. -/
theorem respond_injective {r r' : Response} {u u' : State} (h : respond r u = respond r' u') : r = r' := by
  have hlast := congrArg (fun t : State => t.trace.getLast?) h
  simpa using hlast

/-- A response among the transfers of a command in a step is the one it ends with (R54 (c)). -/
theorem CommandEnd.eq_respond {s t : State} {new : List Event} {r : Response} (h : CommandEnd s t)
    (hnew : t.trace = s.trace ++ new) (hr : .respond r ∈ new) : ∃ u, t = respond r u := by
  cases h with
  | @responded u r' hp =>
    obtain ⟨mid, hm, hresp, -⟩ := hp.transfers
    obtain rfl : new = mid ++ [.respond r'] :=
      List.append_cancel_left (hnew.symm.trans (by rw [respond_trace, hm, List.append_assoc]))
    have hmem := mem_responsesIn.2 hr
    rw [responsesIn_append, hresp] at hmem
    obtain rfl : r = r' := List.mem_singleton.1 hmem
    exact ⟨u, rfl⟩
  | running c hp | blocked c hp =>
    obtain ⟨mid, hm, hresp, -⟩ := hp.transfers
    obtain rfl : new = mid := List.append_cancel_left (hnew.symm.trans hm)
    exact absurd (mem_responsesIn.2 hr) (by simp [hresp])

/-- A step that gives a response is no reset and no wait, and ends with it. -/
theorem step_eq_respond {s t : State} {new : List Event} {r : Response} (h : step s = .next t)
    (hnew : t.trace = s.trace ++ new) (hr : .respond r ∈ new) : s.rst = false ∧ t ≠ s ∧ ∃ u, t = respond r u := by
  have hne : t ≠ s := by
    rintro rfl
    obtain rfl : new = [] := List.self_eq_append_right.1 hnew
    cases hr
  rcases hrst : s.rst with _ | _
  · rcases step_ends hrst h with heq | hend
    · exact absurd heq hne
    · exact ⟨rfl, hne, hend.eq_respond hnew hr⟩
  · obtain rfl : takeReset s = t := by simpa [step, hrst] using h
    obtain rfl : new = [.reset s.busy] := List.append_cancel_left (hnew.symm.trans (takeReset_trace s))
    simp at hr

/-! ### The end of a symbol's body raises no InvalidArgument (R163) -/

theorem symbolStep_ne_invalidArgument (r : BitResult) (s t : State) :
    symbolStep r s ≠ .ok (some (.error .invalidArgument)) t := by
  intro h
  cases r with
  | bit b => rcases pushBit_eq_some h with ⟨v, hv⟩ | hv <;> simp at hv
  | endOfInput => simp only [symbolStep] at h; split_ifs at h <;> simp at h
  | ioFailure e | blocked => simp [symbolStep] at h

/-- How a symbol's body may end, begun with the record at `e`: the record is as it was, and the error is another. -/
def SymbolKeepsRecord (e : Bool) (x : Result SymbolResult) : Prop :=
  ∀ res t, x = .ok res t → t.errored = e ∧ res ≠ .error .invalidArgument

/-- A bit and what follows it: the symbol ends with the bit, or with the rest of the body. -/
theorem symbolKeepsRecord_of_bit {e : Bool} {x : Result BitResult} {rest : State → Result SymbolResult}
    (hx : ∀ r t, x = .ok r t → t.errored = e) (hrest : ∀ u, u.errored = e → SymbolKeepsRecord e (rest u)) :
    SymbolKeepsRecord e (x.andThen fun r s1 => (symbolStep r s1).andThen fun fin s2 =>
      match fin with
      | some res => .ok res s2
      | none => rest s2) := by
  intro res t ht
  obtain ⟨r, s1, h1, ht⟩ := Result.andThen_eq_ok.1 ht
  obtain ⟨fin, s2, h2, ht⟩ := Result.andThen_eq_ok.1 ht
  have hs2 : s2.errored = e := (symbolStep_advance h2).errored.trans (hx r s1 h1)
  cases fin with
  | none => exact hrest s2 hs2 res t ht
  | some res' =>
    obtain ⟨rfl, rfl⟩ := Result.ok.inj ht
    exact ⟨hs2, fun hres => symbolStep_ne_invalidArgument r s1 s2 (hres ▸ h2)⟩

theorem symbolLoop_keepsRecord (fuel : Nat) {e : Bool} {s : State} (h : s.errored = e) :
    SymbolKeepsRecord e (symbolLoop fuel s) := by
  induction fuel generalizing s with
  | zero =>
    intro res t ht
    obtain ⟨rfl, rfl⟩ := Result.ok.inj ht
    exact ⟨h, nofun⟩
  | succ fuel ih => exact symbolKeepsRecord_of_bit (fun _ _ ht => (nextBit_advance ht).errored.trans h) fun _ => ih

theorem readByteStep_keepsRecord (s : State) : SymbolKeepsRecord s.errored (readByteStep s) :=
  symbolLoop_keepsRecord _ (s := freshSymbol s) rfl

theorem continueSymbol_keepsRecord (s : State) : SymbolKeepsRecord s.errored (continueSymbol s) :=
  symbolLoop_keepsRecord _ rfl

theorem resumeSymbol_keepsRecord (s : State) : SymbolKeepsRecord s.errored (resumeSymbol s) :=
  symbolKeepsRecord_of_bit (fun _ _ ht => (awaitBit_advance ht).errored) fun _ => symbolLoop_keepsRecord _

/-! ### Every command but OPEN only adds to the record -/

/-- How a command other than OPEN leaves a step that begins with the record at `e`: with a response that is not
InvalidArgument, or with its place kept, and the record as it was up to that. -/
inductive RecordEnd (e : Bool) : State → Prop where
  | responded {u : State} (r : Response) : u.errored = e → r.status ≠ .invalidArgument → RecordEnd e (respond r u)
  | suspended {u : State} (a : Activity) : u.errored = e → a ≠ .idle → RecordEnd e (suspend a u)

theorem RecordEnd.errored {e : Bool} {t : State} (h : RecordEnd e t) (he : e = true) : t.errored = true := by
  cases h with
  | responded r hu hr => simp [hu, he]
  | suspended a hu ha => simp [hu, he]

theorem RecordEnd.ne_invalidArgument {e : Bool} {t : State} (h : RecordEnd e t) (d : Nat) (u : State) :
    t ≠ respond ⟨.invalidArgument, d⟩ u := by
  intro heq
  cases h with
  | responded r hu hr => exact hr (respond_injective heq ▸ rfl)
  | suspended a hu ha => exact ha (congrArg State.activity heq)

theorem errorResponse_ne_invalidArgument {k : ErrorKind} (hk : k ≠ .invalidArgument) :
    (errorResponse k).status ≠ .invalidArgument := by
  cases k with
  | invalidArgument => exact absurd rfl hk
  | _ => nofun

theorem RecordEnd.raised {e : Bool} {u : State} {k : ErrorKind} (hu : u.errored = e) (hk : k ≠ .invalidArgument) :
    RecordEnd e (raise k u) := .responded _ hu (errorResponse_ne_invalidArgument hk)

theorem finishByte_recordEnd {e : Bool} {x : Result SymbolResult} {t : State} (hx : SymbolKeepsRecord e x)
    (h : x.finish finishByte = .next t) : RecordEnd e t := by
  obtain ⟨res, u, hu, h⟩ := Result.finish_eq_next.1 h
  obtain ⟨hrec, hres⟩ := hx res u hu
  cases res <;> obtain rfl := Host.Outcome.next.inj h
  case byte | endOfStream => exact .responded _ hrec nofun
  case error k => exact .raised hrec fun hk => hres (hk ▸ rfl)
  case blocked | running => exact .suspended _ hrec nofun

/-- READ after a symbol's body, when the rounds that follow keep the record as a command does. -/
theorem continueBulk_recordEnd {e : Bool} {offset count n : Nat} {x : Result SymbolResult} {t : State}
    (hx : SymbolKeepsRecord e x)
    (hloop : ∀ u, u.errored = e → bulkLoop offset count (count - (n + 1)) (n + 1) u = .next t → RecordEnd e t)
    (h : continueBulk offset count n x = .next t) : RecordEnd e t := by
  obtain ⟨res, u, hu, h⟩ := Result.finish_eq_next.1 h
  obtain ⟨hrec, hres⟩ := hx res u hu
  obtain ⟨fin, u', hstep, h⟩ := Result.finish_eq_next.1 h
  cases res
  case byte v =>
    obtain ⟨⟨⟩, u1, hst, hok⟩ := Result.andThen_eq_ok.1 hstep
    obtain ⟨rfl, rfl⟩ := Result.ok.inj hok
    exact hloop u1 ((Stored.ofStore hst).advance.errored.trans hrec) h
  all_goals
    obtain ⟨rfl, rfl⟩ := Result.ok.inj hstep
    obtain rfl := Host.Outcome.next.inj h
  case endOfStream => exact .responded _ hrec nofun
  case error k => exact .raised hrec fun hk => hres (hk ▸ rfl)
  case blocked | running => exact .suspended _ hrec nofun

theorem bulkLoop_recordEnd {e : Bool} {offset count left n : Nat} (hleft : left = count - n) {s t : State}
    (hs : s.errored = e) (h : bulkLoop offset count left n s = .next t) : RecordEnd e t := by
  induction left generalizing n s with
  | zero => exact Host.Outcome.next.inj h ▸ .responded _ hs nofun
  | succ left ih =>
    have hnext : left = count - (n + 1) := by omega
    rw [bulkLoop_succ hnext] at h
    exact continueBulk_recordEnd (hs ▸ readByteStep_keepsRecord s) (fun u hu hl => ih hnext hu (hnext ▸ hl)) h

theorem continueCommand_recordEnd {c : Pending} {s t : State} (h : continueCommand c s = .next t) :
    RecordEnd s.errored t := by
  cases c with
  | readByte => exact finishByte_recordEnd (continueSymbol_keepsRecord s) h
  | read offset count n =>
    exact continueBulk_recordEnd (continueSymbol_keepsRecord s) (fun _ => bulkLoop_recordEnd rfl) h

theorem resumeCommand_recordEnd {c : Pending} {s t : State} (h : resumeCommand c s = .next t) :
    RecordEnd s.errored t := by
  cases c with
  | readByte => exact finishByte_recordEnd (resumeSymbol_keepsRecord s) h
  | read offset count n =>
    exact continueBulk_recordEnd (resumeSymbol_keepsRecord s) (fun _ => bulkLoop_recordEnd rfl) h

theorem exec_recordEnd {i : Instr} {s t : State} (hi : ∀ a b, i ≠ .openStream a b) (h : exec i s = .next t) :
    RecordEnd s.errored t := by
  cases i with
  | openStream a b => exact absurd rfl (hi a b)
  | closeStream a b =>
    simp only [exec, execCloseStream] at h
    split at h
    · simp at h
    · exact Host.Outcome.next.inj h ▸ .responded _ rfl nofun
  | readByte a b =>
    simp only [exec, execReadByte] at h
    split at h
    · simp at h
    · exact finishByte_recordEnd (readByteStep_keepsRecord s) h
  | read offset count =>
    simp only [exec, execRead] at h
    split at h
    · simp at h
    · split_ifs at h
      exact bulkLoop_recordEnd (n := 0) rfl rfl h
  | canRead a b | canWrite a b | canSeek a b => exact Host.Outcome.next.inj h ▸ .responded _ rfl nofun
  | _ => exact Host.Outcome.next.inj h ▸ .raised rfl nofun

/-! ### OPEN (R131, R163) -/

/-- OPEN begins a session outside one, or answers InvalidArgument for an absent input. -/
theorem exec_open_cases {a b : Nat} {s t : State} (h : exec (.openStream a b) s = .next t) : s.sess = .closed ∧
    (t = respond (okResponse 0) (beginSession s) ∨
      (s.srcPresent = false ∨ s.treePresent = false) ∧ t = raise .invalidArgument s) := by
  simp only [exec, execOpenStream] at h
  split at h
  · simp at h
  · rename_i hclosed
    split_ifs at h with hpresent <;> obtain rfl := Host.Outcome.next.inj h
    · exact ⟨hclosed, .inl rfl⟩
    · refine ⟨hclosed, .inr ⟨?_, rfl⟩⟩
      rwa [Bool.not_eq_true, Bool.and_eq_false_iff] at hpresent

theorem exec_open_absent (a b : Nat) {s : State} (hclosed : s.sess = .closed)
    (habsent : s.srcPresent = false ∨ s.treePresent = false) :
    exec (.openStream a b) s = .next (raise .invalidArgument s) := by
  rw [exec, execOpenStream, hclosed]
  exact if_neg (by rwa [Bool.not_eq_true, Bool.and_eq_false_iff])

/-- A step is a reset, a wait, an OPEN, or a part of a command that only adds to the record. -/
theorem step_record_cases {s t : State} (h : step s = .next t) :
    (s.rst = true ∧ t = takeReset s) ∨ t = s ∨ RecordEnd s.errored t ∨
    ∃ w rest a b, s.cmds = w :: rest ∧ w % 2 ^ 8 = 0x00 ∧
      exec (.openStream a b) (acceptCommand w rest s) = .next t := by
  rcases step_cases h with hreset | ⟨-, -, -, rfl⟩ | ⟨-, -, w, rest, i, hcmds, hd, he⟩ | ⟨-, -, w, rest, -, rfl⟩ |
    ⟨-, c, -, he⟩ | ⟨-, c, -, he⟩
  · exact .inl hreset
  · exact .inr (.inl rfl)
  · by_cases hopen : ∃ a b, i = .openStream a b
    · obtain ⟨a, b, rfl⟩ := hopen
      exact .inr (.inr (.inr ⟨w, rest, a, b, hcmds, (opcode_of_decode hd).symm, he⟩))
    · exact .inr (.inr (.inl
        (exec_recordEnd (s := acceptCommand w rest s) (fun a b hi => hopen ⟨a, b, hi⟩) he)))
  · exact .inr (.inr (.inl (.raised rfl nofun)))
  · exact .inr (.inr (.inl (continueCommand_recordEnd he)))
  · exact .inr (.inr (.inl (resumeCommand_recordEnd he)))

/-- Settles O21: the step that answers it ends with that response, which leaves OPEN with an input absent. -/
theorem invalidArgumentIsOpenWithoutSourceOrTree : Obligations.InvalidArgumentIsOpenWithoutSourceOrTree := by
  refine ⟨fun a b s hclosed habsent => ?_, fun s t new d h hnew hr => ?_⟩
  · rw [exec_open_absent a b hclosed habsent]
    simp [raise, respond, errorResponse, isError, State.log]
  · obtain ⟨hrst, hne, u, hu⟩ := step_eq_respond h hnew hr
    rcases step_record_cases h with ⟨hreset, -⟩ | hwait | hend | ⟨w, rest, a, b, hcmds, hw, he⟩
    · simp [hrst] at hreset
    · exact absurd hwait hne
    · exact absurd hu (hend.ne_invalidArgument d u)
    · obtain ⟨hclosed, rfl | ⟨habsent, rfl⟩⟩ := exec_open_cases he
      · simpa [okResponse] using respond_injective hu
      · have hd : errorResponse .invalidArgument = ⟨.invalidArgument, d⟩ := respond_injective hu
        exact ⟨(congrArg Response.data hd).symm, hclosed, hclosed, habsent, w, rest, hcmds, hw⟩

theorem takeReset_errored (s : State) : (takeReset s).errored = s.errored := by
  obtain ⟨answers, cursor, hab, -, -⟩ := abortFetch_frame s
  rw [takeReset, hab]
  rfl

/-- Settles O55: the response that ends a step adds to the record, and only OPEN's beginning of a session clears it. -/
theorem errorResponsesAreRecorded : Obligations.ErrorResponsesAreRecorded := by
  refine fun s t new h hnew => ⟨fun ⟨r, hr, herror⟩ => ?_, fun herr => ?_⟩
  · obtain ⟨-, -, u, rfl⟩ := step_eq_respond h hnew (mem_responsesIn.1 hr)
    simp [herror]
  · rcases step_record_cases h with ⟨-, rfl⟩ | rfl | hend | ⟨w, rest, a, b, -, -, he⟩
    · exact .inl ((takeReset_errored s).trans herr)
    · exact .inl herr
    · exact .inl (hend.errored herr)
    · obtain ⟨hclosed, rfl | ⟨-, rfl⟩⟩ := exec_open_cases he
      · exact .inr ⟨hclosed, rfl⟩
      · exact .inl (by simp [errorResponse, isError])

end Sys2Proof.Machine
end

section
/-! PROOFS. Reset and hazards (70_reset_and_hazards.md): what a requested reset changes, and that the next session
starts after it as after a CLOSE (R131, R132, R185). -/

namespace Sys2Proof.Machine

/-! ### The fetch a reset finds outstanding (R185, log 3) -/

/-- The source is untouched, or an outstanding fetch took the next answer, which moved the cursor by one at most. -/
theorem abortFetch_cases (s : State) :
    abortFetch s = s ∨
    (∃ c, s.activity = .blocked c) ∧ ∃ cursor, abortFetch s = { s with answers := s.answers.tail, srcCursor := cursor } ∧
      (cursor = s.srcCursor ∨ cursor = s.srcCursor + 1) := by
  unfold abortFetch
  split
  · rename_i c w rest hact hans
    split_ifs
    · refine .inr ⟨⟨c, hact⟩, ?_⟩
      rw [hans]
      split
      · exact ⟨s.srcCursor + 1, rfl, .inr rfl⟩
      · exact ⟨s.srcCursor, rfl, .inl rfl⟩
    · exact .inl rfl
  · exact .inl rfl

theorem abortFetch_idle {s : State} (hidle : s.activity = .idle) : abortFetch s = s := by
  rcases abortFetch_cases s with hsame | ⟨⟨c, hblocked⟩, -⟩
  · exact hsame
  · simp [hidle] at hblocked

/-! ### The reset (R34, R185) -/

theorem step_of_rst {s : State} (hrst : s.rst = true) : step s = .next (takeReset s) := by rw [step, if_pos hrst]

/-- Settles O12: apart from the source's side of an outstanding fetch, the reset writes each element itself. -/
theorem requestedResetRule : Obligations.RequestedResetRule := by
  intro s hrst
  refine ⟨takeReset s, step_of_rst hrst, ?_⟩
  rcases abortFetch_cases s with hab | ⟨hblocked, cursor, hab, hcursor⟩ <;> rw [takeReset, hab] <;>
    refine ⟨rfl, rfl, rfl, rfl, rfl, rfl, rfl, rfl, rfl, rfl, rfl, rfl, rfl, rfl, rfl, rfl, ?_⟩
  · exact .inl ⟨rfl, rfl⟩
  · exact .inr ⟨hblocked, rfl, hcursor⟩

/-! ### A reset against a CLOSE (R131, R132, R185) -/

theorem exec_open_present {a b : Nat} {s t : State} (h : exec (.openStream a b) s = .next t) (hsrc : s.srcPresent = true)
    (htree : s.treePresent = true) : t = respond (okResponse 0) (beginSession s) :=
  (exec_open_cases h).2.resolve_right fun ⟨habsent, _⟩ => by simp [hsrc, htree] at habsent

/-- Settles O13: outside a fetch the reset leaves the source and the memories alone as CLOSE does, and OPEN writes every
other element but `cur`. -/
theorem resetActsAsACloseForTheNextSession : Obligations.ResetActsAsACloseForTheNextSession := by
  intro a b s closed resetted t u hopened hidle hrst hsrc htree hclose hreset ht hu
  rw [closeEndsTheSession a b s hopened] at hclose
  obtain rfl := Host.Outcome.next.inj hclose
  have hab : abortFetch { s with rst := true } = { s with rst := true } := abortFetch_idle hidle
  rw [step_of_rst rfl, takeReset, hab] at hreset
  obtain rfl := Host.Outcome.next.inj hreset
  obtain rfl := exec_open_present ht hsrc htree
  obtain rfl := exec_open_present hu hsrc htree
  simp [respond_ok, beginSession, decReset, State.log, hrst]

end Sys2Proof.Machine
end
